-- ==== Sys2Proof/Word.lean ====
section
/-! DEFINITION. The word types of the block: a byte, a 64-bit register (10_state.md R23), and the
fixed-width unsigned values `u32` and `u62` of 00_scope.md R8. -/

namespace Sys2Proof

/-- A byte, bits 7 down to 0 (00_scope.md R7). -/
abbrev Byte := BitVec 8

/-- A host-visible register: `REG_W = 64` bits (00_scope.md R6). -/
abbrev Word := BitVec 64

/-- A 32-bit unsigned value: a version, a packet number. -/
abbrev U32 := BitVec 32

/-- A VarInt value, `0 .. 2^62 - 1` (40_varint.md R110). -/
abbrev U62 := BitVec 62

end Sys2Proof
end

