-- ==== Sys2Proof/Config.lean ====
section
/-! DEFINITION. What an implementation fixes (00_scope.md R6): the fixed constants, the parameters,
and the one free value the spec leaves open. -/

namespace Sys2Proof

/-- `VARINT_MAX`, the largest VarInt value (00_scope.md R6, 40_varint.md R110). -/
def varIntMax : Nat := 2 ^ 62 - 1

/-- `CID_MAX_LEN`, the longest connection ID in bytes (00_scope.md R6). -/
def cidMaxLen : Nat := 20

/-- The length of a stateless reset token (44_frames.md R225). -/
def resetTokenLen : Nat := 16

/-- The parameters of 00_scope.md R6 that one instance is built with. They are a field of the state
that no step changes (assumption 1), so a statement about every state is one about every choice of them. -/
structure Params where
  /-- `MAX_IN_LEN`, the size of `IN` in bytes: OPEN, at least 1. -/
  maxInLen : Nat
  /-- `EVQ_DEPTH`, the capacity of `EVQ`: OPEN, at least 1; `none` is unbounded (10_state.md R44). -/
  evqDepth : Option Nat
  /-- `DATAGRAM_ENABLED`: whether tags 0x30 and 0x31 are admitted (43_frame_dispatch.md R191). -/
  datagramEnabled : Bool
  /-- `LENGTH_INCLUDES_PN`: whether Length counts the packet number (42_packet.md R167). -/
  lengthIncludesPn : Bool
  deriving DecidableEq, Repr

/-- What R6 asks of the parameters: `MAX_IN_LEN ≥ 1` and `EVQ_DEPTH ≥ 1` if bounded; and every offset up
to `MAX_IN_LEN` fits a register, `REG_W` being 64 (assumption 19). -/
def Params.valid (p : Params) : Bool :=
  decide (1 ≤ p.maxInLen) && decide (p.maxInLen < 2 ^ 64) &&
    match p.evqDepth with
    | none => true
    | some d => decide (1 ≤ d)

/-- The parameters the model's reset state stands for: the two decided ones as R6 decides them, an
unbounded queue (R44's default for a model), and a size of `IN` that holds any UDP datagram.
DESIGN CHOICE (unsafe for statements about `State.reset` alone, assumption 2). -/
def Params.default : Params :=
  { maxInLen := 65536, evqDepth := none, datagramEnabled := true, lengthIncludesPn := true }

/-- What a host read of `ERR_AT` returns while `STATUS.CODE` is not 1, 2 or 3: any value
(93_implementation_defined.md U5). A free value (DESIGN CHOICE, safe, assumption 10), which may depend on how many
commands the host has given and on the offset the register last recorded, and on nothing else: so a second read with
no command between gives what the first gave (20_memory.md R66). -/
opaque Config.freeErrAt : Nat → Word → Word

end Sys2Proof
end

