-- ==== Sys2Proof/Syntax.lean ====
section
/-! DEFINITION. The instructions: one constructor per row of opcode_table.json, in the table's order and in
its four encoding spaces (30_encoding.md): commands, packet first bytes, VarInt first bytes, frame tags. -/

namespace Sys2Proof

/-- An instruction. The arguments of a constructor are the bits of its word that its row leaves open. -/
inductive Instr where
  -- Commands, `CMD` bits 7:0 (30_encoding.md R80); their operands are registers (R81).
  | nop
  | vdec
  | venc
  | vsize
  | peek
  | hdrl
  | hdrs
  | pndec
  | pkt
  | frm
  -- Packet first bytes (30_encoding.md R83, R84).
  /-- bit 7 = 1 and version 0; bits 6:0 are ignored. -/
  | pktVersionNegotiation (low : BitVec 7)
  /-- type 0: bit 6, bits 3:2, bits 1:0. -/
  | pktInitial (fixed : Bool) (reserved : BitVec 2) (pnl : BitVec 2)
  /-- type 1. -/
  | pktZeroRtt (fixed : Bool) (reserved : BitVec 2) (pnl : BitVec 2)
  /-- type 2. -/
  | pktHandshake (fixed : Bool) (reserved : BitVec 2) (pnl : BitVec 2)
  /-- type 3: bit 6, and bits 3:0, which carry no meaning. -/
  | pktRetry (fixed : Bool) (unused : BitVec 4)
  /-- bit 7 = 0: bit 6, bit 5, bits 4:3, bit 2, bits 1:0. -/
  | pktShort (fixed : Bool) (spin : Bool) (reserved : BitVec 2) (keyPhase : Bool) (pnl : BitVec 2)
  -- VarInt first bytes (30_encoding.md R88): bits 5:0.
  | varint1B (high : BitVec 6)
  | varint2B (high : BitVec 6)
  | varint4B (high : BitVec 6)
  | varint8B (high : BitVec 6)
  -- Frame tags (30_encoding.md R89), with the tag's low-bit fields.
  | framePadding
  | framePing
  | frameAck (ecn : Bool)
  | frameResetStream
  | frameStopSending
  | frameCrypto
  | frameNewToken
  | frameStream (off len fin : Bool)
  | frameMaxData
  | frameMaxStreamData
  | frameMaxStreams (uni : Bool)
  | frameDataBlocked
  | frameStreamDataBlocked
  | frameStreamsBlocked (uni : Bool)
  | frameNewConnectionId
  | frameRetireConnectionId
  | framePathChallenge
  | framePathResponse
  | frameConnectionClose (app : Bool)
  | frameHandshakeDone
  | frameDatagram (len : Bool)
  deriving DecidableEq, Repr

/-- The packet kinds (10_state.md R34, 42_packet.md R166). -/
inductive PacketKind where
  | versionNegotiation | initial | zeroRtt | handshake | retry | short
  deriving DecidableEq, Repr

/-- The frame kinds (43_frame_dispatch.md R192). -/
inductive FrameKind where
  | padding | ping | ack | resetStream | stopSending | crypto | newToken | stream | maxData
  | maxStreamData | maxStreams | dataBlocked | streamDataBlocked | streamsBlocked | newConnectionId
  | retireConnectionId | pathChallenge | pathResponse | connectionClose | handshakeDone | datagram
  deriving DecidableEq, Repr

/-- The four encoding spaces a byte can be decoded in (30_encoding.md). -/
inductive Space where
  /-- The byte is `CMD` bits 7:0. -/
  | command
  /-- The byte is a packet's first byte; `vn` says that the version that follows is 0. -/
  | packet (vn : Bool)
  /-- The byte is a VarInt's first byte. -/
  | varint
  /-- The byte is a frame's tag; `datagram` is `DATAGRAM_ENABLED`. -/
  | frame (datagram : Bool)
  deriving DecidableEq, Repr

/-- Why a byte is no instruction of its space. -/
inductive DecodeError where
  /-- No command has this opcode (30_encoding.md R82): the engine reports BAD_COMMAND. -/
  | unassignedOpcode (op : Byte)
  /-- The tag is not admitted (43_frame_dispatch.md R191): FRM reports MALFORMED_TAG. -/
  | unknownTag (tag : Byte)
  deriving DecidableEq, Repr

end Sys2Proof
end

