-- ==== Sys2Proof/WellFormed.lean ====
section
/-! DEFINITION. Which instructions exist on a block built with given parameters. Field widths are in the
types, so the only check is that DATAGRAM frames exist if `DATAGRAM_ENABLED = 1`. -/

namespace Sys2Proof

/-- Well-formedness: tags 0x30 and 0x31 are frames only if the block was built with DATAGRAM
(43_frame_dispatch.md R191, 44_frames.md R231). -/
def Instr.wf (p : Params) : Instr → Bool
  | .frameDatagram _ => p.datagramEnabled
  | _ => true

end Sys2Proof
end

