-- ==== Sys2Proof/Decode.lean ====
section
/-! DEFINITION. The decoders of the four encoding spaces (30_encoding.md R80..R92), total on every byte and
rejecting by name, and the encoder written from the same tables. -/

namespace Sys2Proof

/-! ## Bit fields (00_scope.md R7) -/

/-- `b[hi:lo]` of a byte, as `n = hi - lo + 1` bits. -/
def bits (b : Byte) (lo n : Nat) : BitVec n := b.extractLsb' lo n

/-- The single bit `b[i]`. -/
def bit (b : Byte) (i : Nat) : Bool := b.getLsbD i

/-- A Boolean as one bit. -/
def bit1 (v : Bool) : BitVec 1 := BitVec.ofBool v

/-- FORM, bit 7 of a first byte: 1 is the long form (30_encoding.md R83, R84). -/
def formBit (b : Byte) : Bool := bit b 7
/-- FIXED, bit 6 (30_encoding.md R83, R84). -/
def fixedBit (b : Byte) : Bool := bit b 6
/-- TYPE, bits 5:4 of a long first byte (30_encoding.md R83). -/
def longType (b : Byte) : BitVec 2 := bits b 4 2
/-- SPIN, bit 5 of a short first byte (30_encoding.md R84, 90_conflicts.md C1). -/
def spinBit (b : Byte) : Bool := bit b 5
/-- KEY_PHASE, bit 2 of a short first byte (30_encoding.md R84). -/
def keyPhaseBit (b : Byte) : Bool := bit b 2
/-- PNL, bits 1:0: the packet-number length less one (30_encoding.md R83, R84). -/
def pnlBits (b : Byte) : BitVec 2 := bits b 0 2
/-- The VarInt class, bits 7:6 (30_encoding.md R88). -/
def varIntClass (b : Byte) : BitVec 2 := bits b 6 2
/-- The value's high bits in a VarInt's first byte, bits 5:0 (30_encoding.md R88). -/
def varIntHigh (b : Byte) : BitVec 6 := bits b 0 6

/-- A long first byte from its fields (30_encoding.md R83). -/
def longFlags (fixed : Bool) (type reserved pnl : BitVec 2) : Byte :=
  (1#1 ++ bit1 fixed ++ type ++ reserved ++ pnl).cast rfl

/-- A Retry's first byte: type 3, and bits 3:0 as they stand (30_encoding.md R83). -/
def retryFlags (fixed : Bool) (unused : BitVec 4) : Byte :=
  (1#1 ++ bit1 fixed ++ 3#2 ++ unused).cast rfl

/-- A Version Negotiation's first byte: bit 7, and bits 6:0 as they stand (30_encoding.md R83). -/
def vnFlags (low : BitVec 7) : Byte := (1#1 ++ low).cast rfl

/-- A short first byte from its fields (30_encoding.md R84). -/
def shortFlags (fixed spin : Bool) (reserved : BitVec 2) (keyPhase : Bool) (pnl : BitVec 2) : Byte :=
  (0#1 ++ bit1 fixed ++ bit1 spin ++ reserved ++ bit1 keyPhase ++ pnl).cast rfl

/-- A VarInt's first byte from its class and high bits (30_encoding.md R88). -/
def varIntFirst (cls : BitVec 2) (high : BitVec 6) : Byte := (cls ++ high).cast rfl

/-! ## Opcodes and tags -/

/-- The opcode under which a command is written to `CMD` (30_encoding.md R80). -/
def opNop : Byte := 0x00
def opVdec : Byte := 0x01
def opVenc : Byte := 0x02
def opVsize : Byte := 0x03
def opPeek : Byte := 0x10
def opHdrl : Byte := 0x11
def opHdrs : Byte := 0x12
def opPndec : Byte := 0x13
def opPkt : Byte := 0x20
def opFrm : Byte := 0x30

/-- The opcode in a word written to `CMD`: bits 7:0; bits 63:8 are ignored (30_encoding.md R81). -/
def opcodeOf (w : Word) : Byte := w.setWidth 8

/-- The command with an opcode (30_encoding.md R80); any other opcode is unassigned (R82). -/
def decodeCommand (op : Byte) : Except DecodeError Instr :=
  if op = opNop then .ok .nop
  else if op = opVdec then .ok .vdec
  else if op = opVenc then .ok .venc
  else if op = opVsize then .ok .vsize
  else if op = opPeek then .ok .peek
  else if op = opHdrl then .ok .hdrl
  else if op = opHdrs then .ok .hdrs
  else if op = opPndec then .ok .pndec
  else if op = opPkt then .ok .pkt
  else if op = opFrm then .ok .frm
  else .error (.unassignedOpcode op)

/-- The kind of a long packet, `LongKind` (42_packet.md R161): the version test comes first. -/
def longKind (vn : Bool) (flags : Byte) : PacketKind :=
  if vn then .versionNegotiation
  else match (longType flags).toNat with
    | 0 => .initial
    | 1 => .zeroRtt
    | 2 => .handshake
    | _ => .retry

/-- The kind of a packet by its first byte and whether its version is 0 (42_packet.md R160, R161). -/
def packetKind (vn : Bool) (flags : Byte) : PacketKind :=
  if formBit flags then longKind vn flags else .short

/-- The packet class of a first byte; every value has one (30_encoding.md R92). -/
def decodePacketFirst (vn : Bool) (b : Byte) : Instr :=
  match packetKind vn b with
  | .versionNegotiation => .pktVersionNegotiation (bits b 0 7)
  | .initial => .pktInitial (fixedBit b) (bits b 2 2) (pnlBits b)
  | .zeroRtt => .pktZeroRtt (fixedBit b) (bits b 2 2) (pnlBits b)
  | .handshake => .pktHandshake (fixedBit b) (bits b 2 2) (pnlBits b)
  | .retry => .pktRetry (fixedBit b) (bits b 0 4)
  | .short => .pktShort (fixedBit b) (spinBit b) (bits b 3 2) (keyPhaseBit b) (pnlBits b)

/-- The VarInt class of a first byte; every value has one (30_encoding.md R88). -/
def decodeVarIntFirst (b : Byte) : Instr :=
  match (varIntClass b).toNat with
  | 0 => .varint1B (varIntHigh b)
  | 1 => .varint2B (varIntHigh b)
  | 2 => .varint4B (varIntHigh b)
  | _ => .varint8B (varIntHigh b)

/-- `Admitted(tag)`: a tag up to 0x1E, or 0x30 and 0x31 if `DATAGRAM_ENABLED` (43_frame_dispatch.md R191). -/
def admitted (datagram : Bool) (tag : Byte) : Bool :=
  decide (tag.toNat ≤ 0x1E) || (datagram && (tag == 0x30 || tag == 0x31))

/-- `Kind(tag)` (43_frame_dispatch.md R192); `none` for a tag that is not admitted (R191). -/
def frameKind (datagram : Bool) (tag : Byte) : Option FrameKind :=
  if admitted datagram tag then
    match tag.toNat with
    | 0x00 => some .padding
    | 0x01 => some .ping
    | 0x02 | 0x03 => some .ack
    | 0x04 => some .resetStream
    | 0x05 => some .stopSending
    | 0x06 => some .crypto
    | 0x07 => some .newToken
    | 0x08 | 0x09 | 0x0A | 0x0B | 0x0C | 0x0D | 0x0E | 0x0F => some .stream
    | 0x10 => some .maxData
    | 0x11 => some .maxStreamData
    | 0x12 | 0x13 => some .maxStreams
    | 0x14 => some .dataBlocked
    | 0x15 => some .streamDataBlocked
    | 0x16 | 0x17 => some .streamsBlocked
    | 0x18 => some .newConnectionId
    | 0x19 => some .retireConnectionId
    | 0x1A => some .pathChallenge
    | 0x1B => some .pathResponse
    | 0x1C | 0x1D => some .connectionClose
    | 0x1E => some .handshakeDone
    | _ => some .datagram
  else none

/-- The frame class of a kind and a tag of that kind: the tag's low bits are its fields (30_encoding.md R89). -/
def frameClass (k : FrameKind) (tag : Byte) : Instr :=
  match k with
  | .padding => .framePadding
  | .ping => .framePing
  | .ack => .frameAck (bit tag 0)
  | .resetStream => .frameResetStream
  | .stopSending => .frameStopSending
  | .crypto => .frameCrypto
  | .newToken => .frameNewToken
  | .stream => .frameStream (bit tag 2) (bit tag 1) (bit tag 0)
  | .maxData => .frameMaxData
  | .maxStreamData => .frameMaxStreamData
  | .maxStreams => .frameMaxStreams (bit tag 0)
  | .dataBlocked => .frameDataBlocked
  | .streamDataBlocked => .frameStreamDataBlocked
  | .streamsBlocked => .frameStreamsBlocked (bit tag 0)
  | .newConnectionId => .frameNewConnectionId
  | .retireConnectionId => .frameRetireConnectionId
  | .pathChallenge => .framePathChallenge
  | .pathResponse => .framePathResponse
  | .connectionClose => .frameConnectionClose (bit tag 0)
  | .handshakeDone => .frameHandshakeDone
  | .datagram => .frameDatagram (bit tag 0)

/-- The frame class of a tag (30_encoding.md R89, R92). -/
def decodeTag (datagram : Bool) (tag : Byte) : Except DecodeError Instr :=
  match frameKind datagram tag with
  | some k => .ok (frameClass k tag)
  | none => .error (.unknownTag tag)

/-- The instruction a byte stands for in an encoding space. -/
def decode : Space → Byte → Except DecodeError Instr
  | .command, b => decodeCommand b
  | .packet vn, b => .ok (decodePacketFirst vn b)
  | .varint, b => .ok (decodeVarIntFirst b)
  | .frame datagram, b => decodeTag datagram b

/-! ## The encoder -/

/-- A base tag with a low-bit field of up to three bits (30_encoding.md R89). -/
def tagWith (base : BitVec 5) (b2 b1 b0 : Bool) : Byte :=
  (base ++ bit1 b2 ++ bit1 b1 ++ bit1 b0).cast rfl

/-- The byte an instruction is written as in its space (30_encoding.md R80, R83, R84, R88, R89). -/
def encode : Instr → Byte
  | .nop => 0x00
  | .vdec => 0x01
  | .venc => 0x02
  | .vsize => 0x03
  | .peek => 0x10
  | .hdrl => 0x11
  | .hdrs => 0x12
  | .pndec => 0x13
  | .pkt => 0x20
  | .frm => 0x30
  | .pktVersionNegotiation low => vnFlags low
  | .pktInitial fixed reserved pnl => longFlags fixed 0 reserved pnl
  | .pktZeroRtt fixed reserved pnl => longFlags fixed 1 reserved pnl
  | .pktHandshake fixed reserved pnl => longFlags fixed 2 reserved pnl
  | .pktRetry fixed unused => retryFlags fixed unused
  | .pktShort fixed spin reserved keyPhase pnl => shortFlags fixed spin reserved keyPhase pnl
  | .varint1B high => varIntFirst 0 high
  | .varint2B high => varIntFirst 1 high
  | .varint4B high => varIntFirst 2 high
  | .varint8B high => varIntFirst 3 high
  | .framePadding => 0x00
  | .framePing => 0x01
  | .frameAck ecn => tagWith 0x00 false true ecn
  | .frameResetStream => 0x04
  | .frameStopSending => 0x05
  | .frameCrypto => 0x06
  | .frameNewToken => 0x07
  | .frameStream off len fin => tagWith 0x01 off len fin
  | .frameMaxData => 0x10
  | .frameMaxStreamData => 0x11
  | .frameMaxStreams uni => tagWith 0x02 false true uni
  | .frameDataBlocked => 0x14
  | .frameStreamDataBlocked => 0x15
  | .frameStreamsBlocked uni => tagWith 0x02 true true uni
  | .frameNewConnectionId => 0x18
  | .frameRetireConnectionId => 0x19
  | .framePathChallenge => 0x1A
  | .framePathResponse => 0x1B
  | .frameConnectionClose app => tagWith 0x03 true false app
  | .frameHandshakeDone => 0x1E
  | .frameDatagram len => tagWith 0x06 false false len

/-- The space an instruction is encoded in, on a block with the given parameters. -/
def spaceOf (p : Params) : Instr → Space
  | .nop | .vdec | .venc | .vsize | .peek | .hdrl | .hdrs | .pndec | .pkt | .frm => .command
  | .pktVersionNegotiation _ => .packet true
  | .pktInitial _ _ _ | .pktZeroRtt _ _ _ | .pktHandshake _ _ _ | .pktRetry _ _ | .pktShort _ _ _ _ _ =>
    .packet false
  | .varint1B _ | .varint2B _ | .varint4B _ | .varint8B _ => .varint
  | .framePadding | .framePing | .frameAck _ | .frameResetStream | .frameStopSending | .frameCrypto
  | .frameNewToken | .frameStream _ _ _ | .frameMaxData | .frameMaxStreamData | .frameMaxStreams _
  | .frameDataBlocked | .frameStreamDataBlocked | .frameStreamsBlocked _ | .frameNewConnectionId
  | .frameRetireConnectionId | .framePathChallenge | .framePathResponse | .frameConnectionClose _
  | .frameHandshakeDone | .frameDatagram _ => .frame p.datagramEnabled

/-- The opcode of the command an instruction runs under: a command's own, and for a wire element that of the
command that consumes it (VDEC, PKT, FRM). It is what `STATUS.OP` and `Clears` go by (60_exceptions.md R262). -/
def opcodeFor : Instr → Byte
  | .nop => opNop
  | .vdec => opVdec
  | .venc => opVenc
  | .vsize => opVsize
  | .peek => opPeek
  | .hdrl => opHdrl
  | .hdrs => opHdrs
  | .pndec => opPndec
  | .pkt => opPkt
  | .frm => opFrm
  | .pktVersionNegotiation _ | .pktInitial _ _ _ | .pktZeroRtt _ _ _ | .pktHandshake _ _ _ | .pktRetry _ _
  | .pktShort _ _ _ _ _ => opPkt
  | .varint1B _ | .varint2B _ | .varint4B _ | .varint8B _ => opVdec
  | .framePadding | .framePing | .frameAck _ | .frameResetStream | .frameStopSending | .frameCrypto
  | .frameNewToken | .frameStream _ _ _ | .frameMaxData | .frameMaxStreamData | .frameMaxStreams _
  | .frameDataBlocked | .frameStreamDataBlocked | .frameStreamsBlocked _ | .frameNewConnectionId
  | .frameRetireConnectionId | .framePathChallenge | .framePathResponse | .frameConnectionClose _
  | .frameHandshakeDone | .frameDatagram _ => opFrm

/-! ## One word of the opcode table -/

/-- An instruction or none. -/
def instrOf : Except DecodeError Instr → Option Instr
  | .ok i => some i
  | .error _ => none

/-- The byte `k` of a word whose first byte is its least significant. -/
def wordByte (w k : Nat) : Byte := BitVec.ofNat 8 (w / 256 ^ k)

/-- The space a table word of `nbits` bits is read in. The table does not say it and the four spaces overlap
(0x00 is NOP, PKT.SHORT, VARINT.1B and FRAME.PADDING), so a fixed order decides: one byte is a command if it
has that opcode, else a frame tag if admitted, else a VarInt first byte if its class is 11, else a packet
first byte of a nonzero version; more than one byte (a wire element with bytes after the first) is a frame if
its first byte is an admitted tag, else a VarInt. DESIGN CHOICE (safe: only the host's table query uses it,
assumption 17). -/
def tableSpace (nbits w : Nat) : Space :=
  let b := wordByte w 0
  if nbits ≤ 8 then
    if (instrOf (decodeCommand b)).isSome then .command
    else if admitted true b then .frame true
    else if varIntClass b = 3 then .varint
    else .packet false
  else if admitted true b then .frame true
  else .varint

/-- The instruction the decoder reads from a word of the opcode table. -/
def decodeTableWord (nbits w : Nat) : Option Instr :=
  instrOf (decode (tableSpace nbits w) (wordByte w 0))

end Sys2Proof
end

