-- ==== Sys2Proof/Machine/State.lean ====
section
/-! DEFINITION. The state of one instance (10_state.md), as plain data, with the host's coming moves beside it,
and the state right after reset. -/

namespace Sys2Proof.Machine

/-! ## Values the block reports -/

/-- A descriptor `(off, len)` naming `IN[off .. off+len-1]` (10_state.md R43, 20_memory.md R63). -/
structure Slice where
  off : Nat
  len : Nat
  deriving DecidableEq, Repr

/-- A decoded header (10_state.md R43). -/
inductive Header where
  | long (flags : Byte) (version : U32) (dcid scid : Slice)
  | short (flags : Byte) (dcid : Slice)
  deriving DecidableEq, Repr

/-- What the Length field frames (42_packet.md R167): the field itself, the packet number and its width in
bytes, and the payload. -/
structure Framed where
  length : U62
  pn : U32
  pnLen : Nat
  payload : Slice
  deriving DecidableEq, Repr

/-- A decoded packet (10_state.md R43). -/
inductive Packet where
  | versionNegotiation (hdr : Header) (versions : List U32)
  | initial (hdr : Header) (token : Option Slice) (body : Framed)
  | zeroRtt (hdr : Header) (body : Framed)
  | handshake (hdr : Header) (body : Framed)
  | retry (hdr : Header) (token : Slice)
  | short (hdr : Header) (pnLen : Nat) (pn : U32) (payload : Slice)
  deriving DecidableEq, Repr

/-- The three ECN counts of an ACK frame (44_frames.md R213). -/
structure EcnCounts where
  ect0 : U62
  ect1 : U62
  ce : U62
  deriving DecidableEq, Repr

/-- A decoded frame (43_frame_dispatch.md R194). -/
inductive Frame where
  | padding
  | ping
  | handshakeDone
  | ack (largest ackDelay firstRange : U62) (ranges : List (U62 × U62)) (ecn : Option EcnCounts)
  | resetStream (streamId errorCode finalSize : U62)
  | stopSending (streamId errorCode : U62)
  | crypto (offset : U62) (data : Slice)
  | newToken (token : Slice)
  | stream (streamId : U62) (offset : Option U62) (lenPresent fin : Bool) (data : Slice)
  | maxData (maximumData : U62)
  | maxStreamData (streamId maximumStreamData : U62)
  | maxStreams (uni : Bool) (maximumStreams : U62)
  | dataBlocked (maximumData : U62)
  | streamDataBlocked (streamId maximumStreamData : U62)
  | streamsBlocked (uni : Bool) (maximumStreams : U62)
  | newConnectionId (sequenceNumber retirePriorTo : U62) (cid resetToken : Slice)
  | retireConnectionId (sequenceNumber : U62)
  | pathChallenge (data : Word) (raw : Slice)
  | pathResponse (data : Word) (raw : Slice)
  | connectionClose (app : Bool) (errorCode : U62) (frameType : Option U62) (reason : Option Slice)
  | datagram (lenPresent : Bool) (data : Slice)
  deriving DecidableEq, Repr

/-- A record of `EVQ` (10_state.md R43): where the packet or frame starts, one past where it ends, and what
it is. -/
inductive Event where
  | pkt (start fin : Nat) (packet : Packet)
  | frm (start fin : Nat) (frame : Frame)
  deriving DecidableEq, Repr

/-! ## Register groups (10_state.md R23) -/

/-- `VI_VALUE`, `VI_LEN`, `VI_BYTES`: VALID bits 0, 1, 2 (10_state.md R30). -/
structure VarIntRegs where
  value : Word
  len : Word
  bytes : Word
  deriving DecidableEq, Repr

/-- The header registers 0x10..0x17 and the accessors 0x18..0x1D: VALID bit 4 (10_state.md R32, R33). -/
structure HeaderRegs where
  form : Word
  flags : Word
  version : Word
  dcidOff : Word
  dcidLen : Word
  scidOff : Word
  scidLen : Word
  start : Word
  aPktType : Word
  aPnLen : Word
  aIsVn : Word
  aSpin : Word
  aKeyPhase : Word
  aFixed : Word
  deriving DecidableEq, Repr

/-- The packet registers 0x20..0x24 and 0x27..0x2C: VALID bit 6 (10_state.md R34). -/
structure PacketRegs where
  kind : Word
  tokenPresent : Word
  tokenOff : Word
  tokenLen : Word
  length : Word
  payOff : Word
  payEnd : Word
  vnOff : Word
  vnCount : Word
  start : Word
  fin : Word
  deriving DecidableEq, Repr

/-- `PN` and `PN_NBYTES`: VALID bit 5 (10_state.md R35). -/
structure PnRegs where
  pn : Word
  nbytes : Word
  deriving DecidableEq, Repr

/-- `F0..F9` (43_frame_dispatch.md R193): a register a kind does not use is 0. -/
structure FieldRegs where
  f0 : Word := 0
  f1 : Word := 0
  f2 : Word := 0
  f3 : Word := 0
  f4 : Word := 0
  f5 : Word := 0
  f6 : Word := 0
  f7 : Word := 0
  f8 : Word := 0
  f9 : Word := 0
  deriving DecidableEq, Repr

/-- The frame registers 0x30..0x3D: VALID bit 7 (10_state.md R36). -/
structure FrameRegs where
  kind : Word
  tag : Word
  start : Word
  fin : Word
  fields : FieldRegs
  deriving DecidableEq, Repr

/-! ## The host -/

/-- A move of the host (70_reset_and_hazards.md R300, 30_encoding.md R94). -/
inductive HostMove where
  /-- `LOAD a, bytes`: write bytes into `IN` from offset `a` and set their written marks. -/
  | load (a : Nat) (bytes : List Byte)
  /-- `WR reg, v`; a write of register 0x00 (`CMD`) starts a command. -/
  | write (reg : BitVec 6) (v : Word)
  /-- `RD reg`. -/
  | read (reg : BitVec 6)
  /-- `POP`. -/
  | pop
  /-- Read `IN` through the `k`-th descriptor reported so far (70_reset_and_hazards.md R293). -/
  | deref (k : Nat)
  /-- Reset the block (70_reset_and_hazards.md R290). -/
  | reset
  deriving DecidableEq, Repr

/-- What the host has been given back by a move: the value of a register, a popped record, the bytes a
descriptor names. -/
inductive Seen where
  | reg (reg : BitVec 6) (v : Word)
  | record (e : Event)
  | bytes (d : Slice) (bs : List Byte)
  deriving DecidableEq, Repr

/-- A descriptor reported to the host, and whether the host has since written a byte it names
(93_implementation_defined.md U2). -/
structure Descriptor where
  slice : Slice
  stale : Bool
  deriving DecidableEq, Repr

/-! ## State -/

/-- The written bytes of `IN` (10_state.md R40, R41), strictly rising by address: an address is listed
exactly if its written mark is set, and an unlisted address reads as no value. -/
abbrev Memory := List Host.Cell

/-- One instance (10_state.md R21), its parameters, and the host's side of the run. -/
structure State where
  /-- The parameters of 00_scope.md R6; no step changes them (assumption 1). -/
  params : Params
  /-- `CMD` 0x00. -/
  cmd : Word
  /-- `STATUS` 0x01: CODE bits 3:0, OP bits 15:8 (10_state.md R25). -/
  status : Word
  /-- `CTRL` 0x02: ENFORCE_FIXED_BIT bit 0, SHORT_DCID_LEN bits 12:8 (10_state.md R24). -/
  ctrl : Word
  /-- `CUR` 0x03, the packet cursor (10_state.md R26). -/
  cur : Word
  /-- `LIMIT` 0x04, the packet framing unit's end (10_state.md R26). -/
  limit : Word
  /-- `FCUR` 0x05, the frame cursor (10_state.md R27). -/
  fcur : Word
  /-- `FEND` 0x06, the frame framing unit's end (10_state.md R27). -/
  fend : Word
  /-- `ARG` 0x07 (10_state.md R28). -/
  arg : Word
  /-- `VALID` 0x08 (10_state.md R29). -/
  valid : Word
  /-- 0x09..0x0B (10_state.md R30). -/
  vi : VarIntRegs
  /-- `FORM_PEEK` 0x0C (10_state.md R31). -/
  formPeek : Word
  /-- `ERR_AT` 0x0D (60_exceptions.md R261). -/
  errAt : Word
  /-- 0x10..0x1D (10_state.md R32, R33). -/
  hdr : HeaderRegs
  /-- 0x20..0x24, 0x27..0x2C (10_state.md R34). -/
  pkt : PacketRegs
  /-- 0x25, 0x26 (10_state.md R35). -/
  pn : PnRegs
  /-- 0x30..0x3D (10_state.md R36). -/
  frm : FrameRegs
  /-- `IN` with its written marks (10_state.md R40, R41). -/
  mem : Memory
  /-- `EVQ`, oldest record first (10_state.md R42). -/
  evq : List Event
  /-- The opcode the engine has been given and has not run: it runs next, or is held while `EVQ` is full
  (10_state.md R20, R44). -/
  pending : Option Byte
  /-- The host's coming moves, oldest first (70_reset_and_hazards.md R301). -/
  host : List HostMove
  /-- What the host has seen, oldest first (70_reset_and_hazards.md R301). -/
  seen : List Seen
  /-- The descriptors reported so far, oldest first (70_reset_and_hazards.md R293). -/
  descs : List Descriptor
  /-- How many commands the host has given: the plain counter that `Config.freeErrAt` is applied to. -/
  freeCount : Nat
  deriving DecidableEq, Repr

/-- The state right after reset (10_state.md R46, 70_reset_and_hazards.md R290, R291): every register 0 but
`STATUS`, which is IDLE; no byte of `IN` written; `EVQ` empty; no command given; and no host move yet. -/
def State.reset : State :=
  { params := Params.default
    cmd := 0
    status := 0xF
    ctrl := 0
    cur := 0
    limit := 0
    fcur := 0
    fend := 0
    arg := 0
    valid := 0
    vi := { value := 0, len := 0, bytes := 0 }
    formPeek := 0
    errAt := 0
    hdr := { form := 0, flags := 0, version := 0, dcidOff := 0, dcidLen := 0, scidOff := 0, scidLen := 0,
             start := 0, aPktType := 0, aPnLen := 0, aIsVn := 0, aSpin := 0, aKeyPhase := 0, aFixed := 0 }
    pkt := { kind := 0, tokenPresent := 0, tokenOff := 0, tokenLen := 0, length := 0, payOff := 0,
             payEnd := 0, vnOff := 0, vnCount := 0, start := 0, fin := 0 }
    pn := { pn := 0, nbytes := 0 }
    frm := { kind := 0, tag := 0, start := 0, fin := 0, fields := {} }
    mem := []
    evq := []
    pending := none
    host := []
    seen := []
    descs := []
    freeCount := 0 }

/-! ## Why a step stops -/

/-- Why the machine stops. None is raised by an instruction whose reads touch only written bytes. -/
inductive Fault where
  /-- A command, or a read through a descriptor, reads the byte of `IN` at `a`, which the host has not
  written since reset (10_state.md R41, 93_implementation_defined.md U1). Safe: the hardware goes on with an
  unspecified value. -/
  | unwrittenInput (a : Nat)
  /-- The host writes `IN` at `a`, outside `0 .. MAX_IN_LEN - 1` (20_memory.md R67). Safe. -/
  | noSuchInput (a : Nat)
  /-- The host reads a result register whose VALID bit is 0. The spec states this fault: "A Lean model should make
  its read a fault, never a value" (10_state.md R29; 93_implementation_defined.md U3). Raised by the host's read alone,
  by no instruction. Safe. -/
  | invalidResult (reg : BitVec 6)
  /-- The host reads through a descriptor after writing a byte it names (70_reset_and_hazards.md R293, U2).
  Safe: the hardware returns the new bytes. -/
  | staleDescriptor (k : Nat)
  deriving DecidableEq, Repr

/-- Why a step has no meaning. -/
inductive Refusal where
  /-- An instruction that has no meaning yet, by its mnemonic; raised by exec alone. Safe. -/
  | notModelled (mnemonic : String)
  /-- The host pops an empty `EVQ`: it has no such move (70_reset_and_hazards.md R300, U10). Safe. -/
  | popEmptyQueue
  /-- The host makes a move other than a pop or a reset while a command is held: it has no such move
  (70_reset_and_hazards.md R300, U11). Safe. -/
  | hostMoveDuringCommand
  /-- The host reads through a descriptor that was never reported: it has no such move. Safe. -/
  | noSuchDescriptor (k : Nat)
  deriving DecidableEq, Repr

/-- The three failures a command can raise (60_exceptions.md R260). -/
inductive Err where
  | truncated
  | outOfRange
  | malformedTag
  deriving DecidableEq, Repr

/-- Why a command's pseudocode ends early: it raises a failure at an offset (00_scope.md R9), or it reads a
byte that has no value. -/
inductive Stop where
  | raise (e : Err) (offset : Nat)
  | fault (f : Fault)
  deriving DecidableEq, Repr

/-- The outcome of an instruction or a step. -/
abbrev Result := Host.Outcome State Fault Refusal

end Sys2Proof.Machine
end

