-- ==== Sys2Proof/Machine/Flags.lean ====
section
/-! DEFINITION. Every flag computation of the spec: `STATUS` words, `VALID` bits and `Clears`, the `CTRL`
fields, and the header's flag accessors. -/

namespace Sys2Proof.Machine

/-! ## Narrowing to registers (00_scope.md R8, 30_encoding.md R91) -/

/-- An offset, length or count in a register. -/
def w64 (n : Nat) : Word := BitVec.ofNat 64 n

/-- `zext_64` of a VarInt value. -/
def zext62 (v : U62) : Word := v.setWidth 64

/-- `zext_64` of a 32-bit value. -/
def zext32 (v : U32) : Word := v.setWidth 64

/-- `zext_64` of a byte. -/
def zext8 (b : Byte) : Word := b.setWidth 64

/-- A Boolean in a register. -/
def flagWord (b : Bool) : Word := if b then 1 else 0

/-! ## STATUS (10_state.md R25) -/

/-- The values of `STATUS.CODE`. -/
inductive Code where
  | ok | truncated | outOfRange | malformedTag | endOfWindow | badCommand | idle
  deriving DecidableEq, Repr

/-- The number of a code (10_state.md R25). -/
def codeNumber : Code → BitVec 8
  | .ok => 0
  | .truncated => 1
  | .outOfRange => 2
  | .malformedTag => 3
  | .endOfWindow => 4
  | .badCommand => 5
  | .idle => 0xF

/-- The code of a failure (60_exceptions.md R260). -/
def errCode : Err → Code
  | .truncated => .truncated
  | .outOfRange => .outOfRange
  | .malformedTag => .malformedTag

/-- A `STATUS` word: CODE in bits 3:0, OP in bits 15:8, the rest 0. -/
def statusWord (code : Code) (op : Byte) : Word :=
  (op ++ codeNumber code : BitVec 16).setWidth 64

/-- `STATUS.CODE`. -/
def statusCode (status : Word) : BitVec 4 := status.extractLsb' 0 4

/-- `STATUS.OP`. -/
def statusOp (status : Word) : Byte := status.extractLsb' 8 8

/-- Whether `ERR_AT` has meaning: CODE is 1, 2 or 3 (60_exceptions.md R261). -/
def errAtMeaningful (status : Word) : Bool :=
  statusCode status == 1 || statusCode status == 2 || statusCode status == 3

/-! ## VALID (10_state.md R29) -/

/-- The VALID bits of the groups, as masks. -/
def vViValue : Word := 0x01
def vViLen : Word := 0x02
def vViBytes : Word := 0x04
def vFormPeek : Word := 0x08
def vHeader : Word := 0x10
def vPn : Word := 0x20
def vPacket : Word := 0x40
def vFrame : Word := 0x80

/-- Set and clear VALID bits. -/
def setValid (valid sets clears : Word) : Word := (valid &&& ~~~clears) ||| sets

/-- VALID bit `g`. -/
def validBit (valid : Word) (g : Nat) : Bool := valid.getLsbD g

/-- `Clears(op)` (60_exceptions.md R262), as a mask: the groups a failing command clears. -/
def clearsOf (op : Byte) : Word :=
  if op = opVdec ∨ op = opVenc ∨ op = opVsize then vViValue ||| vViLen ||| vViBytes
  else if op = opPeek then vFormPeek
  else if op = opHdrl ∨ op = opHdrs then vHeader ||| vPn ||| vPacket
  else if op = opPndec then vPn ||| vPacket
  else if op = opPkt then vHeader ||| vPn ||| vPacket ||| vFrame
  else if op = opFrm then vFrame
  else 0

/-! ## CTRL (10_state.md R24) -/

/-- The bits of `CTRL` that a write stores: bit 0 and bits 12:8. -/
def ctrlMask : Word := 0x1F01

/-- `CTRL.ENFORCE_FIXED_BIT`. -/
def enforceFixedBit (ctrl : Word) : Bool := ctrl.getLsbD 0

/-- `CTRL.SHORT_DCID_LEN`. -/
def shortDcidLen (ctrl : Word) : Nat := (ctrl.extractLsb' 8 5).toNat

/-! ## The header's flag accessors (10_state.md R33, 41_header.md R140..R145) -/

/-- An accessor register: bit 8 is APPLICABLE, bits 7:0 the value. -/
def accessor (applicable : Bool) (value : Byte) : Word :=
  if applicable then 0x100 ||| zext8 value else 0

/-- Whether a header is long. -/
def Header.isLong : Header → Bool
  | .long _ _ _ _ => true
  | .short _ _ => false

/-- The first byte of a header. -/
def Header.flags : Header → Byte
  | .long flags _ _ _ => flags
  | .short flags _ => flags

/-- The version of a long header; 0 for a short one (41_header.md R137). -/
def Header.version : Header → U32
  | .long _ version _ _ => version
  | .short _ _ => 0

/-- The destination connection ID. -/
def Header.dcid : Header → Slice
  | .long _ _ dcid _ => dcid
  | .short _ dcid => dcid

/-- The source connection ID of a long header; `(0, 0)` for a short one (41_header.md R137). -/
def Header.scid : Header → Slice
  | .long _ _ _ scid => scid
  | .short _ _ => ⟨0, 0⟩

/-- `A_PKT_TYPE` (41_header.md R140). -/
def aPktType (h : Header) : Word := accessor h.isLong ((longType h.flags).setWidth 8)

/-- `A_PN_LEN` (41_header.md R141): flags bits 1:0, plus 1. -/
def aPnLen (h : Header) : Word := accessor true ((pnlBits h.flags).setWidth 8 + 1)

/-- `A_IS_VN` (41_header.md R142). -/
def aIsVn (h : Header) : Word := accessor h.isLong (if h.version = 0 then 1 else 0)

/-- `A_SPIN` (41_header.md R143). -/
def aSpin (h : Header) : Word := accessor (!h.isLong) (if spinBit h.flags then 1 else 0)

/-- `A_KEY_PHASE` (41_header.md R144). -/
def aKeyPhase (h : Header) : Word := accessor (!h.isLong) (if keyPhaseBit h.flags then 1 else 0)

/-- `A_FIXED` (41_header.md R145). -/
def aFixed (h : Header) : Word := accessor true (if fixedBit h.flags then 1 else 0)

/-- The header registers a header is written as (41_header.md R137). -/
def headerRegs (h : Header) (start : Nat) : HeaderRegs :=
  { form := flagWord h.isLong
    flags := zext8 h.flags
    version := zext32 h.version
    dcidOff := w64 h.dcid.off
    dcidLen := w64 h.dcid.len
    scidOff := w64 h.scid.off
    scidLen := w64 h.scid.len
    start := w64 start
    aPktType := aPktType h
    aPnLen := aPnLen h
    aIsVn := aIsVn h
    aSpin := aSpin h
    aKeyPhase := aKeyPhase h
    aFixed := aFixed h }

/-- The packet-number width a first byte declares: bits 1:0, plus 1 (30_encoding.md R91). -/
def declaredPnLen (pnl : BitVec 2) : Nat := pnl.toNat + 1

/-! ## Kind numbers -/

/-- `PKT_KIND` (10_state.md R34, 42_packet.md R166). -/
def packetKindNumber : PacketKind → Nat
  | .versionNegotiation => 0
  | .initial => 1
  | .zeroRtt => 2
  | .handshake => 3
  | .retry => 4
  | .short => 5

/-- `FR_KIND` (43_frame_dispatch.md R192). -/
def frameKindNumber : FrameKind → Nat
  | .padding => 0
  | .ping => 1
  | .ack => 2
  | .resetStream => 3
  | .stopSending => 4
  | .crypto => 5
  | .newToken => 6
  | .stream => 7
  | .maxData => 8
  | .maxStreamData => 9
  | .maxStreams => 10
  | .dataBlocked => 11
  | .streamDataBlocked => 12
  | .streamsBlocked => 13
  | .newConnectionId => 14
  | .retireConnectionId => 15
  | .pathChallenge => 16
  | .pathResponse => 17
  | .connectionClose => 18
  | .handshakeDone => 19
  | .datagram => 20

end Sys2Proof.Machine
end

