-- ==== Sys2Proof/Machine/Ops.lean ====
section
/-! DEFINITION. The named operations over `IN`, the registers and `EVQ`; the local reader primitives; and the
command framework: how a command starts, fails and completes. -/

namespace Sys2Proof.Machine

/-! ## IN (10_state.md R40, R41) -/

/-- The byte at `a`, or no value if its written mark is clear (10_state.md R41). -/
def Memory.read : Memory → Nat → Option Byte
  | [], _ => none
  | (k, b) :: rest, a => if a = k then some b else Memory.read rest a

/-- Write the byte at `a` and set its written mark, keeping the list strictly rising. -/
def Memory.write : Memory → Nat → Byte → Memory
  | [], a, b => [(a, b)]
  | (k, v) :: rest, a, b =>
    if a < k then (a, b) :: (k, v) :: rest
    else if a = k then (a, b) :: rest
    else (k, v) :: Memory.write rest a b

/-- Write bytes from `a` upwards, the first at `a`. -/
def Memory.writeAll : Memory → Nat → List Byte → Memory
  | m, _, [] => m
  | m, a, b :: bs => Memory.writeAll (Memory.write m a b) (a + 1) bs

/-- The `n` bytes from `a` upwards, or the first address that has no value. -/
def Memory.readAll (m : Memory) (a : Nat) : Nat → Except Nat (List Byte)
  | 0 => .ok []
  | n + 1 =>
    match Memory.read m a with
    | none => .error a
    | some b =>
      match Memory.readAll m (a + 1) n with
      | .ok bs => .ok (b :: bs)
      | .error e => .error e

/-- The canonical form: addresses strictly rising. (An unlisted address reads as no value, so no entry can
equal what an unlisted address reads as.) -/
def Memory.wf : Memory → Bool
  | [] => true
  | [_] => true
  | (a, _) :: (b, y) :: rest => decide (a < b) && Memory.wf ((b, y) :: rest)

/-- Every listed address is below `n`. -/
def Memory.below (n : Nat) (m : Memory) : Bool := m.all fun c => decide (c.1 < n)

/-! ## Local reader primitives (00_scope.md R9, R10) -/

/-- What a running command reads through: `IN`, and the local limit `lim`. -/
structure Window where
  mem : Memory
  lim : Nat

/-- Raise a failure at an offset (00_scope.md R9). -/
def raise {α : Type} (e : Err) (offset : Nat) : Except Stop α := .error (.raise e offset)

/-- `Need(n)`: TRUNCATED at the cursor if `n` bytes do not fit before the limit. -/
def need (w : Window) (c n : Nat) : Except Stop Unit :=
  if w.lim < c + n then raise .truncated c else .ok ()

/-- One byte of `IN`; a byte that was not written has no value and the machine faults (10_state.md R41). -/
def memByte (w : Window) (a : Nat) : Except Stop Byte :=
  match w.mem.read a with
  | some b => .ok b
  | none => .error (.fault (.unwrittenInput a))

/-- `MemRead(a, n)`: the big-endian value of `n` bytes (00_scope.md R8, R9; 20_memory.md R60). -/
def memRead (w : Window) (a : Nat) : Nat → Except Stop Nat
  | 0 => .ok 0
  | n + 1 => do
    let high ← memRead w a n
    let b ← memByte w (a + n)
    .ok (high * 256 + b.toNat)

/-- `PeekByte()`: the byte at the cursor, not consumed. -/
def peekByte (w : Window) (c : Nat) : Except Stop Byte := do
  need w c 1
  memByte w c

/-- `ReadByte()`. -/
def readByte (w : Window) (c : Nat) : Except Stop (Byte × Nat) := do
  need w c 1
  let b ← memByte w c
  .ok (b, c + 1)

/-- `ReadN(n)`. -/
def readN (w : Window) (c n : Nat) : Except Stop (Nat × Nat) := do
  need w c n
  let v ← memRead w c n
  .ok (v, c + n)

/-- `ReadSlice(n)`: a descriptor of the next `n` bytes; it reads none of them. -/
def readSlice (w : Window) (c n : Nat) : Except Stop (Slice × Nat) := do
  need w c n
  .ok (⟨c, n⟩, c + n)

/-- `Rest()`: a descriptor of the bytes up to the limit, and the limit. -/
def restSlice (w : Window) (c : Nat) : Slice × Nat := (⟨c, w.lim - c⟩, w.lim)

/-! ## The command framework (60_exceptions.md R262, R263) -/

/-- `BeginPacket()`: the window `[CUR, LIMIT)`, or OUT_OF_RANGE at `CUR`. -/
def beginPacket (s : State) : Except Stop (Window × Nat) :=
  if s.cur.toNat ≤ s.limit.toNat ∧ s.limit.toNat ≤ s.params.maxInLen then
    .ok (⟨s.mem, s.limit.toNat⟩, s.cur.toNat)
  else raise .outOfRange s.cur.toNat

/-- `BeginFrame()`: the window `[FCUR, FEND)`, or OUT_OF_RANGE at `FCUR`. -/
def beginFrame (s : State) : Except Stop (Window × Nat) :=
  if s.fcur.toNat ≤ s.fend.toNat ∧ s.fend.toNat ≤ s.params.maxInLen then
    .ok (⟨s.mem, s.fend.toNat⟩, s.fcur.toNat)
  else raise .outOfRange s.fcur.toNat

/-- `Abort(op, E, at)` (60_exceptions.md R262): the block's exception entry. The groups the command would have
written lose their VALID bits, `STATUS` and `ERR_AT` record the failure, and nothing else changes. -/
def abort (op : Byte) (e : Err) (offset : Nat) (s : State) : State :=
  { s with
    valid := setValid s.valid 0 (clearsOf op)
    status := statusWord (errCode e) op
    errAt := w64 offset }

/-- Run a command (60_exceptions.md R263): its buffered writes and `STATUS` OK if its pseudocode completes, the
abort if it raised, a fault if it read a byte that has no value. -/
def runCommand (op : Byte) (s : State) (body : Except Stop State) : Result :=
  match body with
  | .ok t => .next { t with status := statusWord .ok op }
  | .error (.raise e offset) => .next (abort op e offset s)
  | .error (.fault f) => .fault f

/-- A write of `CMD` with an unassigned opcode: BAD_COMMAND and nothing else (30_encoding.md R82). -/
def badCommand (op : Byte) (s : State) : State :=
  { s with status := statusWord .badCommand op }

/-! ## EVQ and descriptors -/

/-- `Emit(rec)` (00_scope.md R9, 10_state.md R42). -/
def emit (e : Event) (s : State) : State := { s with evq := s.evq ++ [e] }

/-- Whether `EVQ` holds `EVQ_DEPTH` records (10_state.md R44). -/
def evqFull (s : State) : Bool :=
  match s.params.evqDepth with
  | none => false
  | some d => decide (d ≤ s.evq.length)

/-- The commands that append a record: PKT and FRM (70_reset_and_hazards.md R297). -/
def appends (op : Byte) : Bool := op == opPkt || op == opFrm

/-- Whether a command does not start because `EVQ` is full (10_state.md R44). DEDUCED: R297 names PKT and FRM
whatever their outcome would be (unsafe, assumption 5). -/
def holds (op : Byte) (s : State) : Bool := appends op && evqFull s

/-- Report descriptors to the host: none of them is stale yet (70_reset_and_hazards.md R293). -/
def report (ds : List Slice) (s : State) : State :=
  { s with descs := s.descs ++ ds.map fun d => ⟨d, false⟩ }

/-- Whether a descriptor names a byte of `[a, a + n)`: a descriptor of no bytes names none, and a write of no bytes
meets none. -/
def overlaps (d : Slice) (a n : Nat) : Bool :=
  decide (max d.off a < min (d.off + d.len) (a + n))

/-- Mark the descriptors that name a byte of `[a, a + n)` stale (93_implementation_defined.md U2). -/
def markStale (a n : Nat) (ds : List Descriptor) : List Descriptor :=
  ds.map fun d => if overlaps d.slice a n then { d with stale := true } else d

/-- The state a reset of the block leaves (70_reset_and_hazards.md R290): every piece of block state at its
reset value. The parameters and the host's side of the run are not block state and stay (assumption 21). -/
def resetBlock (s : State) : State :=
  { State.reset with
    params := s.params
    host := s.host
    seen := s.seen
    descs := s.descs
    freeCount := s.freeCount }

end Sys2Proof.Machine
end

