-- ==== Sys2Proof/Machine/Operands.lean ====
section
/-! DEFINITION. Every operand form: the register file by number, the VarInt, the connection ID, the packet-number
field, and the long and short headers. -/

namespace Sys2Proof.Machine

/-! ## The register file (10_state.md R23) -/

/-- What register `r` holds; an unlisted number reads 0. -/
def regValue (r : BitVec 6) (s : State) : Word :=
  match r.toNat with
  | 0x00 => s.cmd
  | 0x01 => s.status
  | 0x02 => s.ctrl
  | 0x03 => s.cur
  | 0x04 => s.limit
  | 0x05 => s.fcur
  | 0x06 => s.fend
  | 0x07 => s.arg
  | 0x08 => s.valid
  | 0x09 => s.vi.value
  | 0x0A => s.vi.len
  | 0x0B => s.vi.bytes
  | 0x0C => s.formPeek
  | 0x0D => s.errAt
  | 0x10 => s.hdr.form
  | 0x11 => s.hdr.flags
  | 0x12 => s.hdr.version
  | 0x13 => s.hdr.dcidOff
  | 0x14 => s.hdr.dcidLen
  | 0x15 => s.hdr.scidOff
  | 0x16 => s.hdr.scidLen
  | 0x17 => s.hdr.start
  | 0x18 => s.hdr.aPktType
  | 0x19 => s.hdr.aPnLen
  | 0x1A => s.hdr.aIsVn
  | 0x1B => s.hdr.aSpin
  | 0x1C => s.hdr.aKeyPhase
  | 0x1D => s.hdr.aFixed
  | 0x20 => s.pkt.kind
  | 0x21 => s.pkt.tokenPresent
  | 0x22 => s.pkt.tokenOff
  | 0x23 => s.pkt.tokenLen
  | 0x24 => s.pkt.length
  | 0x25 => s.pn.pn
  | 0x26 => s.pn.nbytes
  | 0x27 => s.pkt.payOff
  | 0x28 => s.pkt.payEnd
  | 0x29 => s.pkt.vnOff
  | 0x2A => s.pkt.vnCount
  | 0x2B => s.pkt.start
  | 0x2C => s.pkt.fin
  | 0x30 => s.frm.kind
  | 0x31 => s.frm.tag
  | 0x32 => s.frm.start
  | 0x33 => s.frm.fin
  | 0x34 => s.frm.fields.f0
  | 0x35 => s.frm.fields.f1
  | 0x36 => s.frm.fields.f2
  | 0x37 => s.frm.fields.f3
  | 0x38 => s.frm.fields.f4
  | 0x39 => s.frm.fields.f5
  | 0x3A => s.frm.fields.f6
  | 0x3B => s.frm.fields.f7
  | 0x3C => s.frm.fields.f8
  | 0x3D => s.frm.fields.f9
  | _ => 0

/-- The VALID bit of register `r`'s group, if it is a result register (10_state.md R23, R29). -/
def regGroup (r : BitVec 6) : Option Nat :=
  let n := r.toNat
  if n = 0x09 then some 0
  else if n = 0x0A then some 1
  else if n = 0x0B then some 2
  else if n = 0x0C then some 3
  else if 0x10 ≤ n ∧ n ≤ 0x1D then some 4
  else if n = 0x25 ∨ n = 0x26 then some 5
  else if 0x20 ≤ n ∧ n ≤ 0x2C then some 6
  else if 0x30 ≤ n ∧ n ≤ 0x3D then some 7
  else none

/-- Whether register `r` holds a value: it is no result register, or its group's VALID bit is 1 (R29). -/
def regHasValue (r : BitVec 6) (s : State) : Bool :=
  match regGroup r with
  | none => true
  | some g => validBit s.valid g

/-- What a host read of register `r` gives (20_memory.md R66): what the register holds, but a free value for an `ERR_AT`
without meaning (93_implementation_defined.md U5, assumption 10). -/
def readValue (r : BitVec 6) (s : State) : Word :=
  if r.toNat = 0x0D ∧ errAtMeaningful s.status = false then Config.freeErrAt s.freeCount s.errAt
  else regValue r s

/-- A host write of register `r` (10_state.md R23, R24; 20_memory.md R66): `CMD` gives the engine the opcode in its
low byte, and counts one command more (assumption 10); `CTRL` stores its defined bits, the other host-writable
registers store the value, and a write of any other register is ignored. -/
def writeReg (r : BitVec 6) (v : Word) (s : State) : State :=
  match r.toNat with
  | 0x00 => { s with cmd := v, pending := some (opcodeOf v), freeCount := s.freeCount + 1 }
  | 0x02 => { s with ctrl := v &&& ctrlMask }
  | 0x03 => { s with cur := v }
  | 0x04 => { s with limit := v }
  | 0x05 => { s with fcur := v }
  | 0x06 => { s with fend := v }
  | 0x07 => { s with arg := v }
  | _ => s

/-! ## VarInt (40_varint.md R111, R113) -/

/-- The bytes of a VarInt after its first, `k` of them, accumulated onto `v`. -/
def varIntMore (w : Window) : Nat → Nat → Nat → Except Stop (Nat × Nat)
  | 0, v, c => .ok (v, c)
  | k + 1, v, c => do
    let (b, c) ← readByte w c
    varIntMore w k (v * 256 + b.toNat) c

/-- The length of a VarInt class in bytes: `1 << class`. -/
def varIntLen (cls : BitVec 2) : Nat := 2 ^ cls.toNat

/-- A VarInt after its first byte: its value and its length. -/
def varIntTail (w : Window) (cls : BitVec 2) (high : BitVec 6) (c : Nat) : Except Stop ((U62 × Nat) × Nat) := do
  let (v, c) ← varIntMore w (varIntLen cls - 1) high.toNat c
  .ok ((BitVec.ofNat 62 v, varIntLen cls), c)

/-- `ReadVarInt()` (40_varint.md R111). -/
def readVarInt (w : Window) (c : Nat) : Except Stop ((U62 × Nat) × Nat) := do
  let (b, c) ← readByte w c
  varIntTail w (varIntClass b) (varIntHigh b) c

/-- `VI()`: a VarInt's value (44_frames.md R210). -/
def readVi (w : Window) (c : Nat) : Except Stop (U62 × Nat) := do
  let ((v, _), c) ← readVarInt w c
  .ok (v, c)

/-- `EncodedSize(v)` (40_varint.md R113). -/
def encodedSize (v : Nat) : Nat :=
  if v < 2 ^ 6 then 1 else if v < 2 ^ 14 then 2 else if v < 2 ^ 30 then 4 else 8

/-- The class of an encoded length: its base-2 logarithm (40_varint.md R113). -/
def sizeClass (n : Nat) : Nat :=
  if n = 1 then 0 else if n = 2 then 1 else if n = 4 then 2 else 3

/-- The word of `Enc(v)` (40_varint.md R113): the class over the value, right-aligned. -/
def encWord (v : Nat) : Nat :=
  sizeClass (encodedSize v) <<< (8 * encodedSize v - 2) ||| v

/-! ## Connection ID and packet number (41_header.md R132, R146) -/

/-- `ReadCID()`: a length byte, at most `CID_MAX_LEN`, and that many bytes. -/
def readCid (w : Window) (c : Nat) : Except Stop (Slice × Nat) := do
  let (n, c') ← readByte w c
  if cidMaxLen < n.toNat then raise .outOfRange c
  else readSlice w c' n.toNat

/-- `ReadPN(n)`: a big-endian read of `n` bytes, 1 to 4. -/
def readPn (w : Window) (c n : Nat) : Except Stop (U32 × Nat) := do
  let (v, c) ← readN w c n
  .ok (BitVec.ofNat 32 v, c)

/-! ## Headers (41_header.md R133..R137) -/

/-- `FixedBitCheckLong` (41_header.md R134). -/
def fixedBitCheckLong (enforce : Bool) (flags : Byte) (version : U32) (start : Nat) : Except Stop Unit :=
  if enforce && version != 0 && !fixedBit flags then raise .malformedTag start else .ok ()

/-- `FixedBitCheckShort` (41_header.md R135). -/
def fixedBitCheckShort (enforce : Bool) (flags : Byte) (start : Nat) : Except Stop Unit :=
  if enforce && !fixedBit flags then raise .malformedTag start else .ok ()

/-- `DecodeLong()` after the flags byte (41_header.md R133): version, fixed-bit check, connection IDs. -/
def longFields (enforce : Bool) (flags : Byte) (start : Nat) (w : Window) (c : Nat) : Except Stop (Header × Nat) := do
  let (v, c) ← readN w c 4
  let version : U32 := BitVec.ofNat 32 v
  fixedBitCheckLong enforce flags version start
  let (dcid, c) ← readCid w c
  let (scid, c) ← readCid w c
  .ok (.long flags version dcid scid, c)

/-- `DecodeLong()` (41_header.md R133). -/
def decodeLong (enforce : Bool) (w : Window) (c : Nat) : Except Stop (Header × Nat) := do
  let (flags, c') ← readByte w c
  if formBit flags then longFields enforce flags c w c'
  else raise .malformedTag c

/-- `DecodeShort()`'s first check (41_header.md R136): the configured length is at most `CID_MAX_LEN`. -/
def checkShortDcidLen (ctrl : Word) (start : Nat) : Except Stop Unit :=
  if cidMaxLen < shortDcidLen ctrl then raise .outOfRange start else .ok ()

/-- `DecodeShort()` after the flags byte (41_header.md R136): fixed-bit check, connection ID. -/
def shortFields (ctrl : Word) (flags : Byte) (start : Nat) (w : Window) (c : Nat) : Except Stop (Header × Nat) := do
  fixedBitCheckShort (enforceFixedBit ctrl) flags start
  let (dcid, c) ← readSlice w c (shortDcidLen ctrl)
  .ok (.short flags dcid, c)

/-- `DecodeShort()` (41_header.md R136). -/
def decodeShort (ctrl : Word) (w : Window) (c : Nat) : Except Stop (Header × Nat) := do
  checkShortDcidLen ctrl c
  let (flags, c') ← readByte w c
  if formBit flags then raise .malformedTag c
  else shortFields ctrl flags c w c'

/-- The descriptors a header reports. -/
def Header.slices : Header → List Slice
  | .long _ _ dcid scid => [dcid, scid]
  | .short _ dcid => [dcid]

/-- `WriteHeader(h, start)` (41_header.md R137). -/
def writeHeader (h : Header) (start : Nat) (s : State) : State :=
  report h.slices { s with hdr := headerRegs h start, valid := setValid s.valid vHeader 0 }

end Sys2Proof.Machine
end

