-- ==== Sys2Proof/Machine/Frame.lean ====
section
/-! DEFINITION. FRM and the twenty-one frame classes it meets (43_frame_dispatch.md, 44_frames.md). -/

namespace Sys2Proof.Machine

/-! ## Extractors (44_frames.md R210): each starts just past the tag -/

/-- What an extractor yields: the record (43_frame_dispatch.md R194), the registers `F0..F9` (R193), and the
descriptors it reports. -/
structure Extracted where
  frame : Frame
  fields : FieldRegs
  slices : List Slice
  deriving DecidableEq, Repr

/-- A frame without fields: PADDING, PING, HANDSHAKE_DONE (44_frames.md R211, R212, R230). -/
def extractNone (f : Frame) (_ : Window) (c : Nat) : Except Stop (Extracted × Nat) :=
  .ok ({ frame := f, fields := {}, slices := [] }, c)

/-- `k` pairs of Gap and ACK Range Length (44_frames.md R213). -/
def readPairs (w : Window) : Nat → Nat → Except Stop (List (U62 × U62) × Nat)
  | 0, c => .ok ([], c)
  | k + 1, c => do
    let (gap, c) ← readVi w c
    let (len, c) ← readVi w c
    let (rest, c) ← readPairs w k c
    .ok ((gap, len) :: rest, c)

/-- The three ECN counts, present if the tag says so (44_frames.md R213). -/
def readEcn (present : Bool) (w : Window) (c : Nat) : Except Stop (Option EcnCounts × Nat) :=
  if present then do
    let (ect0, c) ← readVi w c
    let (ect1, c) ← readVi w c
    let (ce, c) ← readVi w c
    .ok (some { ect0 := ect0, ect1 := ect1, ce := ce }, c)
  else .ok (none, c)

/-- `F0..F9` of an ACK frame (43_frame_dispatch.md R193). -/
def ackFields (largest delay k first : U62) (rangesOff rangesBytes : Nat) (ecn : Option EcnCounts) :
    FieldRegs :=
  { f0 := zext62 largest
    f1 := zext62 delay
    f2 := zext62 k
    f3 := zext62 first
    f4 := w64 rangesOff
    f5 := w64 rangesBytes
    f6 := flagWord ecn.isSome
    f7 := zext62 (ecn.elim 0 EcnCounts.ect0)
    f8 := zext62 (ecn.elim 0 EcnCounts.ect1)
    f9 := zext62 (ecn.elim 0 EcnCounts.ce) }

/-- ACK (44_frames.md R213). -/
def extractAck (ecn : Bool) (w : Window) (c : Nat) : Except Stop (Extracted × Nat) := do
  let (largest, c) ← readVi w c
  let (delay, c) ← readVi w c
  let (k, c) ← readVi w c
  let (first, rstart) ← readVi w c
  let (ranges, c) ← readPairs w k.toNat rstart
  let rbytes := c - rstart
  let (counts, c) ← readEcn ecn w c
  .ok ({ frame := .ack largest delay first ranges counts
         fields := ackFields largest delay k first rstart rbytes counts
         slices := [⟨rstart, rbytes⟩] }, c)

/-- RESET_STREAM (44_frames.md R214). -/
def extractResetStream (w : Window) (c : Nat) : Except Stop (Extracted × Nat) := do
  let (sid, c) ← readVi w c
  let (err, c) ← readVi w c
  let (finSize, c) ← readVi w c
  .ok ({ frame := .resetStream sid err finSize
         fields := { f0 := zext62 sid, f1 := zext62 err, f2 := zext62 finSize }
         slices := [] }, c)

/-- STOP_SENDING (44_frames.md R215). -/
def extractStopSending (w : Window) (c : Nat) : Except Stop (Extracted × Nat) := do
  let (sid, c) ← readVi w c
  let (err, c) ← readVi w c
  .ok ({ frame := .stopSending sid err, fields := { f0 := zext62 sid, f1 := zext62 err }, slices := [] }, c)

/-- CRYPTO (44_frames.md R216). -/
def extractCrypto (w : Window) (c : Nat) : Except Stop (Extracted × Nat) := do
  let (off, c) ← readVi w c
  let (n, c) ← readVi w c
  let (data, c) ← readSlice w c n.toNat
  .ok ({ frame := .crypto off data
         fields := { f0 := zext62 off, f1 := w64 data.len, f2 := w64 data.off }
         slices := [data] }, c)

/-- NEW_TOKEN (44_frames.md R217). -/
def extractNewToken (w : Window) (c : Nat) : Except Stop (Extracted × Nat) := do
  let (n, c) ← readVi w c
  let (token, c) ← readSlice w c n.toNat
  .ok ({ frame := .newToken token
         fields := { f0 := w64 token.len, f1 := w64 token.off }
         slices := [token] }, c)

/-- A VarInt that is present if a tag bit says so. -/
def readOptional (present : Bool) (w : Window) (c : Nat) : Except Stop (Option U62 × Nat) :=
  if present then do
    let (v, c) ← readVi w c
    .ok (some v, c)
  else .ok (none, c)

/-- Data whose Length field is present if a tag bit says so; without it the data runs to the limit
(44_frames.md R218, R231). -/
def readData (lenPresent : Bool) (w : Window) (c : Nat) : Except Stop (Slice × Nat) :=
  if lenPresent then do
    let (n, c) ← readVi w c
    readSlice w c n.toNat
  else .ok (restSlice w c)

/-- STREAM (44_frames.md R218). -/
def extractStream (off len fin : Bool) (w : Window) (c : Nat) : Except Stop (Extracted × Nat) := do
  let (sid, c) ← readVi w c
  let (offset, c) ← readOptional off w c
  let (data, c) ← readData len w c
  .ok ({ frame := .stream sid offset len fin data
         fields := { f0 := zext62 sid, f1 := flagWord off, f2 := zext62 (offset.getD 0), f3 := flagWord len,
                     f4 := w64 data.len, f5 := w64 data.off, f6 := flagWord fin }
         slices := [data] }, c)

/-- MAX_DATA (44_frames.md R219). -/
def extractMaxData (w : Window) (c : Nat) : Except Stop (Extracted × Nat) := do
  let (max, c) ← readVi w c
  .ok ({ frame := .maxData max, fields := { f0 := zext62 max }, slices := [] }, c)

/-- MAX_STREAM_DATA (44_frames.md R220). -/
def extractMaxStreamData (w : Window) (c : Nat) : Except Stop (Extracted × Nat) := do
  let (sid, c) ← readVi w c
  let (max, c) ← readVi w c
  .ok ({ frame := .maxStreamData sid max, fields := { f0 := zext62 sid, f1 := zext62 max }, slices := [] }, c)

/-- MAX_STREAMS (44_frames.md R221). -/
def extractMaxStreams (uni : Bool) (w : Window) (c : Nat) : Except Stop (Extracted × Nat) := do
  let (max, c) ← readVi w c
  .ok ({ frame := .maxStreams uni max, fields := { f0 := flagWord uni, f1 := zext62 max }, slices := [] }, c)

/-- DATA_BLOCKED (44_frames.md R222). -/
def extractDataBlocked (w : Window) (c : Nat) : Except Stop (Extracted × Nat) := do
  let (max, c) ← readVi w c
  .ok ({ frame := .dataBlocked max, fields := { f0 := zext62 max }, slices := [] }, c)

/-- STREAM_DATA_BLOCKED (44_frames.md R223). -/
def extractStreamDataBlocked (w : Window) (c : Nat) : Except Stop (Extracted × Nat) := do
  let (sid, c) ← readVi w c
  let (max, c) ← readVi w c
  .ok ({ frame := .streamDataBlocked sid max, fields := { f0 := zext62 sid, f1 := zext62 max }, slices := [] },
    c)

/-- STREAMS_BLOCKED (44_frames.md R224). -/
def extractStreamsBlocked (uni : Bool) (w : Window) (c : Nat) : Except Stop (Extracted × Nat) := do
  let (max, c) ← readVi w c
  .ok ({ frame := .streamsBlocked uni max, fields := { f0 := flagWord uni, f1 := zext62 max }, slices := [] },
    c)

/-- NEW_CONNECTION_ID (44_frames.md R225): its connection ID has a length byte of at most `CID_MAX_LEN`, like a
header's. -/
def extractNewConnectionId (w : Window) (c : Nat) : Except Stop (Extracted × Nat) := do
  let (seq, c) ← readVi w c
  let (rpt, c) ← readVi w c
  let (cid, c) ← readCid w c
  let (tok, c) ← readSlice w c resetTokenLen
  .ok ({ frame := .newConnectionId seq rpt cid tok
         fields := { f0 := zext62 seq, f1 := zext62 rpt, f2 := w64 cid.len, f3 := w64 cid.off,
                     f4 := w64 tok.off }
         slices := [cid, tok] }, c)

/-- RETIRE_CONNECTION_ID (44_frames.md R226). -/
def extractRetireConnectionId (w : Window) (c : Nat) : Except Stop (Extracted × Nat) := do
  let (seq, c) ← readVi w c
  .ok ({ frame := .retireConnectionId seq, fields := { f0 := zext62 seq }, slices := [] }, c)

/-- The eight bytes of a PATH frame: their descriptor and their big-endian value (44_frames.md R227). -/
def readPath (w : Window) (c : Nat) : Except Stop ((Slice × Word) × Nat) := do
  let (raw, c) ← readSlice w c 8
  let v ← memRead w raw.off 8
  .ok ((raw, w64 v), c)

/-- PATH_CHALLENGE (44_frames.md R227). -/
def extractPathChallenge (w : Window) (c : Nat) : Except Stop (Extracted × Nat) := do
  let ((raw, data), c) ← readPath w c
  .ok ({ frame := .pathChallenge data raw, fields := { f0 := data, f1 := w64 raw.off }, slices := [raw] }, c)

/-- PATH_RESPONSE (44_frames.md R228). -/
def extractPathResponse (w : Window) (c : Nat) : Except Stop (Extracted × Nat) := do
  let ((raw, data), c) ← readPath w c
  .ok ({ frame := .pathResponse data raw, fields := { f0 := data, f1 := w64 raw.off }, slices := [raw] }, c)

/-- CONNECTION_CLOSE (44_frames.md R229): a reason of length 0 is absent. -/
def extractConnectionClose (app : Bool) (w : Window) (c : Nat) : Except Stop (Extracted × Nat) := do
  let (err, c) ← readVi w c
  let (ft, c) ← readOptional (!app) w c
  let (n, c) ← readVi w c
  let (r, c) ← readSlice w c n.toNat
  let reason := if n = 0 then none else some r
  .ok ({ frame := .connectionClose app err ft reason
         fields := { f0 := flagWord app, f1 := zext62 err, f2 := flagWord (!app), f3 := zext62 (ft.getD 0),
                     f4 := flagWord reason.isSome, f5 := w64 (reason.elim 0 Slice.len),
                     f6 := w64 (reason.elim 0 Slice.off) }
         slices := reason.toList }, c)

/-- DATAGRAM (44_frames.md R231). -/
def extractDatagram (len : Bool) (w : Window) (c : Nat) : Except Stop (Extracted × Nat) := do
  let (data, c) ← readData len w c
  .ok ({ frame := .datagram len data
         fields := { f0 := flagWord len, f1 := w64 data.len, f2 := w64 data.off }
         slices := [data] }, c)

/-! ## FRM's framework (43_frame_dispatch.md R190) -/

/-- `WriteFrame(kind, tag, fstart, fend, f)` (43_frame_dispatch.md R193). -/
def frameRegs (kind : FrameKind) (tag : Byte) (start c : Nat) (fields : FieldRegs) : FrameRegs :=
  { kind := w64 (frameKindNumber kind), tag := zext8 tag, start := w64 start, fin := w64 c, fields := fields }

/-- What FRM writes for a frame `[start, c)` (43_frame_dispatch.md R190). -/
def commitFrame (kind : FrameKind) (tag : Byte) (start : Nat) (x : Extracted) (c : Nat) (s : State) : State :=
  emit (.frm start c x.frame) <| report x.slices <|
    { s with
      frm := frameRegs kind tag start c x.fields
      valid := setValid s.valid vFrame 0
      fcur := w64 c }

/-- END (43_frame_dispatch.md R196): the window is empty; it is not an error. -/
def endOfWindow (s : State) : State :=
  { s with valid := setValid s.valid 0 vFrame, status := statusWord .endOfWindow opFrm }

/-- FRM at a tag of a kind (43_frame_dispatch.md R190): the window check, END on an empty window, the tag's
admission (R191), and the kind's extractor. -/
def frmClass (kind : FrameKind) (tag : Byte) (extract : Window → Nat → Except Stop (Extracted × Nat))
    (s : State) : Result :=
  match beginFrame s with
  | .error e => runCommand opFrm s (.error e)
  | .ok (w, c) =>
    if c = w.lim then .next (endOfWindow s)
    else if admitted s.params.datagramEnabled tag then
      runCommand opFrm s do
        let (x, c') ← extract w (c + 1)
        .ok (commitFrame kind tag c x c' s)
    else runCommand opFrm s (raise .malformedTag c)

/-! ## The frame classes -/

/-- FRAME.PADDING (44_frames.md R211): one byte, one frame (43_frame_dispatch.md R195). -/
def execFramePadding (s : State) : Result := frmClass .padding 0x00 (extractNone .padding) s

/-- FRAME.PING (44_frames.md R212). -/
def execFramePing (s : State) : Result := frmClass .ping 0x01 (extractNone .ping) s

/-- FRAME.ACK (44_frames.md R213). -/
def execFrameAck (ecn : Bool) (s : State) : Result :=
  frmClass .ack (tagWith 0x00 false true ecn) (extractAck ecn) s

/-- FRAME.RESET_STREAM (44_frames.md R214). -/
def execFrameResetStream (s : State) : Result := frmClass .resetStream 0x04 extractResetStream s

/-- FRAME.STOP_SENDING (44_frames.md R215). -/
def execFrameStopSending (s : State) : Result := frmClass .stopSending 0x05 extractStopSending s

/-- FRAME.CRYPTO (44_frames.md R216). -/
def execFrameCrypto (s : State) : Result := frmClass .crypto 0x06 extractCrypto s

/-- FRAME.NEW_TOKEN (44_frames.md R217). -/
def execFrameNewToken (s : State) : Result := frmClass .newToken 0x07 extractNewToken s

/-- FRAME.STREAM (44_frames.md R218). -/
def execFrameStream (off len fin : Bool) (s : State) : Result :=
  frmClass .stream (tagWith 0x01 off len fin) (extractStream off len fin) s

/-- FRAME.MAX_DATA (44_frames.md R219). -/
def execFrameMaxData (s : State) : Result := frmClass .maxData 0x10 extractMaxData s

/-- FRAME.MAX_STREAM_DATA (44_frames.md R220). -/
def execFrameMaxStreamData (s : State) : Result := frmClass .maxStreamData 0x11 extractMaxStreamData s

/-- FRAME.MAX_STREAMS (44_frames.md R221). -/
def execFrameMaxStreams (uni : Bool) (s : State) : Result :=
  frmClass .maxStreams (tagWith 0x02 false true uni) (extractMaxStreams uni) s

/-- FRAME.DATA_BLOCKED (44_frames.md R222). -/
def execFrameDataBlocked (s : State) : Result := frmClass .dataBlocked 0x14 extractDataBlocked s

/-- FRAME.STREAM_DATA_BLOCKED (44_frames.md R223). -/
def execFrameStreamDataBlocked (s : State) : Result :=
  frmClass .streamDataBlocked 0x15 extractStreamDataBlocked s

/-- FRAME.STREAMS_BLOCKED (44_frames.md R224). -/
def execFrameStreamsBlocked (uni : Bool) (s : State) : Result :=
  frmClass .streamsBlocked (tagWith 0x02 true true uni) (extractStreamsBlocked uni) s

/-- FRAME.NEW_CONNECTION_ID (44_frames.md R225). -/
def execFrameNewConnectionId (s : State) : Result := frmClass .newConnectionId 0x18 extractNewConnectionId s

/-- FRAME.RETIRE_CONNECTION_ID (44_frames.md R226). -/
def execFrameRetireConnectionId (s : State) : Result :=
  frmClass .retireConnectionId 0x19 extractRetireConnectionId s

/-- FRAME.PATH_CHALLENGE (44_frames.md R227). -/
def execFramePathChallenge (s : State) : Result := frmClass .pathChallenge 0x1A extractPathChallenge s

/-- FRAME.PATH_RESPONSE (44_frames.md R228). -/
def execFramePathResponse (s : State) : Result := frmClass .pathResponse 0x1B extractPathResponse s

/-- FRAME.CONNECTION_CLOSE (44_frames.md R229). -/
def execFrameConnectionClose (app : Bool) (s : State) : Result :=
  frmClass .connectionClose (tagWith 0x03 true false app) (extractConnectionClose app) s

/-- FRAME.HANDSHAKE_DONE (44_frames.md R230). -/
def execFrameHandshakeDone (s : State) : Result := frmClass .handshakeDone 0x1E (extractNone .handshakeDone) s

/-- FRAME.DATAGRAM (44_frames.md R231). -/
def execFrameDatagram (len : Bool) (s : State) : Result :=
  frmClass .datagram (tagWith 0x06 false false len) (extractDatagram len) s

/-! ## FRM -/

/-- The class a kind and a tag of that kind select (43_frame_dispatch.md R192), run. -/
def execFrameKind (k : FrameKind) (tag : Byte) (s : State) : Result :=
  match k with
  | .padding => execFramePadding s
  | .ping => execFramePing s
  | .ack => execFrameAck (bit tag 0) s
  | .resetStream => execFrameResetStream s
  | .stopSending => execFrameStopSending s
  | .crypto => execFrameCrypto s
  | .newToken => execFrameNewToken s
  | .stream => execFrameStream (bit tag 2) (bit tag 1) (bit tag 0) s
  | .maxData => execFrameMaxData s
  | .maxStreamData => execFrameMaxStreamData s
  | .maxStreams => execFrameMaxStreams (bit tag 0) s
  | .dataBlocked => execFrameDataBlocked s
  | .streamDataBlocked => execFrameStreamDataBlocked s
  | .streamsBlocked => execFrameStreamsBlocked (bit tag 0) s
  | .newConnectionId => execFrameNewConnectionId s
  | .retireConnectionId => execFrameRetireConnectionId s
  | .pathChallenge => execFramePathChallenge s
  | .pathResponse => execFramePathResponse s
  | .connectionClose => execFrameConnectionClose (bit tag 0) s
  | .handshakeDone => execFrameHandshakeDone s
  | .datagram => execFrameDatagram (bit tag 0) s

/-- FRM (43_frame_dispatch.md R190): it reads the frame at `FCUR`, by its tag. A tag that is not admitted is
MALFORMED_TAG at the tag (R191). -/
def execFrm (s : State) : Result :=
  match beginFrame s with
  | .error e => runCommand opFrm s (.error e)
  | .ok (w, c) =>
    if c = w.lim then .next (endOfWindow s)
    else
      match peekByte w c with
      | .error e => runCommand opFrm s (.error e)
      | .ok tag =>
        match frameKind s.params.datagramEnabled tag with
        | none => runCommand opFrm s (raise .malformedTag c)
        | some k => execFrameKind k tag s

end Sys2Proof.Machine
end

