-- ==== Sys2Proof/Machine/Header.lean ====
section
/-! DEFINITION. NOP, PEEK, HDRL, HDRS and PNDEC (41_header.md). -/

namespace Sys2Proof.Machine

/-- NOP (41_header.md R130): `STATUS` OK and nothing else. -/
def execNop (s : State) : Result := runCommand opNop s (.ok s)

/-- PEEK (41_header.md R131): bit 7 of the byte at `CUR`, which is not consumed. -/
def execPeek (s : State) : Result :=
  runCommand opPeek s do
    let (w, c) ← beginPacket s
    let b ← peekByte w c
    .ok { s with formPeek := flagWord (formBit b), valid := setValid s.valid vFormPeek 0 }

/-- What HDRL and HDRS write (41_header.md R138, R139): the header group and the cursor; the packet-number and
packet groups lose their VALID bits. -/
def commitHeader (h : Header) (start c : Nat) (s : State) : State :=
  { writeHeader h start s with valid := setValid s.valid vHeader (vPn ||| vPacket), cur := w64 c }

/-- HDRL (41_header.md R138). -/
def execHdrl (s : State) : Result :=
  runCommand opHdrl s do
    let (w, c) ← beginPacket s
    let (h, c') ← decodeLong (enforceFixedBit s.ctrl) w c
    .ok (commitHeader h c c' s)

/-- HDRS (41_header.md R139). -/
def execHdrs (s : State) : Result :=
  runCommand opHdrs s do
    let (w, c) ← beginPacket s
    let (h, c') ← decodeShort s.ctrl w c
    .ok (commitHeader h c c' s)

/-- PNDEC (41_header.md R147): a packet-number field of width `ARG`, 1 to 4. -/
def execPndec (s : State) : Result :=
  runCommand opPndec s do
    let (w, c) ← beginPacket s
    let n := s.arg.toNat
    if n < 1 ∨ 4 < n then raise .outOfRange c
    else do
      let (pn, c') ← readPn w c n
      .ok { s with
        pn := { pn := zext32 pn, nbytes := w64 n }
        valid := setValid s.valid vPn vPacket
        cur := w64 c' }

end Sys2Proof.Machine
end

