-- ==== Sys2Proof/Machine/Packet.lean ====
section
/-! DEFINITION. PKT and the six packet classes it meets (42_packet.md). -/

namespace Sys2Proof.Machine

/-! ## The fields after the header (42_packet.md R163..R169) -/

/-- What a packet holds after its header, by kind. -/
inductive PacketTail where
  | versionNegotiation (versions : List U32) (off : Nat)
  | initial (token : Option Slice) (body : Framed)
  | zeroRtt (body : Framed)
  | handshake (body : Framed)
  | retry (token : Slice)
  | short (pn : U32) (pnLen : Nat) (payload : Slice)
  deriving DecidableEq, Repr

/-- `n` version words, each a big-endian `ReadN(4)`. -/
def readWords (w : Window) : Nat → Nat → Except Stop ((List U32) × Nat)
  | 0, c => .ok ([], c)
  | n + 1, c => do
    let (v, c) ← readN w c 4
    let (vs, c) ← readWords w n c
    .ok (BitVec.ofNat 32 v :: vs, c)

/-- `VNTail()` (42_packet.md R163): words up to the limit; a partial word is TRUNCATED at its start. -/
def vnTail (w : Window) (c : Nat) : Except Stop (PacketTail × Nat) := do
  let rem := w.lim - c
  if rem % 4 ≠ 0 then raise .truncated (c + 4 * (rem / 4))
  else do
    let (versions, c') ← readWords w (rem / 4) c
    .ok (.versionNegotiation versions c, c')

/-- `LengthFramed(flags)` (42_packet.md R167), for the header-declared width. -/
def lengthFramed (includesPn : Bool) (pnl : BitVec 2) (w : Window) (c : Nat) : Except Stop (Framed × Nat) := do
  let n := declaredPnLen pnl
  let ((length, _), c1) ← readVarInt w c
  if includesPn then
    if length.toNat < n then raise .outOfRange c
    else if w.lim - c1 < length.toNat then raise .truncated c1
    else do
      let fin := c1 + length.toNat
      let (pn, c2) ← readPn w c1 n
      .ok ({ length := length, pn := pn, pnLen := n, payload := ⟨c2, fin - c2⟩ }, fin)
  else do
    let (pn, c2) ← readPn w c1 n
    if w.lim - c2 < length.toNat then raise .truncated c2
    else
      .ok ({ length := length, pn := pn, pnLen := n, payload := ⟨c2, length.toNat⟩ }, c2 + length.toNat)

/-- `InitialTail(flags)` (42_packet.md R164): a token of length 0 is absent. -/
def initialTail (includesPn : Bool) (pnl : BitVec 2) (w : Window) (c : Nat) : Except Stop (PacketTail × Nat) := do
  let ((tl, _), c) ← readVarInt w c
  let (tok, c) ← readSlice w c tl.toNat
  let (body, c) ← lengthFramed includesPn pnl w c
  .ok (.initial (if tl = 0 then none else some tok) body, c)

/-- `LengthTail(flags)` of a ZeroRTT packet (42_packet.md R165). -/
def zeroRttTail (includesPn : Bool) (pnl : BitVec 2) (w : Window) (c : Nat) : Except Stop (PacketTail × Nat) := do
  let (body, c) ← lengthFramed includesPn pnl w c
  .ok (.zeroRtt body, c)

/-- `LengthTail(flags)` of a Handshake packet (42_packet.md R165). -/
def handshakeTail (includesPn : Bool) (pnl : BitVec 2) (w : Window) (c : Nat) : Except Stop (PacketTail × Nat) := do
  let (body, c) ← lengthFramed includesPn pnl w c
  .ok (.handshake body, c)

/-- `RetryTail()` (42_packet.md R168): the token is everything up to the limit. -/
def retryTail (w : Window) (c : Nat) : Except Stop (PacketTail × Nat) :=
  let (tok, c) := restSlice w c
  .ok (.retry tok, c)

/-- `ShortTail(flags)` (42_packet.md R169). -/
def shortTail (pnl : BitVec 2) (w : Window) (c : Nat) : Except Stop (PacketTail × Nat) := do
  let (pn, c) ← readPn w c (declaredPnLen pnl)
  let (payload, c) := restSlice w c
  .ok (.short pn (declaredPnLen pnl) payload, c)

/-! ## What PKT writes (42_packet.md R172) -/

/-- The kind of a tail. -/
def PacketTail.kind : PacketTail → PacketKind
  | .versionNegotiation _ _ => .versionNegotiation
  | .initial _ _ => .initial
  | .zeroRtt _ => .zeroRtt
  | .handshake _ => .handshake
  | .retry _ => .retry
  | .short _ _ _ => .short

/-- The record of a packet (10_state.md R43). -/
def PacketTail.record (h : Header) : PacketTail → Packet
  | .versionNegotiation versions _ => .versionNegotiation h versions
  | .initial token body => .initial h token body
  | .zeroRtt body => .zeroRtt h body
  | .handshake body => .handshake h body
  | .retry token => .retry h token
  | .short pn pnLen payload => .short h pnLen pn payload

/-- The token the registers report, if present (42_packet.md R172's table). -/
def PacketTail.token : PacketTail → Option Slice
  | .initial token _ => token
  | .retry token => some token
  | _ => none

/-- `PKT_LENGTH`'s value: the Length field, 0 for the kinds without one. -/
def PacketTail.length : PacketTail → U62
  | .initial _ body => body.length
  | .zeroRtt body => body.length
  | .handshake body => body.length
  | _ => 0

/-- The packet number and its width, for the kinds that have one. -/
def PacketTail.pn : PacketTail → Option (U32 × Nat)
  | .initial _ body => some (body.pn, body.pnLen)
  | .zeroRtt body => some (body.pn, body.pnLen)
  | .handshake body => some (body.pn, body.pnLen)
  | .short pn pnLen _ => some (pn, pnLen)
  | _ => none

/-- The payload of a packet that ends at `c`: empty at `c` for the kinds without frames. -/
def PacketTail.payload (c : Nat) : PacketTail → Slice
  | .initial _ body => body.payload
  | .zeroRtt body => body.payload
  | .handshake body => body.payload
  | .short _ _ payload => payload
  | _ => ⟨c, 0⟩

/-- `VN_OFF` and `VN_COUNT`: 0, 0 for the kinds without a version list. -/
def PacketTail.vn : PacketTail → Nat × Nat
  | .versionNegotiation versions off => (off, versions.length)
  | _ => (0, 0)

/-- The descriptors PKT reports besides the header's: the token, if present, and the payload. -/
def PacketTail.slices (c : Nat) (t : PacketTail) : List Slice :=
  t.token.toList ++ [t.payload c]

/-- The packet registers of a packet `[start, c)` (42_packet.md R172). -/
def packetRegs (start c : Nat) (t : PacketTail) : PacketRegs :=
  { kind := w64 (packetKindNumber t.kind)
    tokenPresent := flagWord t.token.isSome
    tokenOff := w64 ((t.token.getD ⟨0, 0⟩).off)
    tokenLen := w64 ((t.token.getD ⟨0, 0⟩).len)
    length := zext62 t.length
    payOff := w64 (t.payload c).off
    payEnd := w64 ((t.payload c).off + (t.payload c).len)
    vnOff := w64 t.vn.1
    vnCount := w64 t.vn.2
    start := w64 start
    fin := w64 c }

/-- The packet-number registers PKT leaves: written for the kinds with a packet number. -/
def packetPnRegs (t : PacketTail) (old : PnRegs) : PnRegs :=
  match t.pn with
  | some (pn, n) => { pn := zext32 pn, nbytes := w64 n }
  | none => old

/-- The VALID bits PKT sets and clears (42_packet.md R160). -/
def packetValid (t : PacketTail) (valid : Word) : Word :=
  if t.pn.isSome then setValid valid (vHeader ||| vPacket ||| vPn) vFrame
  else setValid valid (vHeader ||| vPacket) (vPn ||| vFrame)

/-- `Commit(pstart, h, kind, t)` (42_packet.md R172), for a packet `[start, c)`. -/
def commitPacket (start : Nat) (h : Header) (t : PacketTail) (c : Nat) (s : State) : State :=
  emit (.pkt start c (t.record h)) <| report (t.slices c) <|
    { writeHeader h start s with
      pkt := packetRegs start c t
      pn := packetPnRegs t s.pn
      fcur := w64 (t.payload c).off
      fend := w64 ((t.payload c).off + (t.payload c).len)
      valid := packetValid t s.valid
      cur := w64 c }

/-! ## The packet classes -/

/-- PKT at a long first byte (42_packet.md R160): the header, then the class's tail. -/
def pktLong (flags : Byte) (tail : Window → Nat → Except Stop (PacketTail × Nat)) (s : State) : Result :=
  runCommand opPkt s do
    let (w, c) ← beginPacket s
    need w c 1
    let (h, c1) ← longFields (enforceFixedBit s.ctrl) flags c w (c + 1)
    let (t, c2) ← tail w c1
    .ok (commitPacket c h t c2 s)

/-- PKT.VERSION_NEGOTIATION (42_packet.md R163). -/
def execPktVersionNegotiation (low : BitVec 7) (s : State) : Result :=
  pktLong (vnFlags low) vnTail s

/-- PKT.INITIAL (42_packet.md R164). -/
def execPktInitial (fixed : Bool) (reserved pnl : BitVec 2) (s : State) : Result :=
  pktLong (longFlags fixed 0 reserved pnl) (initialTail s.params.lengthIncludesPn pnl) s

/-- PKT.ZERO_RTT (42_packet.md R165). -/
def execPktZeroRtt (fixed : Bool) (reserved pnl : BitVec 2) (s : State) : Result :=
  pktLong (longFlags fixed 1 reserved pnl) (zeroRttTail s.params.lengthIncludesPn pnl) s

/-- PKT.HANDSHAKE (42_packet.md R165). -/
def execPktHandshake (fixed : Bool) (reserved pnl : BitVec 2) (s : State) : Result :=
  pktLong (longFlags fixed 2 reserved pnl) (handshakeTail s.params.lengthIncludesPn pnl) s

/-- PKT.RETRY (42_packet.md R168). -/
def execPktRetry (fixed : Bool) (unused : BitVec 4) (s : State) : Result :=
  pktLong (retryFlags fixed unused) retryTail s

/-- PKT.SHORT (42_packet.md R169): PKT at a short first byte. PKT's peek of the first byte comes before
DecodeShort's check of the configured length (R160). -/
def execPktShort (fixed spin : Bool) (reserved : BitVec 2) (keyPhase : Bool) (pnl : BitVec 2)
    (s : State) : Result :=
  runCommand opPkt s do
    let (w, c) ← beginPacket s
    need w c 1
    checkShortDcidLen s.ctrl c
    let (h, c1) ← shortFields s.ctrl (shortFlags fixed spin reserved keyPhase pnl) c w (c + 1)
    let (t, c2) ← shortTail pnl w c1
    .ok (commitPacket c h t c2 s)

/-! ## PKT -/

/-- The class a packet's first byte selects (42_packet.md R160, R161), run. -/
def execPacketFirst (vn : Bool) (b : Byte) (s : State) : Result :=
  match packetKind vn b with
  | .versionNegotiation => execPktVersionNegotiation (bits b 0 7) s
  | .initial => execPktInitial (fixedBit b) (bits b 2 2) (pnlBits b) s
  | .zeroRtt => execPktZeroRtt (fixedBit b) (bits b 2 2) (pnlBits b) s
  | .handshake => execPktHandshake (fixedBit b) (bits b 2 2) (pnlBits b) s
  | .retry => execPktRetry (fixedBit b) (bits b 0 4) s
  | .short => execPktShort (fixedBit b) (spinBit b) (bits b 3 2) (keyPhaseBit b) (pnlBits b) s

/-- What selects a packet's class: its first byte, and, for a long one, whether its version is 0. A long header
cut inside its version raises here what DecodeLong raises (41_header.md R133, 60_exceptions.md R264). -/
def packetFirstAt (s : State) : Except Stop (Bool × Byte) := do
  let (w, c) ← beginPacket s
  let b ← peekByte w c
  if formBit b then do
    let (v, _) ← readN w (c + 1) 4
    .ok (v == 0, b)
  else .ok (false, b)

/-- PKT (42_packet.md R160): it reads the packet at `CUR`, by its form, version and type. -/
def execPkt (s : State) : Result :=
  match packetFirstAt s with
  | .error e => runCommand opPkt s (.error e)
  | .ok (vn, b) => execPacketFirst vn b s

end Sys2Proof.Machine
end

