-- ==== Sys2Proof/Machine/VarInt.lean ====
section
/-! DEFINITION. The VarInt codec: VDEC, VENC, VSIZE (40_varint.md) and the four VarInt classes VDEC meets. -/

namespace Sys2Proof.Machine

/-- What VDEC writes (40_varint.md R112): `VI_VALUE`, `VI_LEN`, the cursor; `VI_BYTES` loses its value. -/
def commitVarInt (v : U62) (n c : Nat) (s : State) : State :=
  { s with
    vi := { s.vi with value := zext62 v, len := w64 n }
    valid := setValid s.valid (vViValue ||| vViLen) vViBytes
    cur := w64 c }

/-- VDEC at a VarInt of a class whose first byte holds `high` (40_varint.md R111, R112). -/
def vdecClass (cls : BitVec 2) (high : BitVec 6) (s : State) : Result :=
  runCommand opVdec s do
    let (w, c) ← beginPacket s
    need w c 1
    let ((v, n), c) ← varIntTail w cls high (c + 1)
    .ok (commitVarInt v n c s)

/-- VARINT.1B: VDEC at a first byte of class 00 (40_varint.md R111). -/
def execVarint1B (high : BitVec 6) (s : State) : Result := vdecClass 0 high s

/-- VARINT.2B: VDEC at a first byte of class 01. -/
def execVarint2B (high : BitVec 6) (s : State) : Result := vdecClass 1 high s

/-- VARINT.4B: VDEC at a first byte of class 10. -/
def execVarint4B (high : BitVec 6) (s : State) : Result := vdecClass 2 high s

/-- VARINT.8B: VDEC at a first byte of class 11. -/
def execVarint8B (high : BitVec 6) (s : State) : Result := vdecClass 3 high s

/-- The class a VarInt's first byte selects (30_encoding.md R88), run. -/
def execVarIntFirst (b : Byte) (s : State) : Result :=
  match (varIntClass b).toNat with
  | 0 => execVarint1B (varIntHigh b) s
  | 1 => execVarint2B (varIntHigh b) s
  | 2 => execVarint4B (varIntHigh b) s
  | _ => execVarint8B (varIntHigh b) s

/-- The first byte VDEC meets, or why it has none (40_varint.md R112). -/
def varIntFirstAt (s : State) : Except Stop Byte := do
  let (w, c) ← beginPacket s
  peekByte w c

/-- VDEC (40_varint.md R112): it decodes the VarInt at `CUR`, by the class of its first byte. -/
def execVdec (s : State) : Result :=
  match varIntFirstAt s with
  | .error e => runCommand opVdec s (.error e)
  | .ok b => execVarIntFirst b s

/-- VENC (40_varint.md R114): OUT_OF_RANGE with `ERR_AT` 0 from `2^62` up. -/
def execVenc (s : State) : Result :=
  runCommand opVenc s
    (if varIntMax < s.arg.toNat then raise .outOfRange 0
     else .ok { s with
      vi := { value := s.arg, len := w64 (encodedSize s.arg.toNat), bytes := w64 (encWord s.arg.toNat) }
      valid := setValid s.valid (vViValue ||| vViLen ||| vViBytes) 0 })

/-- VSIZE (40_varint.md R115): `VI_BYTES` keeps what it held and loses its VALID bit. -/
def execVsize (s : State) : Result :=
  runCommand opVsize s
    (if varIntMax < s.arg.toNat then raise .outOfRange 0
     else .ok { s with
      vi := { s.vi with value := s.arg, len := w64 (encodedSize s.arg.toNat) }
      valid := setValid s.valid (vViValue ||| vViLen) vViBytes })

end Sys2Proof.Machine
end

