-- ==== Sys2Proof/Machine/Dispatch.lean ====
section
/-! DEFINITION. The one dispatch from an instruction to its meaning. -/

namespace Sys2Proof.Machine

/-- Run an instruction. -/
def exec (i : Instr) (s : State) : Host.Outcome State Fault Refusal :=
  match i with
  -- commands
  | .nop => Sys2Proof.Machine.execNop s
  | .vdec => Sys2Proof.Machine.execVdec s
  | .venc => Sys2Proof.Machine.execVenc s
  | .vsize => Sys2Proof.Machine.execVsize s
  | .peek => Sys2Proof.Machine.execPeek s
  | .hdrl => Sys2Proof.Machine.execHdrl s
  | .hdrs => Sys2Proof.Machine.execHdrs s
  | .pndec => Sys2Proof.Machine.execPndec s
  | .pkt => Sys2Proof.Machine.execPkt s
  | .frm => Sys2Proof.Machine.execFrm s
  -- packet classes
  | .pktVersionNegotiation low => Sys2Proof.Machine.execPktVersionNegotiation low s
  | .pktInitial fixed reserved pnl => Sys2Proof.Machine.execPktInitial fixed reserved pnl s
  | .pktZeroRtt fixed reserved pnl => Sys2Proof.Machine.execPktZeroRtt fixed reserved pnl s
  | .pktHandshake fixed reserved pnl => Sys2Proof.Machine.execPktHandshake fixed reserved pnl s
  | .pktRetry fixed unused => Sys2Proof.Machine.execPktRetry fixed unused s
  | .pktShort fixed spin reserved keyPhase pnl => Sys2Proof.Machine.execPktShort fixed spin reserved keyPhase pnl s
  -- VarInt classes
  | .varint1B high => Sys2Proof.Machine.execVarint1B high s
  | .varint2B high => Sys2Proof.Machine.execVarint2B high s
  | .varint4B high => Sys2Proof.Machine.execVarint4B high s
  | .varint8B high => Sys2Proof.Machine.execVarint8B high s
  -- frame classes
  | .framePadding => Sys2Proof.Machine.execFramePadding s
  | .framePing => Sys2Proof.Machine.execFramePing s
  | .frameAck ecn => Sys2Proof.Machine.execFrameAck ecn s
  | .frameResetStream => Sys2Proof.Machine.execFrameResetStream s
  | .frameStopSending => Sys2Proof.Machine.execFrameStopSending s
  | .frameCrypto => Sys2Proof.Machine.execFrameCrypto s
  | .frameNewToken => Sys2Proof.Machine.execFrameNewToken s
  | .frameStream off len fin => Sys2Proof.Machine.execFrameStream off len fin s
  | .frameMaxData => Sys2Proof.Machine.execFrameMaxData s
  | .frameMaxStreamData => Sys2Proof.Machine.execFrameMaxStreamData s
  | .frameMaxStreams uni => Sys2Proof.Machine.execFrameMaxStreams uni s
  | .frameDataBlocked => Sys2Proof.Machine.execFrameDataBlocked s
  | .frameStreamDataBlocked => Sys2Proof.Machine.execFrameStreamDataBlocked s
  | .frameStreamsBlocked uni => Sys2Proof.Machine.execFrameStreamsBlocked uni s
  | .frameNewConnectionId => Sys2Proof.Machine.execFrameNewConnectionId s
  | .frameRetireConnectionId => Sys2Proof.Machine.execFrameRetireConnectionId s
  | .framePathChallenge => Sys2Proof.Machine.execFramePathChallenge s
  | .framePathResponse => Sys2Proof.Machine.execFramePathResponse s
  | .frameConnectionClose app => Sys2Proof.Machine.execFrameConnectionClose app s
  | .frameHandshakeDone => Sys2Proof.Machine.execFrameHandshakeDone s
  | .frameDatagram len => Sys2Proof.Machine.execFrameDatagram len s

end Sys2Proof.Machine
end

