-- ==== Sys2Proof/Machine/HostMoves.lean ====
section
/-! DEFINITION. What each move of the host does (70_reset_and_hazards.md R300), and what places one
instruction where the next step runs it. -/

namespace Sys2Proof.Machine

/-- Hand something back to the host. -/
def see (x : Seen) (s : State) : State := { s with seen := s.seen ++ [x] }

/-- The host writes bytes of `IN` from `a` (10_state.md R40, R41): their marks are set, and every reported
descriptor that names one of them is stale. A write past the end of `IN` faults before any byte lands
(safe, assumption 12). -/
def hostLoad (a : Nat) (bytes : List Byte) (s : State) : Result :=
  if a + bytes.length ≤ s.params.maxInLen then
    .next { s with
      mem := s.mem.writeAll a bytes
      descs := markStale a bytes.length s.descs }
  else .fault (.noSuchInput (max a s.params.maxInLen))

/-- The host reads register `r`: its value, with no side effect (20_memory.md R66). A result register whose
VALID bit is 0 holds no value, and the spec makes its read a fault of a model, never a value (10_state.md R29,
93_implementation_defined.md U3), whatever data the register still holds. -/
def hostRead (r : BitVec 6) (s : State) : Result :=
  if regHasValue r s then .next (see (.reg r (readValue r s)) s)
  else .fault (.invalidResult r)

/-- The host pops the head of `EVQ` (10_state.md R42); it has no such move while `EVQ` is empty (U10). -/
def hostPop (s : State) : Result :=
  match s.evq with
  | [] => .refused .popEmptyQueue
  | e :: rest => .next (see (.record e) { s with evq := rest })

/-- The host reads `IN` through the `k`-th descriptor (70_reset_and_hazards.md R293): its bytes, or a fault if
one was written since the descriptor was reported (U2) or was never written (U1). -/
def hostDeref (k : Nat) (s : State) : Result :=
  match s.descs[k]? with
  | none => .refused (.noSuchDescriptor k)
  | some d =>
    if d.stale then .fault (.staleDescriptor k)
    else
      match s.mem.readAll d.slice.off d.slice.len with
      | .ok bs => .next (see (.bytes d.slice bs) s)
      | .error a => .fault (.unwrittenInput a)

/-- A move of the host between commands (70_reset_and_hazards.md R300). -/
def hostMove (m : HostMove) (s : State) : Result :=
  match m with
  | .load a bytes => hostLoad a bytes s
  | .write r v => .next (writeReg r v s)
  | .read r => hostRead r s
  | .pop => hostPop s
  | .deref k => hostDeref k s
  | .reset => .next (resetBlock s)

/-- A move of the host while a command is held (10_state.md R44, 70_reset_and_hazards.md R290, R300): only a pop,
which lifts the hold, or a reset, which abandons the command. -/
def hostMoveHeld (m : HostMove) (s : State) : Result :=
  match m with
  | .pop => hostPop s
  | .reset => .next (resetBlock s)
  | .load _ _ | .write _ _ | .read _ | .deref _ => .refused .hostMoveDuringCommand

/-- The host's turn: its next move, taken from the list, or none: the block idles (70_reset_and_hazards.md R291)
or keeps holding (R297). -/
def hostTurn (move : HostMove → State → Result) (s : State) : Result :=
  match s.host with
  | [] => .next s
  | m :: rest => move m { s with host := rest }

/-! ## Placing one instruction (assumption 17) -/

/-- How many bytes a placed wire element is given: longer than the longest element whose later bytes are 0. -/
def placedLen : Nat := 64

/-- The first `n` bytes of a word, the least significant first. -/
def wordBytes (n w : Nat) : List Byte := (List.range n).map (wordByte w)

/-- The bytes of a long packet's first five: the first byte, and version 1 (00_scope.md R2), which a packet
class of nonzero version needs. -/
def versionOne (w : Nat) : List Byte := [wordByte w 0, 0, 0, 0, 1]

/-- Give the engine a command and room in `EVQ` for its record. -/
def giveCommand (op : Byte) (s : State) : State :=
  { s with
    cmd := zext8 op
    pending := some op
    evq := if evqFull s then [] else s.evq }

/-- Place a wire element at offset 0 of `IN`. -/
def placeBytes (bytes : List Byte) (s : State) : State :=
  { s with mem := s.mem.writeAll 0 (bytes.take s.params.maxInLen) }

/-- The end of a placed element. -/
def placedEnd (s : State) : Word := w64 (min placedLen s.params.maxInLen)

/-- Place a table word where the next step runs it: the command itself, or the wire element in `IN`, at the
cursor of the command that consumes it, and that command. -/
def placeWord (nbits w : Nat) (s : State) : State :=
  match tableSpace nbits w with
  | .command => giveCommand (wordByte w 0) s
  | .packet _ =>
    let bytes := if formBit (wordByte w 0) then versionOne w ++ List.replicate (placedLen - 5) 0
      else wordBytes placedLen w
    giveCommand opPkt { placeBytes bytes s with cur := 0, limit := placedEnd s }
  | .varint => giveCommand opVdec { placeBytes (wordBytes placedLen w) s with cur := 0, limit := placedEnd s }
  | .frame _ => giveCommand opFrm { placeBytes (wordBytes placedLen w) s with fcur := 0, fend := placedEnd s }

end Sys2Proof.Machine
end

