-- ==== Sys2Proof/Machine/Step.lean ====
section
/-! DEFINITION. One step: the engine and the host alternate (20_memory.md R69). The engine runs the command it
has been given; if it has none, or must hold it, the host makes its next move. -/

namespace Sys2Proof.Machine

/-- The engine runs a command (60_exceptions.md R263). -/
def runOpcode (op : Byte) (s : State) : Result :=
  match decodeCommand op with
  | .ok i => exec i s
  | .error _ => .next (badCommand op s)

/-- One step of the block and its host. -/
def step (s : State) : Host.Outcome State Fault Refusal :=
  match s.pending with
  | none => hostTurn hostMove s
  | some op =>
    if holds op s then hostTurn hostMoveHeld s
    else runOpcode op { s with pending := none }

/-- The state with the instruction of a table word placed where the next step runs it. -/
def State.withFetchWord (s : State) (nbits w : Nat) : State := placeWord nbits w s

end Sys2Proof.Machine
end

