-- ==== Sys2Proof/Machine/Instances.lean ====
section
/-! DEFINITION. Several instances (10_state.md R47, 60_exceptions.md R272): each has its own state, and they share
nothing. -/

namespace Sys2Proof.Machine

/-- `N_INSTANCES` instances, by number. -/
abbrev Instances := List State

/-- Instance `k` makes a step; the others stay as they are. What the spec leaves open is the model's choice (DESIGN
CHOICE, safe, assumption 14): a fault or a refusal of that step stops the run of the whole list, although the other
instances have no part in it; and a number that names no instance makes no step. -/
def stepInstance (k : Nat) (m : Instances) : Host.Outcome Instances Fault Refusal :=
  match m[k]? with
  | none => .next m
  | some s =>
    match step s with
    | .next t => .next (m.set k t)
    | .fault f => .fault f
    | .refused r => .refused r

end Sys2Proof.Machine
end

