-- ==== Sys2Proof/Safety.lean ====
section
/-! DEFINITION. The terms claims are stated in: what stands in `IN` (said in plain arithmetic on its bytes, apart
from the readers the machine runs), what a command must find to complete, what is observed of a run, and the
invariants of the machine. -/

namespace Sys2Proof.Machine

/-! ## What stands in IN -/

/-- `BE(bytes)` (00_scope.md R8): the first byte is the most significant. -/
def beValue (bs : List Byte) : Nat := bs.foldl (fun v b => v * 256 + b.toNat) 0

/-- The `n` bytes of `IN` from `a`, if all are written. -/
def bytesAt (m : Memory) (a n : Nat) : Option (List Byte) :=
  match m.readAll a n with
  | .ok bs => some bs
  | .error _ => none

/-- The big-endian value of the `n` bytes from `a`, if all are written. -/
def valueAt (m : Memory) (a n : Nat) : Option Nat := (bytesAt m a n).map beValue

/-- The VarInt that stands at `a` (30_encoding.md R88): its value and its length. -/
def varIntAt (m : Memory) (a : Nat) : Option (U62 × Nat) :=
  match m.read a with
  | none => none
  | some b =>
    let n := 2 ^ (b.toNat / 64)
    (valueAt m (a + 1) (n - 1)).map fun v => (BitVec.ofNat 62 (b.toNat % 64 * 256 ^ (n - 1) + v), n)

/-- The `k` VarInts that stand one after another from `a`, and where they end. -/
def varIntsAt (m : Memory) : Nat → Nat → Option (List U62 × Nat)
  | a, 0 => some ([], a)
  | a, k + 1 =>
    match varIntAt m a with
    | none => none
    | some (v, n) => (varIntsAt m (a + n) k).map fun r => (v :: r.1, r.2)

/-- The long header that stands at `a` with the first byte `flags` (30_encoding.md R85), if its version and length
bytes are written and no connection ID is longer than 20; it ends at `a + 7 + dl + sl`. -/
def longHeaderAt (m : Memory) (a : Nat) (flags : Byte) : Option Header :=
  match valueAt m (a + 1) 4, m.read (a + 5) with
  | some v, some dl =>
    match m.read (a + 6 + dl.toNat) with
    | some sl =>
      if dl.toNat ≤ 20 ∧ sl.toNat ≤ 20 then
        some (.long flags (BitVec.ofNat 32 v) ⟨a + 6, dl.toNat⟩ ⟨a + 7 + dl.toNat, sl.toNat⟩)
      else none
    | none => none
  | _, _ => none

/-- How many bytes a header occupies (30_encoding.md R85, R86). -/
def headerSize : Header → Nat
  | .long _ _ dcid scid => 7 + dcid.len + scid.len
  | .short _ dcid => 1 + dcid.len

/-- The Length field, packet number and payload that stand at `q` for a packet number of `n` bytes, and where the
payload ends (30_encoding.md R87): Length counts the packet number if `includesPn`. -/
def framedAt (includesPn : Bool) (n : Nat) (m : Memory) (q : Nat) : Option (Framed × Nat) :=
  match varIntAt m q with
  | none => none
  | some (length, k) =>
    match valueAt m (q + k) n with
    | none => none
    | some v =>
      let body := q + k + n
      if includesPn then
        if n ≤ length.toNat then
          some (⟨length, BitVec.ofNat 32 v, n, ⟨body, length.toNat - n⟩⟩, body + (length.toNat - n))
        else none
      else some (⟨length, BitVec.ofNat 32 v, n, ⟨body, length.toNat⟩⟩, body + length.toNat)

/-- The `k` 32-bit words that stand one after another from `a` (42_packet.md R163). -/
def wordsAt (m : Memory) : Nat → Nat → Option (List U32)
  | _, 0 => some []
  | a, k + 1 =>
    match valueAt m a 4 with
    | none => none
    | some v => (wordsAt m (a + 4) k).map (BitVec.ofNat 32 v :: ·)

/-- Every byte of `IN[a .. e-1]` is written. -/
def writtenFrom (m : Memory) (a e : Nat) : Prop := ∀ x, a ≤ x → x < e → (m.read x).isSome = true

/-! ## What a command must find -/

/-- The packet window is sound (10_state.md R26). -/
def packetWindow (s : State) : Bool :=
  decide (s.cur.toNat ≤ s.limit.toNat) && decide (s.limit.toNat ≤ s.params.maxInLen)

/-- The frame window is sound (10_state.md R27). -/
def frameWindow (s : State) : Bool :=
  decide (s.fcur.toNat ≤ s.fend.toNat) && decide (s.fend.toNat ≤ s.params.maxInLen)

/-- The fixed-bit check of a long header passes (41_header.md R134). -/
def fixedBitOkLong (s : State) (flags : Byte) (version : U32) : Bool :=
  !enforceFixedBit s.ctrl || version == 0 || fixedBit flags

/-- The fixed-bit check of a short header passes (41_header.md R135). -/
def fixedBitOkShort (s : State) (flags : Byte) : Bool :=
  !enforceFixedBit s.ctrl || fixedBit flags

/-- A long header begins at `CUR`: its first byte `flags` and its version stand in `IN` before `LIMIT` and pass the
fixed-bit check (41_header.md R133, R134). -/
def longStart (s : State) (flags : Byte) : Prop :=
  packetWindow s = true ∧ s.mem.read s.cur.toNat = some flags ∧ 128 ≤ flags.toNat ∧
  s.cur.toNat + 5 ≤ s.limit.toNat ∧
  ∃ v, valueAt s.mem (s.cur.toNat + 1) 4 = some v ∧ fixedBitOkLong s flags (BitVec.ofNat 32 v) = true

/-- Whether register number `n` holds a value, by the bits of `VALID` (10_state.md R29). -/
def holdsValue (valid : Word) (n : Nat) : Bool :=
  if n = 0x09 then valid.getLsbD 0
  else if n = 0x0A then valid.getLsbD 1
  else if n = 0x0B then valid.getLsbD 2
  else if n = 0x0C then valid.getLsbD 3
  else if 0x10 ≤ n ∧ n ≤ 0x1D then valid.getLsbD 4
  else if n = 0x25 ∨ n = 0x26 then valid.getLsbD 5
  else if 0x20 ≤ n ∧ n ≤ 0x2C then valid.getLsbD 6
  else if 0x30 ≤ n ∧ n ≤ 0x3D then valid.getLsbD 7
  else true

/-- `Clears(op)` of the command an instruction runs under (60_exceptions.md R262), as a mask: also every group it
may write. -/
def groupsOf : Instr → Word
  | .nop => 0
  | .vdec | .venc | .vsize | .varint1B _ | .varint2B _ | .varint4B _ | .varint8B _ => 0x07
  | .peek => 0x08
  | .hdrl | .hdrs => 0x70
  | .pndec => 0x60
  | .pkt | .pktVersionNegotiation _ | .pktInitial _ _ _ | .pktZeroRtt _ _ _ | .pktHandshake _ _ _
  | .pktRetry _ _ | .pktShort _ _ _ _ _ => 0xF0
  | .frm | .framePadding | .framePing | .frameAck _ | .frameResetStream | .frameStopSending | .frameCrypto
  | .frameNewToken | .frameStream _ _ _ | .frameMaxData | .frameMaxStreamData | .frameMaxStreams _
  | .frameDataBlocked | .frameStreamDataBlocked | .frameStreamsBlocked _ | .frameNewConnectionId
  | .frameRetireConnectionId | .framePathChallenge | .framePathResponse | .frameConnectionClose _
  | .frameHandshakeDone | .frameDatagram _ => 0x80

/-! ## What a command leaves, as the spec's tables say it -/

/-- What a failing command leaves (60_exceptions.md R262): the VALID bits of `cleared` cleared, `STATUS`, and
`ERR_AT`; nothing else changes. -/
def failed (s : State) (status cleared : Word) (offset : Nat) : State :=
  { s with valid := s.valid &&& ~~~cleared, status := status, errAt := BitVec.ofNat 64 offset }

/-- Descriptors as the host has just been given them. -/
def fresh (ds : List Slice) : List Descriptor := ds.map fun d => ⟨d, false⟩

/-- The header registers of a long header (41_header.md R137, R140..R145), by arithmetic on its first byte. -/
def longRegs (flags : Byte) (version : U32) (dcid scid : Slice) (start : Word) : HeaderRegs :=
  { form := 1
    flags := BitVec.ofNat 64 flags.toNat
    version := BitVec.ofNat 64 version.toNat
    dcidOff := BitVec.ofNat 64 dcid.off
    dcidLen := BitVec.ofNat 64 dcid.len
    scidOff := BitVec.ofNat 64 scid.off
    scidLen := BitVec.ofNat 64 scid.len
    start := start
    aPktType := BitVec.ofNat 64 (0x100 + flags.toNat / 16 % 4)
    aPnLen := BitVec.ofNat 64 (0x100 + (flags.toNat % 4 + 1))
    aIsVn := if version = 0 then 0x101 else 0x100
    aSpin := 0
    aKeyPhase := 0
    aFixed := BitVec.ofNat 64 (0x100 + flags.toNat / 64 % 2) }

/-- The header registers of a short header (41_header.md R137, R140..R145). -/
def shortRegs (flags : Byte) (dcid : Slice) (start : Word) : HeaderRegs :=
  { form := 0
    flags := BitVec.ofNat 64 flags.toNat
    version := 0
    dcidOff := BitVec.ofNat 64 dcid.off
    dcidLen := BitVec.ofNat 64 dcid.len
    scidOff := 0
    scidLen := 0
    start := start
    aPktType := 0
    aPnLen := BitVec.ofNat 64 (0x100 + (flags.toNat % 4 + 1))
    aIsVn := 0
    aSpin := BitVec.ofNat 64 (0x100 + flags.toNat / 32 % 2)
    aKeyPhase := BitVec.ofNat 64 (0x100 + flags.toNat / 4 % 2)
    aFixed := BitVec.ofNat 64 (0x100 + flags.toNat / 64 % 2) }

/-- What HDRL or HDRS leaves (41_header.md R138, R139) for a header that ends at `e`. -/
def afterHeader (s : State) (status : Word) (regs : HeaderRegs) (ds : List Slice) (e : Nat) : State :=
  { s with
    hdr := regs
    valid := s.valid &&& ~~~0x60 ||| 0x10
    cur := BitVec.ofNat 64 e
    status := status
    descs := s.descs ++ fresh ds }

/-- What PKT leaves (42_packet.md R172) for a packet that ends at `e`. -/
def afterPacket (s : State) (hdr : HeaderRegs) (pkt : PacketRegs) (pn : Option PnRegs) (p : Packet)
    (ds : List Slice) (e : Nat) : State :=
  { s with
    hdr := hdr
    pkt := pkt
    pn := pn.getD s.pn
    valid := if pn.isSome then s.valid &&& ~~~0x80 ||| 0x70 else s.valid &&& ~~~0xA0 ||| 0x50
    fcur := pkt.payOff
    fend := pkt.payEnd
    cur := BitVec.ofNat 64 e
    status := 0x2000
    evq := s.evq ++ [.pkt s.cur.toNat e p]
    descs := s.descs ++ fresh ds }

/-- What FRM leaves (43_frame_dispatch.md R190, R193) for a frame that ends at `e`. -/
def afterFrame (s : State) (kind tag : Word) (fields : FieldRegs) (f : Frame) (ds : List Slice) (e : Nat) :
    State :=
  { s with
    frm := { kind := kind, tag := tag, start := s.fcur, fin := BitVec.ofNat 64 e, fields := fields }
    valid := s.valid ||| 0x80
    fcur := BitVec.ofNat 64 e
    status := 0x3000
    evq := s.evq ++ [.frm s.fcur.toNat e f]
    descs := s.descs ++ fresh ds }

/-! ## What is observed of a run (70_reset_and_hazards.md R301) -/

/-- The records of `EVQ` the host has popped, oldest first. -/
def popped (s : State) : List Event :=
  s.seen.filterMap fun
    | .record e => some e
    | _ => none

/-- The observation of a state: each register read through VALID, the records popped and then those still
queued, and `STATUS` and `ERR_AT`. -/
structure Observation where
  regs : List (Option Word)
  records : List Event
  status : Word
  errAt : Word
  deriving DecidableEq, Repr

/-- What is observed of a state: registers as a host read gives them, so an `ERR_AT` without meaning is the free value
of assumption 10 (DESIGN CHOICE, safe; 93_implementation_defined.md U5), both as register 0x0D and as `errAt`. -/
def observe (s : State) : Observation :=
  { regs := (List.range 64).map fun n =>
      let r := BitVec.ofNat 6 n
      if regHasValue r s then some (readValue r s) else none
    records := popped s ++ s.evq
    status := s.status
    errAt := readValue 0x0D s }

/-! ## Invariants -/

/-- `IN` keeps its canonical form and lies within `0 .. MAX_IN_LEN - 1`. -/
def memoryInv (s : State) : Bool := s.mem.wf && s.mem.below s.params.maxInLen

/-- An accessor register has its format (10_state.md R33): bits above 8 are 0, and bits 7:0 are 0 unless bit 8
is 1. -/
def accessorFormat (w : Word) : Bool := w &&& ~~~0x1FF == 0 && (w.getLsbD 8 || w == 0)

/-- The registers have the formats of 10_state.md: reserved bits read 0 (R24, R25, R29), and every field is in
its range (R23, R31, R33, R34, R35, R36). -/
def registerInv (s : State) : Bool :=
  s.ctrl &&& ~~~0x1F01 == 0
    && s.status &&& ~~~0xFF0F == 0
    && s.valid &&& ~~~0xFF == 0
    && decide (s.vi.value.toNat ≤ varIntMax)
    && (s.vi.len == 0 || s.vi.len == 1 || s.vi.len == 2 || s.vi.len == 4 || s.vi.len == 8)
    && decide (s.formPeek.toNat ≤ 1)
    && decide (s.hdr.form.toNat ≤ 1)
    && decide (s.hdr.flags.toNat < 2 ^ 8)
    && decide (s.hdr.version.toNat < 2 ^ 32)
    && decide (s.hdr.dcidLen.toNat ≤ 20)
    && decide (s.hdr.scidLen.toNat ≤ 20)
    && accessorFormat s.hdr.aPktType
    && accessorFormat s.hdr.aPnLen
    && accessorFormat s.hdr.aIsVn
    && accessorFormat s.hdr.aSpin
    && accessorFormat s.hdr.aKeyPhase
    && accessorFormat s.hdr.aFixed
    && decide (s.pkt.kind.toNat ≤ 5)
    && decide (s.pkt.tokenPresent.toNat ≤ 1)
    && decide (s.pkt.length.toNat ≤ varIntMax)
    && decide (s.pn.pn.toNat < 2 ^ 32)
    && decide (s.pn.nbytes.toNat ≤ 4)
    && decide (s.frm.kind.toNat ≤ 20)
    && decide (s.frm.tag.toNat < 2 ^ 8)

/-- A descriptor names bytes that exist. -/
def sliceWithin (n : Nat) (d : Slice) : Bool := decide (d.off + d.len ≤ n)

/-- A record covers bytes that exist. -/
def eventWithin (n : Nat) : Event → Bool
  | .pkt start fin _ => decide (start < fin) && decide (fin ≤ n)
  | .frm start fin _ => decide (start < fin) && decide (fin ≤ n)

/-- Everything reported names bytes of `IN` that exist (42_packet.md R167, 44_frames.md R210), and a bounded `EVQ`
holds at most `EVQ_DEPTH` records (10_state.md R42, R44). -/
def reportInv (s : State) : Bool :=
  s.params.valid
    && s.descs.all (fun d => sliceWithin s.params.maxInLen d.slice)
    && s.evq.all (eventWithin s.params.maxInLen)
    && match s.params.evqDepth with
      | none => true
      | some d => decide (s.evq.length ≤ d)

end Sys2Proof.Machine
end

