-- ==== Sys2Proof/Certificates/Slice0/Obligations.lean ====
section
/-! DEFINITION. The statements for the provers, from the spec's numbered rules. Each docstring names the rule it
formalises. A statement whose conclusion is one whole state says the instruction's frame as well: every field
the right-hand side does not name is unchanged. -/

open Sys2Proof Sys2Proof.Machine

/-! ## Reset, the host, and the step -/

/-- R290, R46: a reset, between commands or during a hold, puts every register and queue at its reset value,
clears every written mark, and abandons a held command; what is no state of the block stays: the parameters, the
host's coming moves, what it has seen, its descriptors and the model's counter (the model's reading, assumption 21). -/
def Obligations.ResetMoveRestoresTheResetState : Prop :=
  ∀ (s : State) (rest : List HostMove), s.host = .reset :: rest →
    (∀ op, s.pending = some op → holds op s = true) →
    ∃ t, step s = .next t ∧ (∀ r : BitVec 6, regValue r t = if r = 0x01 then 0xF else 0) ∧
      (∀ a, t.mem.read a = none) ∧ t.evq = [] ∧ t.pending = none ∧
      t.params = s.params ∧ t.host = rest ∧ t.seen = s.seen ∧ t.descs = s.descs ∧ t.freeCount = s.freeCount

/-- R20, R80, R81, R263: a host write of `CMD` gives the engine the opcode in bits 7:0, bits 63:8 being ignored; the next
step runs the command that opcode decodes to, unless it holds; and without a command given and without a move of
the host the block is idle (R291). That the write and the command it starts are two steps is the model's reading of R20
(DEDUCED, assumption 4); the counter of commands given, which the free value is applied to, is the model's own
(DESIGN CHOICE, assumption 10). -/
def Obligations.StepRunsTheDecodedCommand : Prop :=
  (∀ (s : State) (v : Word) (rest : List HostMove), s.pending = none → s.host = .write 0x00 v :: rest →
    step s = .next { s with
      host := rest, cmd := v, pending := some (BitVec.ofNat 8 (v.toNat % 256)), freeCount := s.freeCount + 1 }) ∧
  (∀ (s : State) (op : Byte) (i : Instr), s.pending = some op → holds op s = false →
    decodeCommand op = .ok i → step s = exec i { s with pending := none }) ∧
  (∀ s : State, s.pending = none → s.host = [] → step s = .next s)

/-- R82: an opcode that is not in the table of R80 sets `STATUS` to BAD_COMMAND with the opcode and changes nothing
else. -/
def Obligations.UnassignedOpcodeIsBadCommand : Prop :=
  ∀ (s : State) (op : Byte), s.pending = some op →
    op ∉ [0x00, 0x01, 0x02, 0x03, 0x10, 0x11, 0x12, 0x13, 0x20, 0x30] →
    step s = .next { s with pending := none, status := BitVec.ofNat 64 (op.toNat * 256 + 5) }

/-- R297, R44: while a bounded `EVQ` is full, PKT and FRM hold (whatever their outcome would be: the model's reading,
assumption 5): no host move leaves the state as it is, a pop takes the head record and lifts the hold, and any other
move but a reset is no move of the host (R300). With room in `EVQ` they run. The other commands never hold, and with
an unbounded `EVQ` none does. -/
def Obligations.FullQueueHoldsPktAndFrm : Prop :=
  (∀ (s : State) (d : Nat) (op : Byte), s.params.evqDepth = some d → d ≤ s.evq.length →
    s.pending = some op → op = 0x20 ∨ op = 0x30 →
    (s.host = [] → step s = .next s) ∧
    (∀ rest e q, s.host = .pop :: rest → s.evq = e :: q →
      step s = .next { s with host := rest, evq := q, seen := s.seen ++ [.record e] }) ∧
    (∀ m rest, s.host = m :: rest → m ≠ .pop → m ≠ .reset →
      step s = .refused .hostMoveDuringCommand)) ∧
  (∀ (s : State) (d : Nat) (op : Byte) (i : Instr), s.params.evqDepth = some d → s.evq.length < d →
    s.pending = some op → decodeCommand op = .ok i → step s = exec i { s with pending := none }) ∧
  (∀ (s : State) (op : Byte) (i : Instr) (rest : List HostMove) (e : Event) (q : List Event),
    s.params.evqDepth = some s.evq.length → s.pending = some op → op = 0x20 ∨ op = 0x30 →
    decodeCommand op = .ok i → s.host = .pop :: rest → s.evq = e :: q →
    ∃ t, step s = .next t ∧ t.evq = q ∧ step t = exec i { t with pending := none }) ∧
  (∀ (s : State) (op : Byte), s.params.evqDepth = none ∨ (op ≠ 0x20 ∧ op ≠ 0x30) → holds op s = false)

/-- R66, R24, R23: between commands a host write of a host-writable register other than `CMD` only stores the value
(`CTRL` its bits 0 and 12:8), and a write of a read-only or unlisted register is ignored. -/
def Obligations.HostWritesOnlyStore : Prop :=
  ∀ (s : State) (r : BitVec 6) (v : Word) (rest : List HostMove),
    s.pending = none → s.host = .write r v :: rest → r ≠ 0x00 →
    step s = .next { s with
      host := rest
      ctrl := if r = 0x02 then v &&& 0x1F01 else s.ctrl
      cur := if r = 0x03 then v else s.cur
      limit := if r = 0x04 then v else s.limit
      fcur := if r = 0x05 then v else s.fcur
      fend := if r = 0x06 then v else s.fend
      arg := if r = 0x07 then v else s.arg }

/-- R66, R29, R23: a host read of a register that holds a value (`holdsValue`: R29's groups) gives the host that value
and changes nothing else, and a second read in a row gives the same; a read of a result register whose VALID bit is 0
is a fault of the model. The one value that is free is that of `ERR_AT` while `STATUS.CODE` is not 1, 2 or 3
(93_implementation_defined.md U5; the model's choice, assumption 10); that read completes too. The registers stand
under R23's numbers, and an unlisted number reads 0. -/
def Obligations.HostReadHasNoSideEffect : Prop :=
  (∀ (s : State) (r : BitVec 6) (rest : List HostMove), s.pending = none → s.host = .read r :: rest →
    (holdsValue s.valid r.toNat = true → (r ≠ 0x0D ∨ s.status.toNat % 16 ∈ [1, 2, 3]) →
      step s = .next { s with host := rest, seen := s.seen ++ [.reg r (regValue r s)] }) ∧
    (holdsValue s.valid r.toNat = true → ∃ v t,
      t = { s with host := rest, seen := s.seen ++ [.reg r v] } ∧ step s = .next t ∧
      ∀ rest', rest = .read r :: rest' →
        step t = .next { t with host := rest', seen := t.seen ++ [.reg r v] }) ∧
    (holdsValue s.valid r.toNat = false → step s = .fault (.invalidResult r))) ∧
  (∀ s : State, (List.range 64).map (fun n => regValue (BitVec.ofNat 6 n) s) =
    [s.cmd, s.status, s.ctrl, s.cur, s.limit, s.fcur, s.fend, s.arg,
     s.valid, s.vi.value, s.vi.len, s.vi.bytes, s.formPeek, s.errAt, 0, 0,
     s.hdr.form, s.hdr.flags, s.hdr.version, s.hdr.dcidOff, s.hdr.dcidLen, s.hdr.scidOff, s.hdr.scidLen, s.hdr.start,
     s.hdr.aPktType, s.hdr.aPnLen, s.hdr.aIsVn, s.hdr.aSpin, s.hdr.aKeyPhase, s.hdr.aFixed, 0, 0,
     s.pkt.kind, s.pkt.tokenPresent, s.pkt.tokenOff, s.pkt.tokenLen, s.pkt.length, s.pn.pn, s.pn.nbytes, s.pkt.payOff,
     s.pkt.payEnd, s.pkt.vnOff, s.pkt.vnCount, s.pkt.start, s.pkt.fin, 0, 0, 0,
     s.frm.kind, s.frm.tag, s.frm.start, s.frm.fin, s.frm.fields.f0, s.frm.fields.f1, s.frm.fields.f2, s.frm.fields.f3,
     s.frm.fields.f4, s.frm.fields.f5, s.frm.fields.f6, s.frm.fields.f7, s.frm.fields.f8, s.frm.fields.f9, 0, 0])

/-- R41, R40: the host's write of `n` bytes at `IN[a..a+n-1]` sets their marks and their values, leaves every other
byte as it was, makes a reported descriptor stale exactly if it was stale or one of its bytes is written (R293; that
the model keeps this mark is its choice, assumption 11), and changes nothing else. -/
def Obligations.LoadWritesExactlyItsBytes : Prop :=
  ∀ (s : State) (a : Nat) (bytes : List Byte) (rest : List HostMove),
    s.pending = none → s.host = .load a bytes :: rest → a + bytes.length ≤ s.params.maxInLen →
    ∃ t, step s = .next t ∧
      t = { s with host := rest, mem := t.mem, descs := t.descs } ∧
      (∀ k, (h : k < bytes.length) → t.mem.read (a + k) = some bytes[k]) ∧
      (∀ x, x < a ∨ a + bytes.length ≤ x → t.mem.read x = s.mem.read x) ∧
      t.descs.map Descriptor.slice = s.descs.map Descriptor.slice ∧
      (∀ (k : Nat) (d d' : Descriptor), s.descs[k]? = some d → t.descs[k]? = some d' →
        (d'.stale = true ↔ d.stale = true ∨
          ∃ x, d.slice.off ≤ x ∧ x < d.slice.off + d.slice.len ∧ a ≤ x ∧ x < a + bytes.length))

/-- R293: a read through a descriptor one of whose bytes the host has written since it was reported is a fault of
the model, at once or after any number of other steps, since every step keeps a set mark; a step that is no write of
`IN` leaves every descriptor as it is; and a read through a descriptor whose bytes were left alone, by a write
elsewhere too, gives the host those bytes. The read is a move of the model's own host: that there is such a move, and
what it gives, is the model's choice (assumption 11). -/
def Obligations.StaleDescriptorReadFaults : Prop :=
  (∀ (s : State) (k x a : Nat) (d : Descriptor) (bytes : List Byte) (rest : List HostMove),
    s.pending = none → s.host = .load a bytes :: .deref k :: rest → a + bytes.length ≤ s.params.maxInLen →
    s.descs[k]? = some d → d.slice.off ≤ x → x < d.slice.off + d.slice.len → a ≤ x → x < a + bytes.length →
    ∃ t, step s = .next t ∧ step t = .fault (.staleDescriptor k)) ∧
  (∀ (s : State) (k : Nat) (d : Slice) (rest : List HostMove),
    s.pending = none → s.host = .deref k :: rest → s.descs[k]? = some ⟨d, true⟩ →
    step s = .fault (.staleDescriptor k)) ∧
  (∀ (s t : State) (k : Nat) (d : Slice), step s = .next t → s.descs[k]? = some ⟨d, true⟩ →
    t.descs[k]? = some ⟨d, true⟩) ∧
  (∀ (s t : State) (k : Nat) (d : Descriptor), step s = .next t →
    (s.pending = none → ∀ a bytes rest, s.host ≠ .load a bytes :: rest) →
    s.descs[k]? = some d → t.descs[k]? = some d) ∧
  (∀ (s : State) (k : Nat) (d : Slice) (bytes : List Byte) (rest : List HostMove),
    s.pending = none → s.host = .deref k :: rest → s.descs[k]? = some ⟨d, false⟩ →
    bytesAt s.mem d.off d.len = some bytes →
    step s = .next { s with host := rest, seen := s.seen ++ [.bytes d bytes] }) ∧
  (∀ (s : State) (k a : Nat) (d : Slice) (old new : List Byte) (rest : List HostMove),
    s.pending = none → s.host = .load a new :: .deref k :: rest → a + new.length ≤ s.params.maxInLen →
    s.descs[k]? = some ⟨d, false⟩ → bytesAt s.mem d.off d.len = some old →
    (∀ x, d.off ≤ x → x < d.off + d.len → x < a ∨ a + new.length ≤ x) →
    ∃ t, step s = .next t ∧ step t = .next { t with host := rest, seen := t.seen ++ [.bytes d old] })

/-- R69, R42: the records popped, followed by those still queued, only grow, by at most one record a step and at the
end: records are appended in command order and popped in the same order. (A reset empties the queue, R290.) A pop
between commands removes the head record, gives it to the host, and changes nothing else (R66, R300). -/
def Obligations.RecordsAreQueuedAndPoppedInOrder : Prop :=
  (∀ s t : State, step s = .next t → (∀ rest, s.host ≠ .reset :: rest) →
    ∃ l : List Event, l.length ≤ 1 ∧ popped t ++ t.evq = popped s ++ s.evq ++ l) ∧
  (∀ (s : State) (e : Event) (q : List Event) (rest : List HostMove),
    s.pending = none → s.host = .pop :: rest → s.evq = e :: q →
    step s = .next { s with host := rest, evq := q, seen := s.seen ++ [.record e] })

/-- R272, R47: instances share no state: a step of one leaves every other as it was, whatever the other does next, and
steps of two instances give the same states in either order. -/
def Obligations.InstancesDoNotInterfere : Prop :=
  (∀ (m m1 : Instances) (j k : Nat), j ≠ k → stepInstance j m = .next m1 → m1[k]? = m[k]?) ∧
  (∀ (m m1 m2 : Instances) (j k : Nat), j ≠ k →
    stepInstance j m = .next m1 → stepInstance k m1 = .next m2 →
    ∃ m3, stepInstance k m = .next m3 ∧ stepInstance j m3 = .next m2)

/-! ## VarInt codec -/

/-- R113: the encoded size of a VarInt value is the least of 1, 2, 4, 8 whose value bits hold it, and the encoding is
the class over the value in that many bytes. -/
def Obligations.EncodingIsTheShortest : Prop :=
  ∀ v : Nat, v ≤ varIntMax →
    encodedSize v ∈ [1, 2, 4, 8] ∧ v < 2 ^ (8 * encodedSize v - 2) ∧
    (∀ n ∈ [1, 2, 4, 8], v < 2 ^ (8 * n - 2) → encodedSize v ≤ n) ∧
    ∃ cls, 2 ^ cls = encodedSize v ∧ encWord v = cls * 2 ^ (8 * encodedSize v - 2) + v ∧
      encWord v < 2 ^ (8 * encodedSize v)

/-- R114, R110: VENC of a value of the VarInt range writes the value, its length and its encoding, and sets VALID bits
0 to 2; from `2^62` up it is OUT_OF_RANGE with `ERR_AT` 0 and clears them. -/
def Obligations.VencEncodes : Prop :=
  ∀ s : State,
    (s.arg.toNat < 2 ^ 62 →
      exec .venc s = .next { s with
        vi := { value := s.arg
                len := BitVec.ofNat 64 (encodedSize s.arg.toNat)
                bytes := BitVec.ofNat 64 (encWord s.arg.toNat) }
        valid := s.valid ||| 0x07
        status := 0x0200 }) ∧
    (2 ^ 62 ≤ s.arg.toNat → exec .venc s = .next (failed s 0x0202 0x07 0))

/-- R115: VSIZE writes the value and its encoded size, sets VALID bits 0 and 1 and clears bit 2; from `2^62` up it is
OUT_OF_RANGE. -/
def Obligations.VsizeSizes : Prop :=
  ∀ s : State,
    (s.arg.toNat < 2 ^ 62 →
      exec .vsize s = .next { s with
        vi := { value := s.arg
                len := if s.arg.toNat < 64 then 1 else if s.arg.toNat < 16384 then 2
                       else if s.arg.toNat < 1073741824 then 4 else 8
                bytes := s.vi.bytes }
        valid := s.valid &&& ~~~0x04 ||| 0x03
        status := 0x0300 }) ∧
    (2 ^ 62 ≤ s.arg.toNat → exec .vsize s = .next (failed s 0x0302 0x07 0))

/-- R112: VDEC at a VarInt that ends before `LIMIT` writes its value and length, advances `CUR` past it, sets VALID bits
0 and 1 and clears bit 2. A VarInt cut by `LIMIT`, or missing, is TRUNCATED at `LIMIT`; a bad cursor is OUT_OF_RANGE at
`CUR`; both clear bits 0 to 2. -/
def Obligations.VdecDecodes : Prop :=
  ∀ s : State,
    (∀ (v : U62) (n : Nat), packetWindow s = true →
      varIntAt s.mem s.cur.toNat = some (v, n) → s.cur.toNat + n ≤ s.limit.toNat →
      exec .vdec s = .next { s with
        vi := { value := BitVec.ofNat 64 v.toNat, len := BitVec.ofNat 64 n, bytes := s.vi.bytes }
        valid := s.valid &&& ~~~0x04 ||| 0x03
        cur := BitVec.ofNat 64 (s.cur.toNat + n)
        status := 0x0100 }) ∧
    (packetWindow s = true → writtenFrom s.mem s.cur.toNat s.limit.toNat →
      (∀ b, s.cur.toNat < s.limit.toNat → s.mem.read s.cur.toNat = some b →
        s.limit.toNat < s.cur.toNat + 2 ^ (b.toNat / 64)) →
      exec .vdec s = .next (failed s 0x0101 0x07 s.limit.toNat)) ∧
    (packetWindow s = false → exec .vdec s = .next (failed s 0x0102 0x07 s.cur.toNat))

/-- R111, R88: each VarInt class reads its own number of bytes after the first, most significant first, below the
first byte's six value bits. -/
def Obligations.VarIntClassesDecode : Prop :=
  ∀ (s : State) (high : BitVec 6) (x : Nat), packetWindow s = true →
    let after (n : Nat) : State := { s with
      vi := { value := BitVec.ofNat 64 (high.toNat * 256 ^ (n - 1) + x), len := BitVec.ofNat 64 n,
              bytes := s.vi.bytes }
      valid := s.valid &&& ~~~0x04 ||| 0x03
      cur := BitVec.ofNat 64 (s.cur.toNat + n)
      status := 0x0100 }
    let fits (n : Nat) : Prop :=
      valueAt s.mem (s.cur.toNat + 1) (n - 1) = some x ∧ s.cur.toNat + n ≤ s.limit.toNat
    (fits 1 → exec (.varint1B high) s = .next (after 1)) ∧
    (fits 2 → exec (.varint2B high) s = .next (after 2)) ∧
    (fits 4 → exec (.varint4B high) s = .next (after 4)) ∧
    (fits 8 → exec (.varint8B high) s = .next (after 8))

/-- R111, R112: VDEC runs the class its first byte selects. -/
def Obligations.VdecRunsTheClassItMeets : Prop :=
  ∀ (s : State) (b : Byte), packetWindow s = true → s.cur.toNat < s.limit.toNat →
    s.mem.read s.cur.toNat = some b → exec .vdec s = exec (decodeVarIntFirst b) s

/-- R116 (law 1): decoding the bytes of `Enc(v)` gives `v` and its encoded size. -/
def Obligations.DecodingAnEncodingGivesItBack : Prop :=
  ∀ (s : State) (v : Nat), v ≤ varIntMax → packetWindow s = true →
    valueAt s.mem s.cur.toNat (encodedSize v) = some (encWord v) →
    s.cur.toNat + encodedSize v ≤ s.limit.toNat →
    ∃ t, exec .vdec s = .next t ∧ t.vi.value.toNat = v ∧ t.vi.len.toNat = encodedSize v

/-! ## Header parser -/

/-- R130: NOP sets `STATUS` to OK with opcode 0 and changes nothing else. -/
def Obligations.NopWritesStatusOnly : Prop :=
  ∀ s : State, exec .nop s = .next { s with status := 0 }

/-- R131: PEEK writes bit 7 of the byte at `CUR`, sets VALID bit 3 and does not advance; at the limit it is TRUNCATED
at `CUR`, with a bad cursor OUT_OF_RANGE there, and both clear bit 3. -/
def Obligations.PeekShowsTheForm : Prop :=
  ∀ s : State,
    (∀ b, packetWindow s = true → s.cur.toNat < s.limit.toNat → s.mem.read s.cur.toNat = some b →
      exec .peek s = .next { s with
        formPeek := BitVec.ofNat 64 (b.toNat / 128), valid := s.valid ||| 0x08, status := 0x1000 }) ∧
    (packetWindow s = true → s.cur = s.limit → exec .peek s = .next (failed s 0x1001 0x08 s.cur.toNat)) ∧
    (packetWindow s = false → exec .peek s = .next (failed s 0x1002 0x08 s.cur.toNat))

/-- R138, R137, R140 to R145: HDRL at a long header that ends before `LIMIT` and passes the fixed-bit check writes the
header group with its accessors, advances `CUR` past the SCID, and clears the VALID bits of the packet and
packet-number groups. -/
def Obligations.HdrlDecodesALongHeader : Prop :=
  ∀ (s : State) (flags : Byte) (version : U32) (dcid scid : Slice), packetWindow s = true →
    s.mem.read s.cur.toNat = some flags → 128 ≤ flags.toNat →
    longHeaderAt s.mem s.cur.toNat flags = some (.long flags version dcid scid) →
    fixedBitOkLong s flags version = true →
    s.cur.toNat + (7 + dcid.len + scid.len) ≤ s.limit.toNat →
    exec .hdrl s = .next (afterHeader s 0x1100 (longRegs flags version dcid scid s.cur) [dcid, scid]
      (s.cur.toNat + (7 + dcid.len + scid.len)))

/-- R139, R137, R140 to R145: HDRS at a short header that ends before `LIMIT` and passes the fixed-bit check writes the
header group, with a DCID of the configured length, and advances `CUR` to the packet number. -/
def Obligations.HdrsDecodesAShortHeader : Prop :=
  ∀ (s : State) (flags : Byte), packetWindow s = true →
    s.mem.read s.cur.toNat = some flags → flags.toNat < 128 → shortDcidLen s.ctrl ≤ 20 →
    fixedBitOkShort s flags = true → s.cur.toNat + (1 + shortDcidLen s.ctrl) ≤ s.limit.toNat →
    let dcid : Slice := ⟨s.cur.toNat + 1, shortDcidLen s.ctrl⟩
    exec .hdrs s = .next (afterHeader s 0x1200 (shortRegs flags dcid s.cur) [dcid]
      (s.cur.toNat + (1 + shortDcidLen s.ctrl)))

/-- R133 to R136, R160: HDRL at a first byte with bit 7 clear, and HDRS at one with bit 7 set, are MALFORMED_TAG at the
first byte; so, with ENFORCE_FIXED_BIT set, is a clear fixed bit, for HDRS and PKT in a short header and for HDRL and
PKT in a long header of nonzero version once the version is read. -/
def Obligations.WrongFirstByteIsMalformed : Prop :=
  ∀ (s : State) (flags : Byte), packetWindow s = true → s.cur.toNat < s.limit.toNat →
    s.mem.read s.cur.toNat = some flags →
    (flags.toNat < 128 → exec .hdrl s = .next (failed s 0x1103 0x70 s.cur.toNat)) ∧
    (128 ≤ flags.toNat → shortDcidLen s.ctrl ≤ 20 → exec .hdrs s = .next (failed s 0x1203 0x70 s.cur.toNat)) ∧
    (∀ v, 128 ≤ flags.toNat → s.ctrl.toNat % 2 = 1 → flags.toNat / 64 % 2 = 0 →
      valueAt s.mem (s.cur.toNat + 1) 4 = some v → v ≠ 0 → s.cur.toNat + 5 ≤ s.limit.toNat →
      exec .hdrl s = .next (failed s 0x1103 0x70 s.cur.toNat) ∧
      exec .pkt s = .next (failed s 0x2003 0xF0 s.cur.toNat)) ∧
    (flags.toNat < 128 → s.ctrl.toNat % 2 = 1 → flags.toNat / 64 % 2 = 0 → shortDcidLen s.ctrl ≤ 20 →
      exec .hdrs s = .next (failed s 0x1203 0x70 s.cur.toNat) ∧
      exec .pkt s = .next (failed s 0x2003 0xF0 s.cur.toNat))

/-- R132, R136, R160: a connection-ID length above 20 is OUT_OF_RANGE, for HDRL and PKT in a long header at the length
byte, the DCID's or the SCID's; for the short header's configured length at `CUR`, for HDRS before anything is read and
for PKT once the first byte has shown a short header. -/
def Obligations.LongConnectionIdIsOutOfRange : Prop :=
  ∀ s : State,
    let outOfRange (at' : Nat) : Prop :=
      exec .hdrl s = .next (failed s 0x1102 0x70 at') ∧ exec .pkt s = .next (failed s 0x2002 0xF0 at')
    let c := s.cur.toNat
    (∀ flags n : Byte, longStart s flags → s.mem.read (c + 5) = some n → 20 < n.toNat → c + 6 ≤ s.limit.toNat →
      outOfRange (c + 5)) ∧
    (∀ flags dl n : Byte, longStart s flags → s.mem.read (c + 5) = some dl → dl.toNat ≤ 20 →
      s.mem.read (c + 6 + dl.toNat) = some n → 20 < n.toNat → c + 7 + dl.toNat ≤ s.limit.toNat →
      outOfRange (c + 6 + dl.toNat)) ∧
    (packetWindow s = true → 20 < shortDcidLen s.ctrl →
      exec .hdrs s = .next (failed s 0x1202 0x70 c) ∧
      (∀ flags : Byte, s.mem.read c = some flags → flags.toNat < 128 → c < s.limit.toNat →
        exec .pkt s = .next (failed s 0x2002 0xF0 c)))

/-- R147: PNDEC reads a big-endian field of `ARG` bytes, 1 to 4, sets VALID bit 5, clears bit 6, and advances past it;
another width, and a bad cursor, are OUT_OF_RANGE at `CUR`, and a field cut by `LIMIT` is TRUNCATED at `CUR`; the
failures clear bits 5 and 6. -/
def Obligations.PndecReadsTheGivenWidth : Prop :=
  ∀ s : State,
    (∀ v, packetWindow s = true → 1 ≤ s.arg.toNat → s.arg.toNat ≤ 4 →
      valueAt s.mem s.cur.toNat s.arg.toNat = some v → s.cur.toNat + s.arg.toNat ≤ s.limit.toNat →
      exec .pndec s = .next { s with
        pn := { pn := BitVec.ofNat 64 v, nbytes := s.arg }
        valid := s.valid &&& ~~~0x40 ||| 0x20
        cur := BitVec.ofNat 64 (s.cur.toNat + s.arg.toNat)
        status := 0x1300 }) ∧
    (packetWindow s = true → s.arg.toNat < 1 ∨ 4 < s.arg.toNat →
      exec .pndec s = .next (failed s 0x1302 0x60 s.cur.toNat)) ∧
    (packetWindow s = true → 1 ≤ s.arg.toNat → s.arg.toNat ≤ 4 →
      s.limit.toNat < s.cur.toNat + s.arg.toNat →
      exec .pndec s = .next (failed s 0x1301 0x60 s.cur.toNat)) ∧
    (packetWindow s = false → exec .pndec s = .next (failed s 0x1302 0x60 s.cur.toNat))

/-- R26, R27, R260: a command that uses a cursor first checks it against its limit and `MAX_IN_LEN`; if the check
fails the command is OUT_OF_RANGE at the cursor. -/
def Obligations.BadCursorIsOutOfRange : Prop :=
  ∀ s : State,
    (packetWindow s = false →
      exec .hdrl s = .next (failed s 0x1102 0x70 s.cur.toNat) ∧
      exec .hdrs s = .next (failed s 0x1202 0x70 s.cur.toNat) ∧
      exec .pkt s = .next (failed s 0x2002 0xF0 s.cur.toNat)) ∧
    (frameWindow s = false → exec .frm s = .next (failed s 0x3002 0x80 s.fcur.toNat))

/-! ## Packet reader -/

/-- R160, R161, R162: PKT runs the packet class its first byte and version select: bit 7 clear is SHORT; otherwise
version 0 is VERSION_NEGOTIATION, and any other version goes by bits 5:4. -/
def Obligations.PktRunsTheClassItMeets : Prop :=
  ∀ (s : State) (b : Byte), packetWindow s = true → s.cur.toNat < s.limit.toNat →
    s.mem.read s.cur.toNat = some b →
    (b.toNat < 128 → exec .pkt s = exec (decodePacketFirst false b) s) ∧
    (∀ v, 128 ≤ b.toNat → s.cur.toNat + 5 ≤ s.limit.toNat → valueAt s.mem (s.cur.toNat + 1) 4 = some v →
      exec .pkt s = exec (decodePacketFirst (v == 0) b) s)

/-- R264: a long header cut inside its version is TRUNCATED just past the first byte, whatever its fixed bit; and PKT
without a first byte is TRUNCATED at `CUR`. -/
def Obligations.CutVersionIsTruncated : Prop :=
  ∀ s : State, packetWindow s = true →
    (∀ b : Byte, s.mem.read s.cur.toNat = some b → 128 ≤ b.toNat → s.cur.toNat < s.limit.toNat →
      s.limit.toNat < s.cur.toNat + 5 →
      exec .pkt s = .next (failed s 0x2001 0xF0 (s.cur.toNat + 1)) ∧
      exec .hdrl s = .next (failed s 0x1101 0x70 (s.cur.toNat + 1))) ∧
    (s.cur = s.limit → exec .pkt s = .next (failed s 0x2001 0xF0 s.cur.toNat))

/-- R261, R133, R139, R164: a header field that `LIMIT` cuts is TRUNCATED at the start of that field: for HDRL and PKT a
missing connection-ID length byte and a cut connection ID of a long header, for HDRS and PKT the connection ID of a
short header, for HDRL and HDRS a missing first byte; and an Initial token longer than the bytes left is TRUNCATED at
the token. -/
def Obligations.CutHeaderFieldIsTruncated : Prop :=
  ∀ s : State,
    let truncated (at' : Nat) : Prop :=
      exec .hdrl s = .next (failed s 0x1101 0x70 at') ∧ exec .pkt s = .next (failed s 0x2001 0xF0 at')
    let c := s.cur.toNat
    (packetWindow s = true → s.cur = s.limit →
      exec .hdrl s = .next (failed s 0x1101 0x70 c) ∧
      (shortDcidLen s.ctrl ≤ 20 → exec .hdrs s = .next (failed s 0x1201 0x70 c))) ∧
    (∀ flags : Byte, longStart s flags →
      (s.limit.toNat = c + 5 → truncated (c + 5)) ∧
      (∀ dl : Byte, s.mem.read (c + 5) = some dl → dl.toNat ≤ 20 → c + 6 ≤ s.limit.toNat →
        (s.limit.toNat < c + 6 + dl.toNat → truncated (c + 6)) ∧
        (s.limit.toNat = c + 6 + dl.toNat → truncated (c + 6 + dl.toNat)) ∧
        (∀ sl : Byte, s.mem.read (c + 6 + dl.toNat) = some sl → sl.toNat ≤ 20 → c + 7 + dl.toNat ≤ s.limit.toNat →
          s.limit.toNat < c + 7 + dl.toNat + sl.toNat → truncated (c + 7 + dl.toNat)))) ∧
    (∀ flags : Byte, packetWindow s = true → s.mem.read c = some flags → flags.toNat < 128 → c < s.limit.toNat →
      shortDcidLen s.ctrl ≤ 20 → fixedBitOkShort s flags = true → s.limit.toNat < c + 1 + shortDcidLen s.ctrl →
      exec .hdrs s = .next (failed s 0x1201 0x70 (c + 1)) ∧
      exec .pkt s = .next (failed s 0x2001 0xF0 (c + 1))) ∧
    (∀ (fixed : Bool) (reserved pnl : BitVec 2) (version : U32) (dcid scid : Slice) (tl : U62) (k : Nat),
      packetWindow s = true →
      let flags := encode (.pktInitial fixed reserved pnl)
      let q := c + (7 + dcid.len + scid.len)
      longHeaderAt s.mem c flags = some (.long flags version dcid scid) → version ≠ 0 →
      fixedBitOkLong s flags version = true → varIntAt s.mem q = some (tl, k) → q + k ≤ s.limit.toNat →
      s.limit.toNat < q + k + tl.toNat →
      exec (.pktInitial fixed reserved pnl) s = .next (failed s 0x2001 0xF0 (q + k)))

/-- R163, R172: a Version Negotiation packet, a long header of version 0 and 32-bit words up to `LIMIT`: PKT reports the
words and an empty frame window at `LIMIT`. A partial last word is TRUNCATED at its start. -/
def Obligations.VersionNegotiationIsRead : Prop :=
  ∀ (s : State) (low : BitVec 7) (dcid scid : Slice), packetWindow s = true →
    let flags := encode (.pktVersionNegotiation low)
    let hdr : Header := .long flags 0 dcid scid
    let q := s.cur.toNat + (7 + dcid.len + scid.len)
    longHeaderAt s.mem s.cur.toNat flags = some hdr → q ≤ s.limit.toNat →
    (∀ versions, (s.limit.toNat - q) % 4 = 0 →
      wordsAt s.mem q ((s.limit.toNat - q) / 4) = some versions →
      exec (.pktVersionNegotiation low) s = .next (afterPacket s (longRegs flags 0 dcid scid s.cur)
        { kind := 0, tokenPresent := 0, tokenOff := 0, tokenLen := 0, length := 0,
          payOff := s.limit, payEnd := s.limit,
          vnOff := BitVec.ofNat 64 q, vnCount := BitVec.ofNat 64 ((s.limit.toNat - q) / 4),
          start := s.cur, fin := s.limit }
        none (.versionNegotiation hdr versions) [dcid, scid, ⟨s.limit.toNat, 0⟩] s.limit.toNat)) ∧
    ((s.limit.toNat - q) % 4 ≠ 0 →
      exec (.pktVersionNegotiation low) s =
        .next (failed s 0x2001 0xF0 (q + 4 * ((s.limit.toNat - q) / 4))))

/-- R164, R167, R172: an Initial packet: a long header of nonzero version, a token (absent if its length is 0), and what
the Length field frames, counted with or without the packet number as `LENGTH_INCLUDES_PN` says. -/
def Obligations.InitialIsRead : Prop :=
  ∀ (s : State) (fixed : Bool) (reserved pnl : BitVec 2) (version : U32) (dcid scid : Slice) (tl : U62)
    (k : Nat) (body : Framed) (e : Nat), packetWindow s = true →
    let flags := encode (.pktInitial fixed reserved pnl)
    let hdr : Header := .long flags version dcid scid
    let q := s.cur.toNat + (7 + dcid.len + scid.len)
    longHeaderAt s.mem s.cur.toNat flags = some hdr → version ≠ 0 → fixedBitOkLong s flags version = true →
    varIntAt s.mem q = some (tl, k) →
    framedAt s.params.lengthIncludesPn (pnl.toNat + 1) s.mem (q + k + tl.toNat) = some (body, e) →
    e ≤ s.limit.toNat →
    exec (.pktInitial fixed reserved pnl) s = .next (afterPacket s (longRegs flags version dcid scid s.cur)
      { kind := 1
        tokenPresent := if tl = 0 then 0 else 1
        tokenOff := if tl = 0 then 0 else BitVec.ofNat 64 (q + k)
        tokenLen := BitVec.ofNat 64 tl.toNat
        length := BitVec.ofNat 64 body.length.toNat
        payOff := BitVec.ofNat 64 body.payload.off, payEnd := BitVec.ofNat 64 e
        vnOff := 0, vnCount := 0, start := s.cur, fin := BitVec.ofNat 64 e }
      (some { pn := BitVec.ofNat 64 body.pn.toNat, nbytes := BitVec.ofNat 64 (pnl.toNat + 1) })
      (.initial hdr (if tl = 0 then none else some ⟨q + k, tl.toNat⟩) body)
      ([dcid, scid] ++ (if tl = 0 then [] else [⟨q + k, tl.toNat⟩]) ++ [body.payload]) e)

/-- R165, R167, R172: a ZeroRTT and a Handshake packet: a long header of nonzero version and what the Length field
frames. -/
def Obligations.ZeroRttAndHandshakeAreRead : Prop :=
  ∀ (s : State) (fixed : Bool) (reserved pnl : BitVec 2) (version : U32) (dcid scid : Slice)
    (body : Framed) (e : Nat), packetWindow s = true → version ≠ 0 →
    let q := s.cur.toNat + (7 + dcid.len + scid.len)
    let fits (flags : Byte) : Prop :=
      longHeaderAt s.mem s.cur.toNat flags = some (.long flags version dcid scid) ∧
      fixedBitOkLong s flags version = true ∧
      framedAt s.params.lengthIncludesPn (pnl.toNat + 1) s.mem q = some (body, e) ∧ e ≤ s.limit.toNat
    let after (kind : Word) (flags : Byte) (p : Packet) : State :=
      afterPacket s (longRegs flags version dcid scid s.cur)
        { kind := kind, tokenPresent := 0, tokenOff := 0, tokenLen := 0
          length := BitVec.ofNat 64 body.length.toNat
          payOff := BitVec.ofNat 64 body.payload.off, payEnd := BitVec.ofNat 64 e
          vnOff := 0, vnCount := 0, start := s.cur, fin := BitVec.ofNat 64 e }
        (some { pn := BitVec.ofNat 64 body.pn.toNat, nbytes := BitVec.ofNat 64 (pnl.toNat + 1) })
        p [dcid, scid, body.payload] e
    let zero := encode (.pktZeroRtt fixed reserved pnl)
    let hand := encode (.pktHandshake fixed reserved pnl)
    (fits zero → exec (.pktZeroRtt fixed reserved pnl) s =
      .next (after 2 zero (.zeroRtt (.long zero version dcid scid) body))) ∧
    (fits hand → exec (.pktHandshake fixed reserved pnl) s =
      .next (after 3 hand (.handshake (.long hand version dcid scid) body)))

/-- R168, R172: a Retry packet: a long header of nonzero version and a token that runs to `LIMIT`, possibly empty; no
packet number, and an empty frame window at `LIMIT`. -/
def Obligations.RetryIsRead : Prop :=
  ∀ (s : State) (fixed : Bool) (unused : BitVec 4) (version : U32) (dcid scid : Slice), packetWindow s = true →
    let flags := encode (.pktRetry fixed unused)
    let hdr : Header := .long flags version dcid scid
    let q := s.cur.toNat + (7 + dcid.len + scid.len)
    longHeaderAt s.mem s.cur.toNat flags = some hdr → version ≠ 0 → fixedBitOkLong s flags version = true →
    q ≤ s.limit.toNat →
    let token : Slice := ⟨q, s.limit.toNat - q⟩
    exec (.pktRetry fixed unused) s = .next (afterPacket s (longRegs flags version dcid scid s.cur)
      { kind := 4, tokenPresent := 1, tokenOff := BitVec.ofNat 64 q
        tokenLen := BitVec.ofNat 64 (s.limit.toNat - q), length := 0
        payOff := s.limit, payEnd := s.limit, vnOff := 0, vnCount := 0, start := s.cur, fin := s.limit }
      none (.retry hdr token) [dcid, scid, token, ⟨s.limit.toNat, 0⟩] s.limit.toNat)

/-- R169, R172: a Short packet, met by PKT or run as its class: the configured DCID, a packet number of the declared
width, and a payload up to `LIMIT`, possibly empty. -/
def Obligations.ShortPacketIsRead : Prop :=
  ∀ (s : State) (fixed spin : Bool) (reserved : BitVec 2) (keyPhase : Bool) (pnl : BitVec 2) (v : Nat),
    packetWindow s = true →
    let i : Instr := .pktShort fixed spin reserved keyPhase pnl
    let flags := encode i
    let dcid : Slice := ⟨s.cur.toNat + 1, shortDcidLen s.ctrl⟩
    let hdr : Header := .short flags dcid
    let q := s.cur.toNat + (1 + shortDcidLen s.ctrl)
    let n := pnl.toNat + 1
    shortDcidLen s.ctrl ≤ 20 → fixedBitOkShort s flags = true →
    valueAt s.mem q n = some v → q + n ≤ s.limit.toNat →
    let payload : Slice := ⟨q + n, s.limit.toNat - (q + n)⟩
    let after := afterPacket s (shortRegs flags dcid s.cur)
      { kind := 5, tokenPresent := 0, tokenOff := 0, tokenLen := 0, length := 0
        payOff := BitVec.ofNat 64 (q + n), payEnd := s.limit, vnOff := 0, vnCount := 0
        start := s.cur, fin := s.limit }
      (some { pn := BitVec.ofNat 64 v, nbytes := BitVec.ofNat 64 n })
      (.short hdr n (BitVec.ofNat 32 v) payload) [dcid, payload] s.limit.toNat
    exec i s = .next after ∧ (s.mem.read s.cur.toNat = some flags → exec .pkt s = .next after)

/-- R169, R173: a Short packet whose packet number is cut by `LIMIT` is TRUNCATED at the packet number. -/
def Obligations.CutPacketNumberIsTruncated : Prop :=
  ∀ (s : State) (fixed spin : Bool) (reserved : BitVec 2) (keyPhase : Bool) (pnl : BitVec 2),
    packetWindow s = true →
    let i : Instr := .pktShort fixed spin reserved keyPhase pnl
    let q := s.cur.toNat + (1 + shortDcidLen s.ctrl)
    shortDcidLen s.ctrl ≤ 20 → fixedBitOkShort s (encode i) = true →
    q ≤ s.limit.toNat → s.limit.toNat < q + (pnl.toNat + 1) →
    exec i s = .next (failed s 0x2001 0xF0 q)

/-- R167, R111, for INITIAL (after its token), ZERO_RTT and HANDSHAKE: a Length field that `LIMIT` cuts, or that is
missing, is TRUNCATED at `LIMIT`, and so is the Token Length of INITIAL; with `LENGTH_INCLUDES_PN`, a Length below the
packet-number width is OUT_OF_RANGE at the Length field, before any truncation of the body, and a Length greater than
the bytes left is TRUNCATED just past the field; without it, a cut packet number is TRUNCATED just past the field, and a
Length greater than the bytes left after the packet number just past that. -/
def Obligations.BadLengthFieldFails : Prop :=
  ∀ (s : State) (fixed : Bool) (reserved pnl : BitVec 2) (version : U32) (dcid scid : Slice),
    packetWindow s = true → version ≠ 0 →
    let n := pnl.toNat + 1
    let q := s.cur.toNat + (7 + dcid.len + scid.len)
    let header (i : Instr) : Prop :=
      longHeaderAt s.mem s.cur.toNat (encode i) = some (.long (encode i) version dcid scid) ∧
      fixedBitOkLong s (encode i) version = true
    let cut (i : Instr) (at' : Nat) : Prop :=
      at' ≤ s.limit.toNat → writtenFrom s.mem at' s.limit.toNat →
      (∀ v k, varIntAt s.mem at' = some (v, k) → s.limit.toNat < at' + k) →
      exec i s = .next (failed s 0x2001 0xF0 s.limit.toNat)
    let fails (i : Instr) (at' : Nat) : Prop :=
      cut i at' ∧
      ∀ (length : U62) (k : Nat), varIntAt s.mem at' = some (length, k) → at' + k ≤ s.limit.toNat →
        (s.params.lengthIncludesPn = true →
          (length.toNat < n → exec i s = .next (failed s 0x2002 0xF0 at')) ∧
          (n ≤ length.toNat → s.limit.toNat < at' + k + length.toNat →
            exec i s = .next (failed s 0x2001 0xF0 (at' + k)))) ∧
        (s.params.lengthIncludesPn = false →
          (s.limit.toNat < at' + k + n → exec i s = .next (failed s 0x2001 0xF0 (at' + k))) ∧
          (∀ v, valueAt s.mem (at' + k) n = some v → at' + k + n ≤ s.limit.toNat →
            s.limit.toNat < at' + k + n + length.toNat →
            exec i s = .next (failed s 0x2001 0xF0 (at' + k + n))))
    let initial : Instr := .pktInitial fixed reserved pnl
    let zeroRtt : Instr := .pktZeroRtt fixed reserved pnl
    let handshake : Instr := .pktHandshake fixed reserved pnl
    (header initial → cut initial q) ∧
    (header initial → ∀ (tl : U62) (j : Nat), varIntAt s.mem q = some (tl, j) → q + j + tl.toNat ≤ s.limit.toNat →
      fails initial (q + j + tl.toNat)) ∧
    (header zeroRtt → fails zeroRtt q) ∧
    (header handshake → fails handshake q)

/-! ## Frame reader -/

/-- R190, R192: FRM runs the frame class its tag selects. -/
def Obligations.FrmRunsTheClassOfItsTag : Prop :=
  ∀ (s : State) (tag : Byte) (i : Instr), frameWindow s = true → s.fcur.toNat < s.fend.toNat →
    s.mem.read s.fcur.toNat = some tag → decodeTag s.params.datagramEnabled tag = .ok i →
    exec .frm s = exec i s

/-- R196: on an empty window FRM reports END, clears VALID bit 7, and changes nothing else. -/
def Obligations.EmptyWindowEndsTheFrames : Prop :=
  ∀ s : State, frameWindow s = true → s.fcur = s.fend →
    exec .frm s = .next { s with valid := s.valid &&& ~~~0x80, status := 0x3004 }

/-- R191, R197: the admitted tags are 0x00 to 0x1E, and 0x30 and 0x31 if `DATAGRAM_ENABLED`; they and no other byte are
a frame class. Any other tag is MALFORMED_TAG at the tag and consumes nothing. -/
def Obligations.UnknownTagIsMalformed : Prop :=
  (∀ (datagram : Bool) (tag : Byte), (∃ i, decodeTag datagram tag = .ok i) ↔
    tag.toNat ≤ 0x1E ∨ datagram = true ∧ (tag.toNat = 0x30 ∨ tag.toNat = 0x31)) ∧
  (∀ (s : State) (tag : Byte), frameWindow s = true → s.fcur.toNat < s.fend.toNat →
    s.mem.read s.fcur.toNat = some tag → 0x1E < tag.toNat →
    (tag.toNat ≠ 0x30 ∧ tag.toNat ≠ 0x31 ∨ s.params.datagramEnabled = false) →
    exec .frm s = .next (failed s 0x3003 0x80 s.fcur.toNat))

/-- R211, R212, R230, R195: PADDING, PING and HANDSHAKE_DONE are one byte and one record each, run as their class or
met by FRM. -/
def Obligations.FieldlessFramesAreOneByte : Prop :=
  ∀ s : State, frameWindow s = true → s.fcur.toNat < s.fend.toNat →
    let after (kind tag : Word) (f : Frame) : State := afterFrame s kind tag {} f [] (s.fcur.toNat + 1)
    exec .framePadding s = .next (after 0 0x00 .padding) ∧
    exec .framePing s = .next (after 1 0x01 .ping) ∧
    exec .frameHandshakeDone s = .next (after 19 0x1E .handshakeDone) ∧
    (s.mem.read s.fcur.toNat = some 0x00 → exec .frm s = .next (after 0 0x00 .padding)) ∧
    (s.mem.read s.fcur.toNat = some 0x01 → exec .frm s = .next (after 1 0x01 .ping)) ∧
    (s.mem.read s.fcur.toNat = some 0x1E → exec .frm s = .next (after 19 0x1E .handshakeDone))

/-- R214, R215, R219 to R224, R226: the frames that are VarInts and nothing else: MAX_DATA, DATA_BLOCKED,
RETIRE_CONNECTION_ID, MAX_STREAMS and STREAMS_BLOCKED (one; the tag's low bit says unidirectional), STOP_SENDING,
MAX_STREAM_DATA and STREAM_DATA_BLOCKED (two), RESET_STREAM (three). Each writes its registers and its record; cut by
`FEND` anywhere after its tag it is TRUNCATED at `FEND`. -/
def Obligations.VarIntFramesAreRead : Prop :=
  ∀ s : State, frameWindow s = true →
    let reads (i : Instr) (kind tag : Word) (vs : List U62) (fields : FieldRegs) (f : Frame) : Prop :=
      ∀ e, varIntsAt s.mem (s.fcur.toNat + 1) vs.length = some (vs, e) → e ≤ s.fend.toNat →
        exec i s = .next (afterFrame s kind tag fields f [] e)
    let cut (i : Instr) (k : Nat) : Prop :=
      s.fcur.toNat < s.fend.toNat → writtenFrom s.mem (s.fcur.toNat + 1) s.fend.toNat →
      (∀ vs e, varIntsAt s.mem (s.fcur.toNat + 1) k = some (vs, e) → s.fend.toNat < e) →
      exec i s = .next (failed s 0x3001 0x80 s.fend.toNat)
    let r (v : U62) : Word := BitVec.ofNat 64 v.toNat
    (∀ v, reads .frameMaxData 8 0x10 [v] { f0 := r v } (.maxData v)) ∧
    (∀ v, reads .frameDataBlocked 11 0x14 [v] { f0 := r v } (.dataBlocked v)) ∧
    (∀ v, reads .frameRetireConnectionId 15 0x19 [v] { f0 := r v } (.retireConnectionId v)) ∧
    (∀ uni v, reads (.frameMaxStreams uni) 10 (if uni then 0x13 else 0x12) [v]
      { f0 := if uni then 1 else 0, f1 := r v } (.maxStreams uni v)) ∧
    (∀ uni v, reads (.frameStreamsBlocked uni) 13 (if uni then 0x17 else 0x16) [v]
      { f0 := if uni then 1 else 0, f1 := r v } (.streamsBlocked uni v)) ∧
    (∀ v x, reads .frameStopSending 4 0x05 [v, x] { f0 := r v, f1 := r x } (.stopSending v x)) ∧
    (∀ v x, reads .frameMaxStreamData 9 0x11 [v, x] { f0 := r v, f1 := r x } (.maxStreamData v x)) ∧
    (∀ v x, reads .frameStreamDataBlocked 12 0x15 [v, x] { f0 := r v, f1 := r x } (.streamDataBlocked v x)) ∧
    (∀ v x y, reads .frameResetStream 3 0x04 [v, x, y] { f0 := r v, f1 := r x, f2 := r y }
      (.resetStream v x y)) ∧
    cut .frameMaxData 1 ∧ cut .frameDataBlocked 1 ∧ cut .frameRetireConnectionId 1 ∧
    (∀ uni, cut (.frameMaxStreams uni) 1) ∧ (∀ uni, cut (.frameStreamsBlocked uni) 1) ∧
    cut .frameStopSending 2 ∧ cut .frameMaxStreamData 2 ∧ cut .frameStreamDataBlocked 2 ∧
    cut .frameResetStream 3

/-- R213: ACK holds four VarInts, the third of which counts the (Gap, ACK Range Length) pairs after them, and then
three ECN counts if its tag's low bit is 1. Cut by `FEND` anywhere after its tag, also because its pairs do not fit, it
is TRUNCATED at `FEND`. -/
def Obligations.AckIsRead : Prop :=
  (∀ (s : State) (largest delay k first : U62) (flat : List U62) (ranges : List (U62 × U62)) (q r : Nat),
      frameWindow s = true →
      varIntsAt s.mem (s.fcur.toNat + 1) 4 = some ([largest, delay, k, first], q) →
      varIntsAt s.mem q (2 * k.toNat) = some (flat, r) →
      flat = ranges.flatMap (fun p => [p.1, p.2]) →
      let fields : FieldRegs :=
        { f0 := BitVec.ofNat 64 largest.toNat, f1 := BitVec.ofNat 64 delay.toNat
          f2 := BitVec.ofNat 64 k.toNat, f3 := BitVec.ofNat 64 first.toNat
          f4 := BitVec.ofNat 64 q, f5 := BitVec.ofNat 64 (r - q) }
      (r ≤ s.fend.toNat →
        exec (.frameAck false) s = .next (afterFrame s 2 0x02 fields
          (.ack largest delay first ranges none) [⟨q, r - q⟩] r)) ∧
      (∀ (x y z : U62) (e : Nat), varIntsAt s.mem r 3 = some ([x, y, z], e) → e ≤ s.fend.toNat →
        exec (.frameAck true) s = .next (afterFrame s 2 0x03
          { fields with
            f6 := 1, f7 := BitVec.ofNat 64 x.toNat, f8 := BitVec.ofNat 64 y.toNat,
            f9 := BitVec.ofNat 64 z.toNat }
          (.ack largest delay first ranges (some ⟨x, y, z⟩)) [⟨q, r - q⟩] e))) ∧
  (∀ (s : State) (ecn : Bool), frameWindow s = true → s.fcur.toNat < s.fend.toNat →
    writtenFrom s.mem (s.fcur.toNat + 1) s.fend.toNat →
    (∀ (largest delay k first : U62) (flat : List U62) (q r e : Nat),
      varIntsAt s.mem (s.fcur.toNat + 1) 4 = some ([largest, delay, k, first], q) →
      varIntsAt s.mem q (2 * k.toNat) = some (flat, r) →
      (if ecn then ∃ counts, varIntsAt s.mem r 3 = some (counts, e) else e = r) → s.fend.toNat < e) →
    exec (.frameAck ecn) s = .next (failed s 0x3001 0x80 s.fend.toNat))

/-- R216, R217: CRYPTO (an offset, then a length and its data) and NEW_TOKEN (a length and its token). Cut in their
VarInts they are TRUNCATED at `FEND`; a length greater than the bytes left is TRUNCATED at the start of the data. -/
def Obligations.CryptoAndNewTokenAreRead : Prop :=
  (∀ s : State, frameWindow s = true → s.fcur.toNat < s.fend.toNat →
    writtenFrom s.mem (s.fcur.toNat + 1) s.fend.toNat →
    ((∀ vs e, varIntsAt s.mem (s.fcur.toNat + 1) 2 = some (vs, e) → s.fend.toNat < e) →
      exec .frameCrypto s = .next (failed s 0x3001 0x80 s.fend.toNat)) ∧
    ((∀ vs e, varIntsAt s.mem (s.fcur.toNat + 1) 1 = some (vs, e) → s.fend.toNat < e) →
      exec .frameNewToken s = .next (failed s 0x3001 0x80 s.fend.toNat))) ∧
  (∀ (s : State) (off n : U62) (q : Nat), frameWindow s = true →
    (varIntsAt s.mem (s.fcur.toNat + 1) 2 = some ([off, n], q) → q ≤ s.fend.toNat →
      (q + n.toNat ≤ s.fend.toNat →
        exec .frameCrypto s = .next (afterFrame s 5 0x06
          { f0 := BitVec.ofNat 64 off.toNat, f1 := BitVec.ofNat 64 n.toNat, f2 := BitVec.ofNat 64 q }
          (.crypto off ⟨q, n.toNat⟩) [⟨q, n.toNat⟩] (q + n.toNat))) ∧
      (s.fend.toNat < q + n.toNat → exec .frameCrypto s = .next (failed s 0x3001 0x80 q))) ∧
    (varIntsAt s.mem (s.fcur.toNat + 1) 1 = some ([n], q) → q ≤ s.fend.toNat →
      (q + n.toNat ≤ s.fend.toNat →
        exec .frameNewToken s = .next (afterFrame s 6 0x07
          { f0 := BitVec.ofNat 64 n.toNat, f1 := BitVec.ofNat 64 q }
          (.newToken ⟨q, n.toNat⟩) [⟨q, n.toNat⟩] (q + n.toNat))) ∧
      (s.fend.toNat < q + n.toNat → exec .frameNewToken s = .next (failed s 0x3001 0x80 q))))

/-- R218: STREAM, in its eight forms: a stream ID, an offset if tag bit 2 is 1, and data with a length if tag bit 1 is
1 and up to `FEND` otherwise; tag bit 0 is FIN. Cut in its VarInts it is TRUNCATED at `FEND`; a length greater than the
bytes left is TRUNCATED at the start of the data. -/
def Obligations.StreamIsRead : Prop :=
  (∀ (s : State) (off len fin : Bool) (sid : U62) (q : Nat), frameWindow s = true →
      varIntsAt s.mem (s.fcur.toNat + 1) 1 = some ([sid], q) →
      let after (offset : Option U62) (d : Slice) : State :=
        afterFrame s 7
          (BitVec.ofNat 64 (8 + (if off then 4 else 0) + (if len then 2 else 0) + (if fin then 1 else 0)))
          { f0 := BitVec.ofNat 64 sid.toNat, f1 := if off then 1 else 0
            f2 := BitVec.ofNat 64 (offset.getD 0).toNat, f3 := if len then 1 else 0
            f4 := BitVec.ofNat 64 d.len, f5 := BitVec.ofNat 64 d.off, f6 := if fin then 1 else 0 }
          (.stream sid offset len fin d) [d] (d.off + d.len)
      ∀ (offset : Option U62) (r : Nat),
        (if off then ∃ o, offset = some o ∧ varIntsAt s.mem q 1 = some ([o], r) else offset = none ∧ r = q) →
        (len = false → r ≤ s.fend.toNat →
          exec (.frameStream off len fin) s = .next (after offset ⟨r, s.fend.toNat - r⟩)) ∧
        (∀ (n : U62) (d : Nat), len = true → varIntsAt s.mem r 1 = some ([n], d) → d + n.toNat ≤ s.fend.toNat →
          exec (.frameStream off len fin) s = .next (after offset ⟨d, n.toNat⟩))) ∧
  (∀ (s : State) (off len fin : Bool), frameWindow s = true → s.fcur.toNat < s.fend.toNat →
    let k := 1 + (if off then 1 else 0) + (if len then 1 else 0)
    (writtenFrom s.mem (s.fcur.toNat + 1) s.fend.toNat →
      (∀ vs e, varIntsAt s.mem (s.fcur.toNat + 1) k = some (vs, e) → s.fend.toNat < e) →
      exec (.frameStream off len fin) s = .next (failed s 0x3001 0x80 s.fend.toNat)) ∧
    (∀ (vs : List U62) (n : U62) (d : Nat), len = true →
      varIntsAt s.mem (s.fcur.toNat + 1) k = some (vs ++ [n], d) → d ≤ s.fend.toNat → s.fend.toNat < d + n.toNat →
      exec (.frameStream off len fin) s = .next (failed s 0x3001 0x80 d)))

/-- R225: NEW_CONNECTION_ID holds two VarInts, a connection ID with a one-byte length of at most 20, and a 16-byte
token; a greater length is OUT_OF_RANGE at the length byte. Cut by `FEND` it is TRUNCATED: in its VarInts at `FEND`, and
in its length byte, its connection ID or its token at the start of that field. -/
def Obligations.NewConnectionIdIsRead : Prop :=
  (∀ (s : State) (seq rpt : U62) (q : Nat), frameWindow s = true →
    varIntsAt s.mem (s.fcur.toNat + 1) 2 = some ([seq, rpt], q) →
    (q = s.fend.toNat → exec .frameNewConnectionId s = .next (failed s 0x3001 0x80 q)) ∧
    (∀ n : Byte, s.mem.read q = some n →
      (n.toNat ≤ 20 → q + 1 + n.toNat + 16 ≤ s.fend.toNat →
        let cid : Slice := ⟨q + 1, n.toNat⟩
        let token : Slice := ⟨q + 1 + n.toNat, 16⟩
        exec .frameNewConnectionId s = .next (afterFrame s 14 0x18
          { f0 := BitVec.ofNat 64 seq.toNat, f1 := BitVec.ofNat 64 rpt.toNat, f2 := BitVec.ofNat 64 n.toNat
            f3 := BitVec.ofNat 64 (q + 1), f4 := BitVec.ofNat 64 (q + 1 + n.toNat) }
          (.newConnectionId seq rpt cid token) [cid, token] (q + 1 + n.toNat + 16))) ∧
      (20 < n.toNat → q < s.fend.toNat → exec .frameNewConnectionId s = .next (failed s 0x3002 0x80 q)) ∧
      (n.toNat ≤ 20 → q < s.fend.toNat → s.fend.toNat < q + 1 + n.toNat →
        exec .frameNewConnectionId s = .next (failed s 0x3001 0x80 (q + 1))) ∧
      (n.toNat ≤ 20 → q + 1 + n.toNat ≤ s.fend.toNat → s.fend.toNat < q + 1 + n.toNat + 16 →
        exec .frameNewConnectionId s = .next (failed s 0x3001 0x80 (q + 1 + n.toNat))))) ∧
  (∀ s : State, frameWindow s = true → s.fcur.toNat < s.fend.toNat →
    writtenFrom s.mem (s.fcur.toNat + 1) s.fend.toNat →
    (∀ vs e, varIntsAt s.mem (s.fcur.toNat + 1) 2 = some (vs, e) → s.fend.toNat < e) →
    exec .frameNewConnectionId s = .next (failed s 0x3001 0x80 s.fend.toNat))

/-- R227, R228: PATH_CHALLENGE and PATH_RESPONSE hold eight bytes, reported as a descriptor and as a big-endian integer;
fewer than eight bytes after the tag are TRUNCATED there. -/
def Obligations.PathFramesAreRead : Prop :=
  ∀ s : State, frameWindow s = true → s.fcur.toNat < s.fend.toNat →
    let c := s.fcur.toNat + 1
    (∀ v, valueAt s.mem c 8 = some v → c + 8 ≤ s.fend.toNat →
      let fields : FieldRegs := { f0 := BitVec.ofNat 64 v, f1 := BitVec.ofNat 64 c }
      exec .framePathChallenge s = .next (afterFrame s 16 0x1A fields
        (.pathChallenge (BitVec.ofNat 64 v) ⟨c, 8⟩) [⟨c, 8⟩] (c + 8)) ∧
      exec .framePathResponse s = .next (afterFrame s 17 0x1B fields
        (.pathResponse (BitVec.ofNat 64 v) ⟨c, 8⟩) [⟨c, 8⟩] (c + 8))) ∧
    (s.fend.toNat < c + 8 →
      exec .framePathChallenge s = .next (failed s 0x3001 0x80 c) ∧
      exec .framePathResponse s = .next (failed s 0x3001 0x80 c))

/-- R229: CONNECTION_CLOSE holds an error code, a frame type if its tag's low bit is 0, and a reason with a length; a
reason of length 0 is absent. Cut in its VarInts it is TRUNCATED at `FEND`; a reason longer than the bytes left is
TRUNCATED at its start. -/
def Obligations.ConnectionCloseIsRead : Prop :=
  (∀ (s : State) (err n : U62) (q : Nat), frameWindow s = true → q + n.toNat ≤ s.fend.toNat →
      let reason : Option Slice := if n = 0 then none else some ⟨q, n.toNat⟩
      let ds : List Slice := if n = 0 then [] else [⟨q, n.toNat⟩]
      let fields : FieldRegs :=
        { f1 := BitVec.ofNat 64 err.toNat
          f4 := if n = 0 then 0 else 1
          f5 := BitVec.ofNat 64 n.toNat
          f6 := if n = 0 then 0 else BitVec.ofNat 64 q }
      (∀ ft : U62, varIntsAt s.mem (s.fcur.toNat + 1) 3 = some ([err, ft, n], q) →
        exec (.frameConnectionClose false) s = .next (afterFrame s 18 0x1C
          { fields with f0 := 0, f2 := 1, f3 := BitVec.ofNat 64 ft.toNat }
          (.connectionClose false err (some ft) reason) ds (q + n.toNat))) ∧
      (varIntsAt s.mem (s.fcur.toNat + 1) 2 = some ([err, n], q) →
        exec (.frameConnectionClose true) s = .next (afterFrame s 18 0x1D
          { fields with f0 := 1, f2 := 0, f3 := 0 }
          (.connectionClose true err none reason) ds (q + n.toNat)))) ∧
  (∀ (s : State) (app : Bool), frameWindow s = true → s.fcur.toNat < s.fend.toNat →
    let k := if app then 2 else 3
    (writtenFrom s.mem (s.fcur.toNat + 1) s.fend.toNat →
      (∀ vs e, varIntsAt s.mem (s.fcur.toNat + 1) k = some (vs, e) → s.fend.toNat < e) →
      exec (.frameConnectionClose app) s = .next (failed s 0x3001 0x80 s.fend.toNat)) ∧
    (∀ (vs : List U62) (n : U62) (q : Nat), varIntsAt s.mem (s.fcur.toNat + 1) k = some (vs ++ [n], q) →
      q ≤ s.fend.toNat → s.fend.toNat < q + n.toNat →
      exec (.frameConnectionClose app) s = .next (failed s 0x3001 0x80 q)))

/-- R231: DATAGRAM, on a block with `DATAGRAM_ENABLED`: data with a length if its tag's low bit is 1 and up to `FEND`
otherwise; a cut length is TRUNCATED at `FEND`, and a length greater than the bytes left at the start of the data.
Without `DATAGRAM_ENABLED` its tags are MALFORMED_TAG. -/
def Obligations.DatagramIsRead : Prop :=
  ∀ s : State, frameWindow s = true → s.fcur.toNat < s.fend.toNat →
    let c := s.fcur.toNat + 1
    (s.params.datagramEnabled = true →
      exec (.frameDatagram false) s = .next (afterFrame s 20 0x30
        { f1 := BitVec.ofNat 64 (s.fend.toNat - c), f2 := BitVec.ofNat 64 c }
        (.datagram false ⟨c, s.fend.toNat - c⟩) [⟨c, s.fend.toNat - c⟩] s.fend.toNat) ∧
      (∀ (n : U62) (q : Nat), varIntsAt s.mem c 1 = some ([n], q) →
        (q + n.toNat ≤ s.fend.toNat →
          exec (.frameDatagram true) s = .next (afterFrame s 20 0x31
            { f0 := 1, f1 := BitVec.ofNat 64 n.toNat, f2 := BitVec.ofNat 64 q }
            (.datagram true ⟨q, n.toNat⟩) [⟨q, n.toNat⟩] (q + n.toNat))) ∧
        (q ≤ s.fend.toNat → s.fend.toNat < q + n.toNat →
          exec (.frameDatagram true) s = .next (failed s 0x3001 0x80 q))) ∧
      (writtenFrom s.mem c s.fend.toNat →
        (∀ vs e, varIntsAt s.mem c 1 = some (vs, e) → s.fend.toNat < e) →
        exec (.frameDatagram true) s = .next (failed s 0x3001 0x80 s.fend.toNat))) ∧
    (s.params.datagramEnabled = false → ∀ len,
      exec (.frameDatagram len) s = .next (failed s 0x3003 0x80 s.fcur.toNat))

/-! ## The whole machine -/

/-- R262, R266: a command that fails with code 1, 2 or 3 discards every write: it leaves its groups' VALID bits
cleared, `STATUS` with the code and its opcode, and `ERR_AT`, and changes nothing else. -/
def Obligations.FailedCommandChangesNothingElse : Prop :=
  ∀ (i : Instr) (s t : State), exec i s = .next t → t.status.toNat % 16 ∈ [1, 2, 3] →
    ∃ (code offset : Nat), code ∈ [1, 2, 3] ∧
      t = failed s (BitVec.ofNat 64 ((opcodeFor i).toNat * 256 + code)) (groupsOf i) offset

/-- R25, R29: every command writes `STATUS`, with its own opcode and a code of 0 to 4, and changes no VALID bit outside
the groups it may write or clear. -/
def Obligations.EveryCommandReportsItsOpcode : Prop :=
  ∀ (i : Instr) (s t : State), exec i s = .next t →
    (∃ code, code ≤ 4 ∧ t.status = BitVec.ofNat 64 ((opcodeFor i).toNat * 256 + code)) ∧
    t.valid &&& ~~~(groupsOf i) = s.valid &&& ~~~(groupsOf i) ∧
    (t.status.toNat % 16 ∉ [1, 2, 3] → t.errAt = s.errAt)

/-- R62, R45, R300: no command writes `IN`, and none changes what only the host writes (`CMD`, `CTRL`, `LIMIT`,
`ARG`), the parameters, or the host's side. -/
def Obligations.EngineWritesOnlyItsRegistersAndQueue : Prop :=
  ∀ (i : Instr) (s t : State), exec i s = .next t →
    (∀ a, t.mem.read a = s.mem.read a) ∧ t.mem = s.mem ∧ t.cmd = s.cmd ∧ t.ctrl = s.ctrl ∧
    t.limit = s.limit ∧ t.arg = s.arg ∧ t.params = s.params ∧ t.host = s.host ∧ t.seen = s.seen ∧
    t.pending = s.pending ∧ t.freeCount = s.freeCount

/-- R30, R22: what the commands of the VarInt unit and of the header unit may change, by unit: every register, cursor,
queue and byte that the right-hand side does not take from `t` is unchanged. -/
def Obligations.CodecAndHeaderCommandsKeepTheRest : Prop :=
  ∀ s t : State,
    (∀ i ∈ [Instr.venc, .vsize], exec i s = .next t →
      t = { s with vi := t.vi, valid := t.valid, status := t.status, errAt := t.errAt }) ∧
    (∀ i, opcodeFor i = 0x01 → exec i s = .next t →
      t = { s with vi := { t.vi with bytes := s.vi.bytes }, valid := t.valid, status := t.status,
                   errAt := t.errAt, cur := t.cur }) ∧
    (exec .peek s = .next t →
      t = { s with formPeek := t.formPeek, valid := t.valid, status := t.status, errAt := t.errAt }) ∧
    (∀ i ∈ [Instr.hdrl, .hdrs], exec i s = .next t →
      t = { s with hdr := t.hdr, valid := t.valid, status := t.status, errAt := t.errAt, cur := t.cur,
                   descs := t.descs }) ∧
    (exec .pndec s = .next t →
      t = { s with pn := t.pn, valid := t.valid, status := t.status, errAt := t.errAt, cur := t.cur })

/-- R160, R190, R295: what PKT and FRM and their classes may change: PKT leaves the VI registers, `FORM_PEEK` and the
frame registers, and FRM leaves those of the other units and every cursor but `FCUR`; each appends at most one
record. -/
def Obligations.PacketAndFrameCommandsKeepTheRest : Prop :=
  ∀ (i : Instr) (s t : State), exec i s = .next t →
    (opcodeFor i = 0x20 →
      t = { s with hdr := t.hdr, pkt := t.pkt, pn := t.pn, valid := t.valid, status := t.status,
                   errAt := t.errAt, cur := t.cur, fcur := t.fcur, fend := t.fend, evq := t.evq,
                   descs := t.descs }) ∧
    (opcodeFor i = 0x30 →
      t = { s with frm := t.frm, valid := t.valid, status := t.status, errAt := t.errAt, fcur := t.fcur,
                   evq := t.evq, descs := t.descs }) ∧
    (opcodeFor i = 0x20 ∨ opcodeFor i = 0x30 →
      ∃ l : List Event, t.evq = s.evq ++ l ∧ l.length = if t.status.toNat % 16 = 0 then 1 else 0)

/-- R41: a command stops only at a byte of `IN` that was not written, and never without meaning; if every byte of `IN`
is written it completes. -/
def Obligations.CommandsStopOnlyAtUnwrittenInput : Prop :=
  ∀ (i : Instr) (s : State),
    (∀ r, exec i s ≠ .refused r) ∧
    (∀ f, exec i s = .fault f → ∃ a, f = .unwrittenInput a ∧ a < s.params.maxInLen ∧ s.mem.read a = none) ∧
    ((∀ a, a < s.params.maxInLen → (s.mem.read a).isSome = true) → ∃ t, exec i s = .next t)

/-- `IN` keeps its canonical form, within `MAX_IN_LEN` (R40, R41, R67), in every step. -/
def Obligations.StepKeepsTheInputCanonical : Prop :=
  ∀ s t : State, memoryInv s = true → step s = .next t → memoryInv t = true

/-- The registers keep their formats (R24, R25, R29, R33 and the field ranges of R23) in every step. -/
def Obligations.StepKeepsTheRegisterFormats : Prop :=
  ∀ s t : State, registerInv s = true → step s = .next t → registerInv t = true

/-- In every step: every descriptor and record the block reports names bytes of `IN` that exist, and a bounded `EVQ`
stays within its depth (R10, R42, R44, R63). -/
def Obligations.StepKeepsReportsWithinTheInput : Prop :=
  ∀ s t : State, reportInv s = true → step s = .next t → reportInv t = true

/-- The reset state meets the three invariants that every step keeps (R46). -/
def Obligations.ResetMeetsTheInvariants : Prop :=
  memoryInv State.reset = true ∧ registerInv State.reset = true ∧ reportInv State.reset = true

/-! ## Encoding -/

/-- R80, R83, R84, R88, R89: decoding what a well-formed instruction is encoded as gives the instruction back, with
every field. -/
def Obligations.DecodeOfEncodeIsTheInstruction : Prop :=
  ∀ (p : Params) (i : Instr), i.wf p = true → decode (spaceOf p i) (encode i) = .ok i

/-- R80, R83, R84, R88, R89: an instruction decoded from a byte is well-formed and is encoded as that byte: no two
bytes of a space mean the same. -/
def Obligations.EncodeOfDecodeIsTheByte : Prop :=
  ∀ (p : Params) (sp : Space) (b : Byte) (i : Instr),
    sp = .command ∨ sp = .varint ∨ sp = .packet true ∨ sp = .packet false ∨ sp = .frame p.datagramEnabled →
    decode sp b = .ok i → i.wf p = true ∧ encode i = b

/-- R80, R83, R84, R88, R89: a few bytes written out from the spec's tables. -/
def Obligations.SampleBytesDecode : Prop :=
  decode .command 0x13 = .ok .pndec ∧
  decode (.packet false) 0b11010011 = .ok (.pktZeroRtt true 0 3) ∧
  decode (.packet true) 0b10000000 = .ok (.pktVersionNegotiation 0) ∧
  decode (.packet false) 0b01100101 = .ok (.pktShort true true 0 true 1) ∧
  decode .varint 0b01111011 = .ok (.varint2B 0b111011) ∧
  decode (.frame true) 0x0D = .ok (.frameStream true false true) ∧
  decode (.frame false) 0x31 = .error (.unknownTag 0x31)
end

