-- ==== Sys2Proof/Laws/Memory.lean ====
section
/-! SUPPORT. Laws of `IN`: a read after a write, and that every operation keeps the canonical form. -/

namespace Sys2Proof.Machine

@[simp] theorem Memory.read_write_same (m : Memory) (a : Nat) (b : Byte) :
    Memory.read (Memory.write m a b) a = some b := by
  induction m with
  | nil => simp [Memory.write, Memory.read]
  | cons x rest ih =>
    obtain ⟨k, v⟩ := x
    simp only [Memory.write]
    split
    · simp [Memory.read]
    · split
      · simp [Memory.read]
      · rename_i _ h
        simp [Memory.read, h, ih]

theorem Memory.read_write_other (m : Memory) {a x : Nat} (b : Byte) (h : x ≠ a) :
    Memory.read (Memory.write m a b) x = Memory.read m x := by
  induction m with
  | nil => simp [Memory.write, Memory.read, h]
  | cons y rest ih =>
    obtain ⟨k, v⟩ := y
    simp only [Memory.write]
    split
    · simp [Memory.read, h]
    · split
      · rename_i _ hk
        subst hk
        simp [Memory.read, h]
      · simp [Memory.read, ih]

/-- Bytes outside the written range read as before. -/
theorem Memory.read_writeAll_outside (bs : List Byte) (m : Memory) {a x : Nat}
    (h : x < a ∨ a + bs.length ≤ x) : Memory.read (Memory.writeAll m a bs) x = Memory.read m x := by
  induction bs generalizing m a with
  | nil => rfl
  | cons b bs ih =>
    simp only [List.length_cons] at h
    rw [Memory.writeAll, ih _ (by omega), Memory.read_write_other _ _ (by omega)]

/-- Bytes inside the written range read as what was written. -/
theorem Memory.read_writeAll_inside (bs : List Byte) (m : Memory) {a k : Nat} (h : k < bs.length) :
    Memory.read (Memory.writeAll m a bs) (a + k) = some bs[k] := by
  induction bs generalizing m a k with
  | nil => simp at h
  | cons b bs ih =>
    rw [Memory.writeAll]
    cases k with
    | zero => simp [Memory.read_writeAll_outside bs (Memory.write m a b) (a := a + 1) (x := a) (by omega)]
    | succ k =>
      have := ih (Memory.write m a b) (a := a + 1) (k := k) (by simpa using h)
      rw [show a + (k + 1) = a + 1 + k by omega]
      simpa using this

/-- The canonical form of a list with a first entry. -/
theorem Memory.wf_cons (c : Host.Cell) (m : Memory) :
    Memory.wf (c :: m) = true ↔ (∀ d ∈ m.head?, c.1 < d.1) ∧ Memory.wf m = true := by
  cases m with
  | nil => simp [Memory.wf]
  | cons d rest => obtain ⟨k, v⟩ := d; simp [Memory.wf]

/-- What the first entry after a write can be. -/
theorem Memory.head_write (m : Memory) (a : Nat) (b : Byte) {d : Host.Cell}
    (h : (Memory.write m a b).head? = some d) : d.1 = a ∨ m.head? = some d := by
  cases m with
  | nil => simp [Memory.write] at h; exact .inl (by rw [← h])
  | cons x rest =>
    obtain ⟨k, v⟩ := x
    simp only [Memory.write] at h
    split at h
    · exact .inl (by simpa using (congrArg (fun o => o.map Prod.fst) h).symm)
    · split at h
      · exact .inl (by simpa using (congrArg (fun o => o.map Prod.fst) h).symm)
      · exact .inr (by simpa using h)

/-- A write keeps the canonical form. -/
theorem Memory.wf_write (m : Memory) (a : Nat) (b : Byte) (h : Memory.wf m = true) :
    Memory.wf (Memory.write m a b) = true := by
  induction m with
  | nil => rfl
  | cons x rest ih =>
    obtain ⟨k, v⟩ := x
    have hk := (Memory.wf_cons _ _).1 h
    simp only [Memory.write]
    split
    · rename_i hlt
      exact (Memory.wf_cons _ _).2 ⟨by simpa using hlt, h⟩
    · split
      · rename_i _ he
        subst he
        exact (Memory.wf_cons _ _).2 hk
      · refine (Memory.wf_cons _ _).2 ⟨fun d hd => ?_, ih hk.2⟩
        rcases Memory.head_write rest a b hd with h1 | h1
        · simp only at *; omega
        · exact hk.1 d h1

theorem Memory.wf_writeAll (bs : List Byte) (m : Memory) (a : Nat) (h : Memory.wf m = true) :
    Memory.wf (Memory.writeAll m a bs) = true := by
  induction bs generalizing m a with
  | nil => exact h
  | cons b bs ih => exact ih _ _ (Memory.wf_write m a b h)

/-- A write below `n` keeps every address below `n`. -/
theorem Memory.below_write {n : Nat} (m : Memory) {a : Nat} (b : Byte) (ha : a < n)
    (h : Memory.below n m = true) : Memory.below n (Memory.write m a b) = true := by
  induction m with
  | nil => simpa [Memory.below, Memory.write] using ha
  | cons x rest ih =>
    obtain ⟨k, v⟩ := x
    simp only [Memory.below, List.all_cons, Bool.and_eq_true, decide_eq_true_eq] at h ih ⊢
    simp only [Memory.write]
    split
    · simp only [List.all_cons, Bool.and_eq_true, decide_eq_true_eq]; exact ⟨ha, h⟩
    · split
      · simp only [List.all_cons, Bool.and_eq_true, decide_eq_true_eq]; exact ⟨ha, h.2⟩
      · simp only [List.all_cons, Bool.and_eq_true, decide_eq_true_eq]; exact ⟨h.1, ih h.2⟩

theorem Memory.below_writeAll {n : Nat} (bs : List Byte) (m : Memory) {a : Nat} (ha : a + bs.length ≤ n)
    (h : Memory.below n m = true) : Memory.below n (Memory.writeAll m a bs) = true := by
  induction bs generalizing m a with
  | nil => exact h
  | cons b bs ih =>
    simp only [List.length_cons] at ha
    exact ih _ (by omega) (Memory.below_write m b (by omega) h)

/-- Only listed addresses read as a value, so in memory below `n` every written byte is. -/
theorem Memory.lt_of_read {n : Nat} {m : Memory} {a : Nat} {b : Byte} (h : Memory.below n m = true)
    (hr : Memory.read m a = some b) : a < n := by
  induction m with
  | nil => simp [Memory.read] at hr
  | cons x rest ih =>
    obtain ⟨k, v⟩ := x
    simp only [Memory.below, List.all_cons, Bool.and_eq_true, decide_eq_true_eq] at h ih
    simp only [Memory.read] at hr
    split at hr
    · omega
    · exact ih h.2 hr

/-! ## Ranges of bytes -/

theorem Memory.readAll_zero (m : Memory) (a : Nat) : Memory.readAll m a 0 = .ok [] := rfl

theorem Memory.readAll_succ_iff {m : Memory} {a n : Nat} {bs : List Byte} :
    Memory.readAll m a (n + 1) = .ok bs ↔
      ∃ b rest, Memory.read m a = some b ∧ Memory.readAll m (a + 1) n = .ok rest ∧ bs = b :: rest := by
  simp only [Memory.readAll]
  cases h1 : Memory.read m a with
  | none => simp
  | some b =>
    cases h2 : Memory.readAll m (a + 1) n with
    | error e => simp
    | ok rest => simp [eq_comm]

theorem Memory.readAll_length {m : Memory} {a n : Nat} {bs : List Byte}
    (h : Memory.readAll m a n = .ok bs) : bs.length = n := by
  induction n generalizing a bs with
  | zero => cases h; rfl
  | succ n ih =>
    obtain ⟨b, rest, -, h2, rfl⟩ := Memory.readAll_succ_iff.1 h
    simp [ih h2]

/-- A range read from its last byte. -/
theorem Memory.readAll_snoc_iff {m : Memory} {a n : Nat} {bs : List Byte} :
    Memory.readAll m a (n + 1) = .ok bs ↔
      ∃ front b, Memory.readAll m a n = .ok front ∧ Memory.read m (a + n) = some b ∧ bs = front ++ [b] := by
  induction n generalizing a bs with
  | zero => simp [Memory.readAll_succ_iff, Memory.readAll_zero]
  | succ n ih =>
    rw [Memory.readAll_succ_iff]
    constructor
    · rintro ⟨b, rest, h1, h2, rfl⟩
      obtain ⟨front, b', h3, h4, rfl⟩ := ih.1 h2
      exact ⟨b :: front, b', Memory.readAll_succ_iff.2 ⟨b, front, h1, h3, rfl⟩,
        by rw [← h4]; congr 1; omega, rfl⟩
    · rintro ⟨front, b', h3, h4, rfl⟩
      obtain ⟨b, rest, h1, h2, rfl⟩ := Memory.readAll_succ_iff.1 h3
      exact ⟨b, rest ++ [b'], h1, ih.2 ⟨rest, b', h2, by rw [← h4]; congr 1; omega, rfl⟩, rfl⟩

theorem beValue_nil : beValue [] = 0 := rfl

theorem beValue_snoc (front : List Byte) (b : Byte) :
    beValue (front ++ [b]) = beValue front * 256 + b.toNat := by simp [beValue]

theorem beValue_cons (b : Byte) (bs : List Byte) :
    beValue (b :: bs) = b.toNat * 256 ^ bs.length + beValue bs := by
  induction bs using List.reverseRecOn with
  | nil => simp [beValue]
  | append_singleton front x ih =>
    rw [← List.cons_append, beValue_snoc, ih, beValue_snoc, List.length_append, List.length_singleton,
      pow_succ]
    ring

theorem beValue_lt (bs : List Byte) : beValue bs < 256 ^ bs.length := by
  induction bs using List.reverseRecOn with
  | nil => simp [beValue]
  | append_singleton front b ih =>
    rw [beValue_snoc, List.length_append, List.length_singleton, pow_succ]
    have := b.isLt
    omega

theorem valueAt_iff {m : Memory} {a n v : Nat} :
    valueAt m a n = some v ↔ ∃ bs, Memory.readAll m a n = .ok bs ∧ v = beValue bs := by
  simp only [valueAt, bytesAt]
  cases h : Memory.readAll m a n <;> simp [eq_comm]

theorem valueAt_zero (m : Memory) (a : Nat) : valueAt m a 0 = some 0 := rfl

theorem valueAt_succ_iff {m : Memory} {a n v : Nat} :
    valueAt m a (n + 1) = some v ↔
      ∃ high b, valueAt m a n = some high ∧ Memory.read m (a + n) = some b ∧ v = high * 256 + b.toNat := by
  simp only [valueAt_iff, Memory.readAll_snoc_iff]
  constructor
  · rintro ⟨_, ⟨front, b, h1, h2, rfl⟩, rfl⟩
    exact ⟨_, b, ⟨front, h1, rfl⟩, h2, beValue_snoc front b⟩
  · rintro ⟨_, b, ⟨front, h1, rfl⟩, h2, rfl⟩
    exact ⟨_, ⟨front, b, h1, h2, rfl⟩, (beValue_snoc front b).symm⟩

/-- A range read from its first byte. -/
theorem valueAt_cons_iff {m : Memory} {a n v : Nat} :
    valueAt m a (n + 1) = some v ↔
      ∃ b low, Memory.read m a = some b ∧ valueAt m (a + 1) n = some low ∧ v = b.toNat * 256 ^ n + low := by
  simp only [valueAt_iff, Memory.readAll_succ_iff]
  constructor
  · rintro ⟨_, ⟨b, rest, h1, h2, rfl⟩, rfl⟩
    exact ⟨b, _, h1, ⟨rest, h2, rfl⟩, by rw [beValue_cons, Memory.readAll_length h2]⟩
  · rintro ⟨b, _, h1, ⟨rest, h2, rfl⟩, rfl⟩
    exact ⟨_, ⟨b, rest, h1, h2, rfl⟩, by rw [beValue_cons, Memory.readAll_length h2]⟩

theorem valueAt_lt {m : Memory} {a n v : Nat} (h : valueAt m a n = some v) : v < 256 ^ n := by
  obtain ⟨bs, h1, rfl⟩ := valueAt_iff.1 h
  rw [← Memory.readAll_length h1]
  exact beValue_lt bs

end Sys2Proof.Machine
end

