-- ==== Sys2Proof/Laws/Reader.lean ====
section
/-! SUPPORT. What each local reader can answer, and what it answers on bytes that are there. -/

namespace Sys2Proof.Machine

/-! ## Peeling a reader apart -/

/-- A sequence answers exactly if its first part does and its second part does from there. -/
theorem bind_eq_ok {α β ε : Type} {x : Except ε α} {f : α → Except ε β} {b : β} :
    (x >>= f) = .ok b ↔ ∃ a, x = .ok a ∧ f a = .ok b := by
  cases x <;> simp [bind, Except.bind]

/-- A sequence stops exactly if its first part does, or its second part does after it. -/
theorem bind_eq_error {α β ε : Type} {x : Except ε α} {f : α → Except ε β} {e : ε} :
    (x >>= f) = .error e ↔ x = .error e ∨ ∃ a, x = .ok a ∧ f a = .error e := by
  cases x <;> simp [bind, Except.bind]

@[simp] theorem ok_bind {α β ε : Type} (a : α) (f : α → Except ε β) : (Except.ok a >>= f) = f a := rfl

@[simp] theorem error_bind {α β ε : Type} (e : ε) (f : α → Except ε β) :
    (Except.error e >>= f) = .error e := rfl

@[simp] theorem raise_ne_ok {α : Type} (e : Err) (o : Nat) (a : α) : raise e o ≠ .ok a := by simp [raise]

@[simp] theorem raise_bind {α β : Type} (e : Err) (o : Nat) (f : α → Except Stop β) :
    (raise e o >>= f) = raise e o := rfl

@[simp] theorem raise_eq_raise {α : Type} (e e' : Err) (o o' : Nat) :
    (raise e o : Except Stop α) = .error (.raise e' o') ↔ e = e' ∧ o = o' := by simp [raise]

@[simp] theorem raise_ne_fault {α : Type} (e : Err) (o : Nat) (f : Fault) :
    (raise e o : Except Stop α) ≠ .error (.fault f) := by simp [raise]

/-! ## The primitives (00_scope.md R10) -/

@[simp] theorem need_eq_ok {w : Window} {c n : Nat} {u : Unit} : need w c n = .ok u ↔ c + n ≤ w.lim := by
  unfold need
  split <;> simp <;> omega

theorem need_eq_error {w : Window} {c n : Nat} {e : Stop} :
    need w c n = .error e ↔ w.lim < c + n ∧ e = .raise .truncated c := by
  unfold need
  split <;> simp [raise, eq_comm] <;> omega

theorem need_ok {w : Window} {c n : Nat} (h : c + n ≤ w.lim) : need w c n = .ok () := need_eq_ok.2 h

theorem need_cut {w : Window} {c n : Nat} (h : w.lim < c + n) : need w c n = raise .truncated c := by
  simp [need, h]

theorem memByte_eq_ok {w : Window} {a : Nat} {b : Byte} : memByte w a = .ok b ↔ w.mem.read a = some b := by
  unfold memByte
  cases w.mem.read a <;> simp

theorem memByte_eq_error {w : Window} {a : Nat} {e : Stop} :
    memByte w a = .error e ↔ w.mem.read a = none ∧ e = .fault (.unwrittenInput a) := by
  unfold memByte
  cases w.mem.read a <;> simp [eq_comm]

theorem memRead_eq_ok {w : Window} {a n v : Nat} : memRead w a n = .ok v ↔ valueAt w.mem a n = some v := by
  induction n generalizing v with
  | zero => simp [memRead, valueAt_zero]
  | succ n ih =>
    rw [valueAt_succ_iff]
    simp only [memRead, bind_eq_ok, ih, memByte_eq_ok, Except.ok.injEq]
    grind

theorem peekByte_eq_ok {w : Window} {c : Nat} {b : Byte} :
    peekByte w c = .ok b ↔ c + 1 ≤ w.lim ∧ w.mem.read c = some b := by
  simp [peekByte, bind_eq_ok, memByte_eq_ok]

theorem readByte_eq_ok {w : Window} {c c' : Nat} {b : Byte} :
    readByte w c = .ok (b, c') ↔ c + 1 ≤ w.lim ∧ w.mem.read c = some b ∧ c' = c + 1 := by
  simp [readByte, bind_eq_ok, memByte_eq_ok, @eq_comm _ c']

theorem readN_eq_ok {w : Window} {c c' n v : Nat} :
    readN w c n = .ok (v, c') ↔ c + n ≤ w.lim ∧ valueAt w.mem c n = some v ∧ c' = c + n := by
  simp [readN, bind_eq_ok, memRead_eq_ok, @eq_comm _ c']

theorem readSlice_eq_ok {w : Window} {c c' n : Nat} {d : Slice} :
    readSlice w c n = .ok (d, c') ↔ c + n ≤ w.lim ∧ d = ⟨c, n⟩ ∧ c' = c + n := by
  simp [readSlice, bind_eq_ok, @eq_comm _ c', @eq_comm _ d]

/-! ## Where a reader stops -/

theorem memRead_eq_error {w : Window} {a n : Nat} {e : Stop} (h : memRead w a n = .error e) :
    ∃ k, k < n ∧ w.mem.read (a + k) = none ∧ e = .fault (.unwrittenInput (a + k)) := by
  induction n with
  | zero => simp [memRead] at h
  | succ n ih =>
    simp only [memRead, bind_eq_error, memByte_eq_error] at h
    rcases h with h | ⟨_, -, h | ⟨_, -, h⟩⟩
    · obtain ⟨k, hk, h⟩ := ih h
      exact ⟨k, by omega, h⟩
    · exact ⟨n, by omega, h⟩
    · simp at h

theorem readN_cut {w : Window} {c n : Nat} (h : w.lim < c + n) : readN w c n = raise .truncated c := by
  simp [readN, need_cut h]

theorem readByte_cut {w : Window} {c : Nat} (h : w.lim < c + 1) : readByte w c = raise .truncated c := by
  simp [readByte, need_cut h]

theorem peekByte_cut {w : Window} {c : Nat} (h : w.lim < c + 1) : peekByte w c = raise .truncated c := by
  simp [peekByte, need_cut h]

theorem readSlice_cut {w : Window} {c n : Nat} (h : w.lim < c + n) : readSlice w c n = raise .truncated c := by
  simp [readSlice, need_cut h]

/-! ## VarInts (40_varint.md R111) -/

theorem varIntMore_eq_ok {w : Window} {k v c r c' : Nat} :
    varIntMore w k v c = .ok (r, c') ↔
      (k = 0 ∨ c + k ≤ w.lim) ∧ c' = c + k ∧ ∃ x, valueAt w.mem c k = some x ∧ r = v * 256 ^ k + x := by
  induction k generalizing v c with
  | zero => simp [varIntMore, valueAt_zero, @eq_comm _ r, @eq_comm _ c', and_comm]
  | succ k ih =>
    simp only [varIntMore, bind_eq_ok, Prod.exists, readByte_eq_ok, valueAt_cons_iff, ih, pow_succ]
    constructor
    · rintro ⟨b, _, ⟨h1, h2, rfl⟩, h3, rfl, x, h4, rfl⟩
      exact ⟨.inr (by omega), by omega, _, ⟨b, x, h2, h4, rfl⟩, by ring⟩
    · rintro ⟨h1, rfl, _, ⟨b, x, h2, h4, rfl⟩, rfl⟩
      exact ⟨b, _, ⟨by omega, h2, rfl⟩, by omega, by omega, x, h4, by ring⟩

theorem varIntClass_toNat (b : Byte) : (varIntClass b).toNat = b.toNat / 64 := by
  revert b
  decide

theorem varIntHigh_toNat (b : Byte) : (varIntHigh b).toNat = b.toNat % 64 := by
  revert b
  decide

theorem varIntLen_class (b : Byte) : varIntLen (varIntClass b) = 2 ^ (b.toNat / 64) := by
  rw [varIntLen, varIntClass_toNat]

theorem varIntLen_pos (cls : BitVec 2) : 1 ≤ varIntLen cls := Nat.one_le_two_pow

/-- A VarInt is read exactly if one stands there and it ends before the limit. -/
theorem readVarInt_eq_ok {w : Window} {c c' n : Nat} {v : U62} :
    readVarInt w c = .ok ((v, n), c') ↔ varIntAt w.mem c = some (v, n) ∧ c + n ≤ w.lim ∧ c' = c + n := by
  simp only [readVarInt, varIntTail, bind_eq_ok, Prod.exists, readByte_eq_ok, varIntMore_eq_ok, varIntAt,
    varIntLen_class, varIntHigh_toNat, Except.ok.injEq, Prod.mk.injEq]
  constructor
  · rintro ⟨b, _, ⟨h1, h2, rfl⟩, _, _, ⟨h3, rfl, x, h4, rfl⟩, ⟨rfl, rfl⟩, rfl⟩
    have := Nat.one_le_two_pow (n := b.toNat / 64)
    exact ⟨by simp [h2, h4], by omega, by omega⟩
  · rintro ⟨h1, h2, rfl⟩
    cases h : Memory.read w.mem c with
    | none => simp [h] at h1
    | some b =>
      have := Nat.one_le_two_pow (n := b.toNat / 64)
      simp only [h, Option.map_eq_some_iff, Prod.mk.injEq] at h1
      obtain ⟨x, h3, rfl, rfl⟩ := h1
      exact ⟨b, c + 1, ⟨by omega, rfl, rfl⟩, _, _, ⟨by omega, rfl, x, h3, rfl⟩, ⟨rfl, rfl⟩, by omega⟩

theorem readVi_eq_ok {w : Window} {c c' : Nat} {v : U62} :
    readVi w c = .ok (v, c') ↔ ∃ n, varIntAt w.mem c = some (v, n) ∧ c + n ≤ w.lim ∧ c' = c + n := by
  simp only [readVi, bind_eq_ok, Prod.exists, readVarInt_eq_ok, Except.ok.injEq, Prod.mk.injEq]
  constructor
  · rintro ⟨_, n, _, ⟨h1, h2, rfl⟩, rfl, rfl⟩
    exact ⟨n, h1, h2, rfl⟩
  · rintro ⟨n, h1, h2, rfl⟩
    exact ⟨v, n, _, ⟨h1, h2, rfl⟩, rfl, rfl⟩

/-- A VarInt has at least one byte. -/
theorem varIntAt_pos {m : Memory} {a n : Nat} {v : U62} (h : varIntAt m a = some (v, n)) : 1 ≤ n := by
  unfold varIntAt at h
  cases h1 : Memory.read m a with
  | none => simp [h1] at h
  | some b =>
    simp only [h1, Option.map_eq_some_iff, Prod.mk.injEq] at h
    obtain ⟨_, -, -, rfl⟩ := h
    exact Nat.one_le_two_pow

/-- A VarInt has 1, 2, 4 or 8 bytes. -/
theorem varIntAt_len {m : Memory} {a n : Nat} {v : U62} (h : varIntAt m a = some (v, n)) :
    n = 1 ∨ n = 2 ∨ n = 4 ∨ n = 8 := by
  unfold varIntAt at h
  cases h1 : Memory.read m a with
  | none => simp [h1] at h
  | some b =>
    simp only [h1, Option.map_eq_some_iff, Prod.mk.injEq] at h
    obtain ⟨_, -, -, rfl⟩ := h
    have hb : b.toNat / 64 < 4 := by have := b.isLt; omega
    generalize b.toNat / 64 = k at hb
    interval_cases k <;> simp

/-- The bytes of a VarInt after its first, cut by the limit: TRUNCATED at the limit. -/
theorem varIntMore_cut {w : Window} {k v c : Nat} (hc : c ≤ w.lim) (hk : w.lim < c + k)
    (hw : writtenFrom w.mem c w.lim) : varIntMore w k v c = raise .truncated w.lim := by
  induction k generalizing v c with
  | zero => omega
  | succ k ih =>
    by_cases h : c + 1 ≤ w.lim
    · obtain ⟨b, hb⟩ := Option.isSome_iff_exists.1 (hw c (Nat.le_refl _) h)
      rw [varIntMore, readByte_eq_ok.2 ⟨h, hb, rfl⟩, ok_bind]
      exact ih h (by omega) fun x h1 h2 => hw x (by omega) h2
    · rw [varIntMore, readByte_cut (by omega), raise_bind, show c = w.lim by omega]

/-- A VarInt that the limit cuts, in written input: TRUNCATED at the limit. -/
theorem readVarInt_cut {w : Window} {c : Nat} (hc : c ≤ w.lim) (hw : writtenFrom w.mem c w.lim)
    (h : ∀ v n, varIntAt w.mem c = some (v, n) → w.lim < c + n) : readVarInt w c = raise .truncated w.lim := by
  by_cases hlt : c + 1 ≤ w.lim
  · obtain ⟨b, hb⟩ := Option.isSome_iff_exists.1 (hw c (Nat.le_refl _) hlt)
    have hpos : 1 ≤ varIntLen (varIntClass b) := Nat.one_le_two_pow
    by_cases hcut : w.lim < c + varIntLen (varIntClass b)
    · have := varIntMore_cut (v := (varIntHigh b).toNat) (k := varIntLen (varIntClass b) - 1) hlt (by omega)
        fun x h1 h2 => hw x (by omega) h2
      simp only [readVarInt, readByte_eq_ok.2 ⟨hlt, hb, rfl⟩, ok_bind, varIntTail, this, raise_bind]
    · exfalso
      have hex : ∀ n a, (∀ x, a ≤ x → x < a + n → (w.mem.read x).isSome = true) → ∃ v, valueAt w.mem a n = some v := by
        intro n
        induction n with
        | zero => exact fun a _ => ⟨0, rfl⟩
        | succ n ih =>
          intro a ha
          obtain ⟨v, hv⟩ := ih a fun x h1 h2 => ha x h1 (by omega)
          obtain ⟨y, hy⟩ := Option.isSome_iff_exists.1 (ha (a + n) (by omega) (by omega))
          exact ⟨_, valueAt_succ_iff.2 ⟨v, y, hv, hy, rfl⟩⟩
      obtain ⟨x, hx⟩ := hex (varIntLen (varIntClass b) - 1) (c + 1) fun x h1 h2 => hw x (by omega) (by omega)
      have hl : varIntLen (varIntClass b) = 2 ^ (b.toNat / 64) := by rw [varIntLen, varIntClass_toNat]
      have := h (BitVec.ofNat 62 (b.toNat % 64 * 256 ^ (2 ^ (b.toNat / 64) - 1) + x)) (2 ^ (b.toNat / 64)) (by
        rw [hl] at hx
        simp [varIntAt, hb, hx])
      omega
  · have hcl : c = w.lim := by omega
    rw [readVarInt, readByte_cut (by omega), raise_bind, hcl]

/-- A run of VarInts ends no earlier than it starts. -/
theorem varIntsAt_le {m : Memory} {k a e : Nat} {vs : List U62} (h : varIntsAt m a k = some (vs, e)) :
    a + k ≤ e := by
  induction k generalizing a vs with
  | zero => simp [varIntsAt] at h; omega
  | succ k ih =>
    unfold varIntsAt at h
    cases h1 : varIntAt m a with
    | none => simp [h1] at h
    | some r =>
      simp only [h1, Option.map_eq_some_iff, Prod.exists, Prod.mk.injEq] at h
      obtain ⟨_, _, h2, -, rfl⟩ := h
      have := ih h2
      have := varIntAt_pos h1
      omega

theorem varIntsAt_zero (m : Memory) (a : Nat) : varIntsAt m a 0 = some ([], a) := rfl

/-- A run of VarInts is its first one and the run after it. -/
theorem varIntsAt_succ_iff {m : Memory} {k a e : Nat} {vs : List U62} :
    varIntsAt m a (k + 1) = some (vs, e) ↔
      ∃ v n rest, varIntAt m a = some (v, n) ∧ varIntsAt m (a + n) k = some (rest, e) ∧ vs = v :: rest := by
  rw [varIntsAt]
  cases varIntAt m a with
  | none => simp
  | some r =>
    simp only [Option.map_eq_some_iff, Prod.exists, Prod.mk.injEq, Option.some.injEq]
    constructor
    · rintro ⟨rest, _, h, rfl, rfl⟩
      exact ⟨r.1, r.2, rest, rfl, h, rfl⟩
    · rintro ⟨v, n, rest, rfl, h, rfl⟩
      exact ⟨rest, e, h, rfl, rfl⟩

/-! ## Headers (41_header.md) -/

theorem restSlice_eq (w : Window) (c : Nat) : restSlice w c = (⟨c, w.lim - c⟩, w.lim) := rfl

theorem readCid_eq_ok {w : Window} {c c' : Nat} {d : Slice} :
    readCid w c = .ok (d, c') ↔
      ∃ n, w.mem.read c = some n ∧ n.toNat ≤ cidMaxLen ∧ c + 1 + n.toNat ≤ w.lim ∧ d = ⟨c + 1, n.toNat⟩ ∧
        c' = c + 1 + n.toNat := by
  simp only [readCid, bind_eq_ok, Prod.exists, readByte_eq_ok]
  constructor
  · rintro ⟨n, _, ⟨h1, h2, rfl⟩, h3⟩
    split at h3
    · simp at h3
    · obtain ⟨h4, h5, h6⟩ := readSlice_eq_ok.1 h3
      exact ⟨n, h2, by omega, h4, h5, h6⟩
  · rintro ⟨n, h1, h2, h3, h4, h5⟩
    refine ⟨n, _, ⟨by omega, h1, rfl⟩, ?_⟩
    rw [if_neg (by omega)]
    exact readSlice_eq_ok.2 ⟨h3, h4, h5⟩

theorem fixedBitCheckLong_eq_ok {enforce : Bool} {flags : Byte} {version : U32} {start : Nat} {u : Unit} :
    fixedBitCheckLong enforce flags version start = .ok u ↔
      (enforce && version != 0 && !fixedBit flags) = false := by
  unfold fixedBitCheckLong
  split <;> simp_all

theorem fixedBitCheckShort_eq_ok {enforce : Bool} {flags : Byte} {start : Nat} {u : Unit} :
    fixedBitCheckShort enforce flags start = .ok u ↔ (enforce && !fixedBit flags) = false := by
  unfold fixedBitCheckShort
  split <;> simp_all

theorem checkShortDcidLen_eq_ok {ctrl : Word} {start : Nat} {u : Unit} :
    checkShortDcidLen ctrl start = .ok u ↔ shortDcidLen ctrl ≤ cidMaxLen := by
  unfold checkShortDcidLen
  split <;> simp <;> omega

/-- What a long header's fields can answer: a header whose parts lie before the cursor they leave. -/
theorem longFields_eq_ok {enforce : Bool} {flags : Byte} {start : Nat} {w : Window} {c c' : Nat} {h : Header}
    (hr : longFields enforce flags start w c = .ok (h, c')) :
    ∃ v dl sl, h = .long flags (BitVec.ofNat 32 v) ⟨c + 5, dl⟩ ⟨c + 6 + dl, sl⟩ ∧ dl ≤ 20 ∧ sl ≤ 20 ∧
      valueAt w.mem c 4 = some v ∧ c' = c + 6 + dl + sl ∧ c' ≤ w.lim := by
  simp only [longFields, bind_eq_ok, Prod.exists, readN_eq_ok, readCid_eq_ok, Except.ok.injEq,
    Prod.mk.injEq] at hr
  obtain ⟨v, _, ⟨-, h2, rfl⟩, _, -, _, _, ⟨dl, -, h4, -, rfl, rfl⟩, _, _, ⟨sl, -, h5, h6, rfl, rfl⟩, rfl, rfl⟩ := hr
  simp only [cidMaxLen] at h4 h5
  refine ⟨v, dl.toNat, sl.toNat, ?_, h4, h5, h2, by omega, by omega⟩
  simp only [Header.long.injEq, Slice.mk.injEq, true_and, and_true]
  omega

/-- What a short header's fields can answer. -/
theorem shortFields_eq_ok {ctrl : Word} {flags : Byte} {start : Nat} {w : Window} {c c' : Nat} {h : Header} :
    shortFields ctrl flags start w c = .ok (h, c') ↔
      (enforceFixedBit ctrl && !fixedBit flags) = false ∧ h = .short flags ⟨c, shortDcidLen ctrl⟩ ∧
        c' = c + shortDcidLen ctrl ∧ c' ≤ w.lim := by
  simp only [shortFields, bind_eq_ok, Prod.exists, readSlice_eq_ok, fixedBitCheckShort_eq_ok, Except.ok.injEq,
    Prod.mk.injEq]
  constructor
  · rintro ⟨_, h1, _, _, ⟨h2, rfl, rfl⟩, rfl, rfl⟩
    exact ⟨h1, rfl, rfl, h2⟩
  · rintro ⟨h1, rfl, rfl, h2⟩
    exact ⟨(), h1, _, _, ⟨h2, rfl, rfl⟩, rfl, rfl⟩

theorem readPn_eq_ok {w : Window} {c c' n : Nat} {pn : U32} :
    readPn w c n = .ok (pn, c') ↔
      ∃ v, valueAt w.mem c n = some v ∧ pn = BitVec.ofNat 32 v ∧ c + n ≤ w.lim ∧ c' = c + n := by
  simp only [readPn, bind_eq_ok, Prod.exists, readN_eq_ok, Except.ok.injEq, Prod.mk.injEq]
  constructor
  · rintro ⟨v, _, ⟨h1, h2, rfl⟩, rfl, rfl⟩
    exact ⟨v, h2, rfl, h1, rfl⟩
  · rintro ⟨v, h2, rfl, h1, rfl⟩
    exact ⟨v, _, ⟨h1, h2, rfl⟩, rfl, rfl⟩

end Sys2Proof.Machine
end

