-- ==== Sys2Proof/Laws/Bounds.lean ====
section
/-! SUPPORT. Every reader moves its cursor forwards and not past its limit, and what it reports lies before the
limit (00_scope.md R10). -/

namespace Sys2Proof.Machine

/-- What a reader that starts at `c` answers leaves a cursor from `c` to the limit, and satisfies `P`. -/
def Bounded {α : Type} (w : Window) (c : Nat) (P : α → Prop) (r : Except Stop (α × Nat)) : Prop :=
  ∀ a c', r = .ok (a, c') → c ≤ c' ∧ c' ≤ w.lim ∧ P a

/-- A descriptor of bytes before the limit. -/
def Slice.Before (n : Nat) (d : Slice) : Prop := d.off + d.len ≤ n

theorem Bounded.ok {α : Type} {w : Window} {c : Nat} {P : α → Prop} {a : α} (hc : c ≤ w.lim) (ha : P a) :
    Bounded w c P (.ok (a, c)) := by
  rintro _ _ h
  cases h
  exact ⟨Nat.le_refl _, hc, ha⟩

theorem Bounded.raise {α : Type} (w : Window) (c : Nat) (P : α → Prop) (e : Err) (o : Nat) :
    Bounded w c P (raise e o) := by
  rintro _ _ h
  simp at h

theorem Bounded.ite {α : Type} {w : Window} {c : Nat} {P : α → Prop} {q : Prop} [Decidable q]
    {x y : Except Stop (α × Nat)} (hx : q → Bounded w c P x) (hy : ¬q → Bounded w c P y) :
    Bounded w c P (if q then x else y) := by
  split
  · exact hx ‹_›
  · exact hy ‹_›

theorem Bounded.bind {α β : Type} {w : Window} {c : Nat} {P : α → Prop} {Q : β → Prop}
    {x : Except Stop (α × Nat)} {f : α × Nat → Except Stop (β × Nat)} (hx : Bounded w c P x)
    (hf : ∀ a c1, c ≤ c1 → c1 ≤ w.lim → P a → Bounded w c1 Q (f (a, c1))) : Bounded w c Q (x >>= f) := by
  rintro b c' h
  obtain ⟨⟨a, c1⟩, h1, h2⟩ := bind_eq_ok.1 h
  obtain ⟨h3, h4, h5⟩ := hx a c1 h1
  obtain ⟨h6, h7, h8⟩ := hf a c1 h3 h4 h5 b c' h2
  exact ⟨by omega, h7, h8⟩

/-- A check that reads nothing. -/
theorem Bounded.check {β : Type} {w : Window} {c : Nat} {Q : β → Prop} {x : Except Stop Unit}
    {f : Unit → Except Stop (β × Nat)} (hf : Bounded w c Q (f ())) : Bounded w c Q (x >>= f) := by
  rintro b c' h
  obtain ⟨_, -, h2⟩ := bind_eq_ok.1 h
  exact hf b c' h2

theorem Bounded.imp {α : Type} {w : Window} {c : Nat} {P Q : α → Prop} {x : Except Stop (α × Nat)}
    (hx : Bounded w c P x) (h : ∀ a, P a → Q a) : Bounded w c Q x := fun a c' he =>
  ⟨(hx a c' he).1, (hx a c' he).2.1, h a (hx a c' he).2.2⟩

theorem readN_bounded (w : Window) (c n : Nat) : Bounded w c (fun _ => True) (readN w c n) := by
  rintro v c' h
  obtain ⟨h1, -, rfl⟩ := readN_eq_ok.1 h
  exact ⟨by omega, h1, trivial⟩

theorem readSlice_bounded (w : Window) (c n : Nat) :
    Bounded w c (fun d => d = ⟨c, n⟩ ∧ d.Before w.lim) (readSlice w c n) := by
  rintro d c' h
  obtain ⟨h1, rfl, rfl⟩ := readSlice_eq_ok.1 h
  exact ⟨by omega, h1, rfl, h1⟩

theorem restSlice_bounded {w : Window} {c : Nat} (hc : c ≤ w.lim) :
    Bounded w c (Slice.Before w.lim) (.ok (restSlice w c)) := by
  rintro d c' h
  cases h
  exact ⟨hc, Nat.le_refl _, by simp only [Slice.Before]; omega⟩

theorem readVarInt_bounded (w : Window) (c : Nat) : Bounded w c (fun _ => True) (readVarInt w c) := by
  rintro ⟨v, n⟩ c' h
  obtain ⟨-, h2, rfl⟩ := readVarInt_eq_ok.1 h
  exact ⟨by omega, h2, trivial⟩

theorem readVi_bounded (w : Window) (c : Nat) : Bounded w c (fun _ => True) (readVi w c) := by
  rintro v c' h
  obtain ⟨n, -, h2, rfl⟩ := readVi_eq_ok.1 h
  exact ⟨by omega, h2, trivial⟩

theorem readCid_bounded (w : Window) (c : Nat) :
    Bounded w c (fun d => d.Before w.lim ∧ d.len ≤ 20) (readCid w c) := by
  rintro d c' h
  obtain ⟨n, -, h2, h3, rfl, rfl⟩ := readCid_eq_ok.1 h
  exact ⟨by omega, h3, h3, h2⟩

theorem readPn_bounded (w : Window) (c n : Nat) : Bounded w c (fun _ => True) (readPn w c n) := by
  rintro pn c' h
  obtain ⟨v, -, -, h3, rfl⟩ := readPn_eq_ok.1 h
  exact ⟨by omega, h3, trivial⟩

/-! ## Headers -/

/-- A header whose connection IDs lie before the limit and are no longer than `n`. -/
def Header.Within (n lim : Nat) (h : Header) : Prop :=
  h.dcid.Before lim ∧ h.scid.Before lim ∧ h.dcid.len ≤ n ∧ h.scid.len ≤ n

theorem longFields_bounded (enforce : Bool) (flags : Byte) (start : Nat) (w : Window) (c : Nat) :
    Bounded w c (fun h => h.Within 20 w.lim ∧ h.flags = flags ∧ h.isLong = true)
      (longFields enforce flags start w c) :=
  (readN_bounded _ _ _).bind fun _ _ _ _ _ => .check <| (readCid_bounded _ _).bind fun _ _ _ _ hd =>
    (readCid_bounded _ _).bind fun _ _ _ hl hs => .ok hl ⟨⟨hd.1, hs.1, hd.2, hs.2⟩, rfl, rfl⟩

theorem decodeLong_bounded (enforce : Bool) (w : Window) (c : Nat) :
    Bounded w (c + 1) (fun h => h.Within 20 w.lim) (decodeLong enforce w c) := by
  rintro h c' hr
  obtain ⟨⟨flags, c1⟩, h1, h2⟩ := bind_eq_ok.1 hr
  obtain ⟨-, -, rfl⟩ := readByte_eq_ok.1 h1
  exact (Bounded.ite (fun _ => longFields_bounded _ _ _ _ _) fun _ => .raise _ _ _ _ _).imp (fun _ h => h.1) h c' h2

theorem shortFields_bounded (ctrl : Word) (flags : Byte) (start : Nat) (w : Window) (c : Nat) :
    Bounded w c (fun h => h.Within (shortDcidLen ctrl) w.lim ∧ h.flags = flags ∧ h.isLong = false)
      (shortFields ctrl flags start w c) :=
  .check <| (readSlice_bounded _ _ _).bind fun _ _ _ hl hd =>
    .ok hl ⟨⟨hd.2, by simp [Slice.Before, Header.scid], by simp [Header.dcid, hd.1], by simp [Header.scid]⟩,
      rfl, rfl⟩

theorem decodeShort_bounded (ctrl : Word) (w : Window) (c : Nat) :
    Bounded w (c + 1) (fun h => h.Within 20 w.lim) (decodeShort ctrl w c) := by
  rintro h c' hr
  obtain ⟨_, h0, hr⟩ := bind_eq_ok.1 hr
  obtain ⟨⟨flags, c1⟩, h1, h2⟩ := bind_eq_ok.1 hr
  obtain ⟨-, -, rfl⟩ := readByte_eq_ok.1 h1
  have hl := checkShortDcidLen_eq_ok.1 h0
  simp only [cidMaxLen] at hl
  refine (Bounded.ite (fun _ => .raise _ _ _ _ _) fun _ => shortFields_bounded _ _ _ _ _).imp (fun _ h => ?_) h c' h2
  exact ⟨h.1.1, h.1.2.1, le_trans h.1.2.2.1 hl, le_trans h.1.2.2.2 hl⟩

/-! ## The fields after a packet's header -/

/-- A packet tail whose descriptors lie before the limit, with a packet number of 1 to 4 bytes if any. -/
def PacketTail.Within (lim : Nat) (t : PacketTail) : Prop :=
  (∀ d ∈ t.token, Slice.Before lim d) ∧ (∀ c, c ≤ lim → (t.payload c).Before lim) ∧ ∀ p ∈ t.pn, p.2 ≤ 4

theorem readWords_bounded (w : Window) (n c : Nat) (hc : c ≤ w.lim) :
    Bounded w c (fun _ => True) (readWords w n c) := by
  induction n generalizing c with
  | zero => exact .ok hc trivial
  | succ n ih =>
    exact (readN_bounded _ _ _).bind fun _ _ _ h1 _ => (ih _ h1).bind fun _ _ _ h2 _ => .ok h2 trivial

theorem vnTail_bounded (w : Window) (c : Nat) (hc : c ≤ w.lim) :
    Bounded w c (PacketTail.Within w.lim) (vnTail w c) :=
  .ite (fun _ => .raise _ _ _ _ _) fun _ => (readWords_bounded _ _ _ hc).bind fun _ _ _ h1 _ =>
    .ok h1 ⟨by simp [PacketTail.token], fun _ h => by simpa [PacketTail.payload, Slice.Before] using h,
      by simp [PacketTail.pn]⟩

theorem lengthFramed_bounded (p : Bool) (pnl : BitVec 2) (w : Window) (c : Nat) :
    Bounded w c (fun f => f.payload.Before w.lim ∧ f.pnLen = pnl.toNat + 1) (lengthFramed p pnl w c) := by
  refine (readVarInt_bounded _ _).bind fun x c1 _ h1 _ => ?_
  refine .ite (fun _ => .ite (fun _ => .raise _ _ _ _ _) fun _ => .ite (fun _ => .raise _ _ _ _ _) fun hle => ?_)
    fun _ => ?_
  · rintro f c' h
    obtain ⟨⟨pn, c2⟩, h2, h3⟩ := bind_eq_ok.1 h
    obtain ⟨-, -, -, h4, rfl⟩ := readPn_eq_ok.1 h2
    cases h3
    exact ⟨by omega, by omega, by simp only [Slice.Before, declaredPnLen] at *; omega, rfl⟩
  · rintro f c' h
    obtain ⟨⟨pn, c2⟩, h2, h3⟩ := bind_eq_ok.1 h
    obtain ⟨-, -, -, h4, rfl⟩ := readPn_eq_ok.1 h2
    simp only at h3
    split at h3
    · simp at h3
    · cases h3
      exact ⟨by omega, by omega, by simp only [Slice.Before] at *; omega, rfl⟩

theorem initialTail_bounded (p : Bool) (pnl : BitVec 2) (w : Window) (c : Nat) :
    Bounded w c (PacketTail.Within w.lim) (initialTail p pnl w c) :=
  (readVarInt_bounded _ _).bind fun x _ _ _ _ => (readSlice_bounded _ _ _).bind fun d _ _ _ hd =>
    (lengthFramed_bounded _ _ _ _).bind fun f _ _ h hf =>
      .ok h ⟨by
        intro d' hd'
        simp only [PacketTail.token] at hd'
        split at hd'
        · simp at hd'
        · cases hd'; exact hd.2,
        fun _ _ => hf.1, by simp [PacketTail.pn, hf.2]; omega⟩

theorem zeroRttTail_bounded (p : Bool) (pnl : BitVec 2) (w : Window) (c : Nat) :
    Bounded w c (PacketTail.Within w.lim) (zeroRttTail p pnl w c) :=
  (lengthFramed_bounded _ _ _ _).bind fun f _ _ h hf =>
    .ok h ⟨by simp [PacketTail.token], fun _ _ => hf.1, by simp [PacketTail.pn, hf.2]; omega⟩

theorem handshakeTail_bounded (p : Bool) (pnl : BitVec 2) (w : Window) (c : Nat) :
    Bounded w c (PacketTail.Within w.lim) (handshakeTail p pnl w c) :=
  (lengthFramed_bounded _ _ _ _).bind fun f _ _ h hf =>
    .ok h ⟨by simp [PacketTail.token], fun _ _ => hf.1, by simp [PacketTail.pn, hf.2]; omega⟩

theorem retryTail_bounded (w : Window) (c : Nat) (hc : c ≤ w.lim) :
    Bounded w c (PacketTail.Within w.lim) (retryTail w c) := by
  rintro t c' h
  cases h
  refine ⟨hc, Nat.le_refl _, ?_, fun _ h => by simpa [PacketTail.payload, Slice.Before] using h,
    by simp [PacketTail.pn]⟩
  simp only [PacketTail.token, Option.mem_some_iff, forall_eq', Slice.Before]
  omega

theorem shortTail_bounded (pnl : BitVec 2) (w : Window) (c : Nat) :
    Bounded w c (PacketTail.Within w.lim) (shortTail pnl w c) := by
  refine (readPn_bounded _ _ _).bind fun pn c1 _ h1 _ => ?_
  rintro t c' h
  cases h
  refine ⟨h1, Nat.le_refl _, by simp [PacketTail.token], fun _ _ => ?_, ?_⟩
  · simp only [PacketTail.payload, Slice.Before]; omega
  · simp [PacketTail.pn, declaredPnLen]; omega

/-! ## The frame extractors -/

/-- A frame whose descriptors lie before the limit. -/
def Extracted.Within (lim : Nat) (x : Extracted) : Prop := ∀ d ∈ x.slices, Slice.Before lim d

theorem readPairs_bounded (w : Window) (k c : Nat) (hc : c ≤ w.lim) :
    Bounded w c (fun _ => True) (readPairs w k c) := by
  induction k generalizing c with
  | zero => exact .ok hc trivial
  | succ k ih =>
    exact (readVi_bounded _ _).bind fun _ _ _ _ _ => (readVi_bounded _ _).bind fun _ _ _ h _ =>
      (ih _ h).bind fun _ _ _ h _ => .ok h trivial

theorem readEcn_bounded (p : Bool) (w : Window) (c : Nat) (hc : c ≤ w.lim) :
    Bounded w c (fun _ => True) (readEcn p w c) :=
  .ite (fun _ => (readVi_bounded _ _).bind fun _ _ _ _ _ => (readVi_bounded _ _).bind fun _ _ _ _ _ =>
    (readVi_bounded _ _).bind fun _ _ _ h _ => .ok h trivial) fun _ => .ok hc trivial

theorem readOptional_bounded (p : Bool) (w : Window) (c : Nat) (hc : c ≤ w.lim) :
    Bounded w c (fun _ => True) (readOptional p w c) :=
  .ite (fun _ => (readVi_bounded _ _).bind fun _ _ _ h _ => .ok h trivial) fun _ => .ok hc trivial

theorem readData_bounded (p : Bool) (w : Window) (c : Nat) (hc : c ≤ w.lim) :
    Bounded w c (Slice.Before w.lim) (readData p w c) :=
  .ite (fun _ => (readVi_bounded _ _).bind fun _ _ _ _ _ => (readSlice_bounded _ _ _).imp fun _ h => h.2)
    fun _ => restSlice_bounded hc

theorem readPath_bounded (w : Window) (c : Nat) :
    Bounded w c (fun x => x.1.Before w.lim) (readPath w c) := by
  refine (readSlice_bounded _ _ _).bind fun d c1 _ h1 hd => ?_
  rintro x c' h
  obtain ⟨v, -, h3⟩ := bind_eq_ok.1 h
  cases h3
  exact ⟨Nat.le_refl _, h1, hd.2⟩

theorem extractNone_bounded (f : Frame) (w : Window) (c : Nat) (hc : c ≤ w.lim) :
    Bounded w c (Extracted.Within w.lim) (extractNone f w c) := .ok hc (by simp [Extracted.Within])

/-- A frame without descriptors. -/
theorem Bounded.plain {w : Window} {c : Nat} {f : Frame} {r : FieldRegs} (hc : c ≤ w.lim) :
    Bounded w c (Extracted.Within w.lim) (.ok (⟨f, r, []⟩, c)) := .ok hc (by simp [Extracted.Within])

/-- A frame with one descriptor. -/
theorem Bounded.one {w : Window} {c : Nat} {f : Frame} {r : FieldRegs} {d : Slice} (hc : c ≤ w.lim)
    (hd : d.Before w.lim) : Bounded w c (Extracted.Within w.lim) (.ok (⟨f, r, [d]⟩, c)) :=
  .ok hc (by simpa [Extracted.Within] using hd)

theorem extractAck_bounded (e : Bool) (w : Window) (c : Nat) :
    Bounded w c (Extracted.Within w.lim) (extractAck e w c) :=
  (readVi_bounded _ _).bind fun _ _ _ _ _ => (readVi_bounded _ _).bind fun _ _ _ _ _ =>
    (readVi_bounded _ _).bind fun _ _ _ _ _ => (readVi_bounded _ _).bind fun _ _ _ h _ =>
      (readPairs_bounded _ _ _ h).bind fun _ c1 h1 h2 _ => (readEcn_bounded _ _ _ h2).bind fun _ c2 _ h3 _ =>
        .one h3 (by simp only [Slice.Before]; omega)

theorem extractResetStream_bounded (w : Window) (c : Nat) :
    Bounded w c (Extracted.Within w.lim) (extractResetStream w c) :=
  (readVi_bounded _ _).bind fun _ _ _ _ _ => (readVi_bounded _ _).bind fun _ _ _ _ _ =>
    (readVi_bounded _ _).bind fun _ _ _ h _ => .plain h

theorem extractStopSending_bounded (w : Window) (c : Nat) :
    Bounded w c (Extracted.Within w.lim) (extractStopSending w c) :=
  (readVi_bounded _ _).bind fun _ _ _ _ _ => (readVi_bounded _ _).bind fun _ _ _ h _ => .plain h

theorem extractCrypto_bounded (w : Window) (c : Nat) :
    Bounded w c (Extracted.Within w.lim) (extractCrypto w c) :=
  (readVi_bounded _ _).bind fun _ _ _ _ _ => (readVi_bounded _ _).bind fun _ _ _ _ _ =>
    (readSlice_bounded _ _ _).bind fun _ _ _ h hd => .one h hd.2

theorem extractNewToken_bounded (w : Window) (c : Nat) :
    Bounded w c (Extracted.Within w.lim) (extractNewToken w c) :=
  (readVi_bounded _ _).bind fun _ _ _ _ _ => (readSlice_bounded _ _ _).bind fun _ _ _ h hd => .one h hd.2

theorem extractStream_bounded (off len fin : Bool) (w : Window) (c : Nat) :
    Bounded w c (Extracted.Within w.lim) (extractStream off len fin w c) :=
  (readVi_bounded _ _).bind fun _ _ _ h _ => (readOptional_bounded _ _ _ h).bind fun _ _ _ h _ =>
    (readData_bounded _ _ _ h).bind fun _ _ _ h hd => .one h hd

theorem extractMaxData_bounded (w : Window) (c : Nat) :
    Bounded w c (Extracted.Within w.lim) (extractMaxData w c) :=
  (readVi_bounded _ _).bind fun _ _ _ h _ => .plain h

theorem extractMaxStreamData_bounded (w : Window) (c : Nat) :
    Bounded w c (Extracted.Within w.lim) (extractMaxStreamData w c) :=
  (readVi_bounded _ _).bind fun _ _ _ _ _ => (readVi_bounded _ _).bind fun _ _ _ h _ => .plain h

theorem extractMaxStreams_bounded (u : Bool) (w : Window) (c : Nat) :
    Bounded w c (Extracted.Within w.lim) (extractMaxStreams u w c) :=
  (readVi_bounded _ _).bind fun _ _ _ h _ => .plain h

theorem extractDataBlocked_bounded (w : Window) (c : Nat) :
    Bounded w c (Extracted.Within w.lim) (extractDataBlocked w c) :=
  (readVi_bounded _ _).bind fun _ _ _ h _ => .plain h

theorem extractStreamDataBlocked_bounded (w : Window) (c : Nat) :
    Bounded w c (Extracted.Within w.lim) (extractStreamDataBlocked w c) :=
  (readVi_bounded _ _).bind fun _ _ _ _ _ => (readVi_bounded _ _).bind fun _ _ _ h _ => .plain h

theorem extractStreamsBlocked_bounded (u : Bool) (w : Window) (c : Nat) :
    Bounded w c (Extracted.Within w.lim) (extractStreamsBlocked u w c) :=
  (readVi_bounded _ _).bind fun _ _ _ h _ => .plain h

theorem extractNewConnectionId_bounded (w : Window) (c : Nat) :
    Bounded w c (Extracted.Within w.lim) (extractNewConnectionId w c) :=
  (readVi_bounded _ _).bind fun _ _ _ _ _ => (readVi_bounded _ _).bind fun _ _ _ _ _ =>
    (readCid_bounded _ _).bind fun _ _ _ _ hd => (readSlice_bounded _ _ _).bind fun _ _ _ h ht =>
      .ok h (by simpa [Extracted.Within] using ⟨hd.1, ht.2⟩)

theorem extractRetireConnectionId_bounded (w : Window) (c : Nat) :
    Bounded w c (Extracted.Within w.lim) (extractRetireConnectionId w c) :=
  (readVi_bounded _ _).bind fun _ _ _ h _ => .plain h

theorem extractPathChallenge_bounded (w : Window) (c : Nat) :
    Bounded w c (Extracted.Within w.lim) (extractPathChallenge w c) :=
  (readPath_bounded _ _).bind fun _ _ _ h hd => .one h hd

theorem extractPathResponse_bounded (w : Window) (c : Nat) :
    Bounded w c (Extracted.Within w.lim) (extractPathResponse w c) :=
  (readPath_bounded _ _).bind fun _ _ _ h hd => .one h hd

theorem extractConnectionClose_bounded (app : Bool) (w : Window) (c : Nat) :
    Bounded w c (Extracted.Within w.lim) (extractConnectionClose app w c) :=
  (readVi_bounded _ _).bind fun _ _ _ h _ => (readOptional_bounded _ _ _ h).bind fun _ _ _ _ _ =>
    (readVi_bounded _ _).bind fun _ _ _ _ _ => (readSlice_bounded _ _ _).bind fun _ _ _ h hd =>
      .ok h (by
        intro d' hd'
        simp only [Option.mem_toList] at hd'
        split at hd'
        · simp at hd'
        · cases hd'; exact hd.2)

theorem extractDatagram_bounded (len : Bool) (w : Window) (c : Nat) (hc : c ≤ w.lim) :
    Bounded w c (Extracted.Within w.lim) (extractDatagram len w c) :=
  (readData_bounded _ _ _ hc).bind fun _ _ _ h hd => .one h hd

end Sys2Proof.Machine
end

