-- ==== Sys2Proof/Laws/Faults.lean ====
section
/-! SUPPORT. A reader stops without raising only at a byte of `IN`, before its limit, that was not written. -/

namespace Sys2Proof.Machine

/-- A reader's answer that is a fault only for an unwritten byte before `w`'s limit. -/
def FaultsOnlyUnwritten {α : Type} (w : Window) (x : Except Stop α) : Prop :=
  ∀ f, x = .error (.fault f) → ∃ a, f = .unwrittenInput a ∧ a < w.lim ∧ w.mem.read a = none

theorem FaultsOnlyUnwritten.ok {α : Type} (w : Window) (a : α) :
    FaultsOnlyUnwritten w (.ok a : Except Stop α) := by simp [FaultsOnlyUnwritten]

theorem FaultsOnlyUnwritten.raise {α : Type} (w : Window) (e : Err) (o : Nat) :
    FaultsOnlyUnwritten w (raise e o : Except Stop α) := by simp [FaultsOnlyUnwritten]

theorem FaultsOnlyUnwritten.bind {α β : Type} {w : Window} {x : Except Stop α} {f : α → Except Stop β}
    (hx : FaultsOnlyUnwritten w x) (hf : ∀ a, x = .ok a → FaultsOnlyUnwritten w (f a)) :
    FaultsOnlyUnwritten w (x >>= f) := by
  intro e he
  rcases bind_eq_error.1 he with h | ⟨a, h1, h2⟩
  · exact hx e h
  · exact hf a h1 e h2

theorem FaultsOnlyUnwritten.ite {α : Type} {w : Window} {p : Prop} [Decidable p] {x y : Except Stop α}
    (hx : p → FaultsOnlyUnwritten w x) (hy : ¬p → FaultsOnlyUnwritten w y) :
    FaultsOnlyUnwritten w (if p then x else y) := by
  split
  · exact hx ‹_›
  · exact hy ‹_›

theorem need_faults (w : Window) (c n : Nat) : FaultsOnlyUnwritten w (need w c n) :=
  .ite (fun _ => .raise _ _ _) fun _ => .ok _ _

theorem memByte_faults {w : Window} {a : Nat} (h : a < w.lim) : FaultsOnlyUnwritten w (memByte w a) := by
  intro f hf
  obtain ⟨h1, h2⟩ := memByte_eq_error.1 hf
  exact ⟨a, by simpa using h2, h, h1⟩

theorem memRead_faults {w : Window} {a n : Nat} (h : a + n ≤ w.lim) : FaultsOnlyUnwritten w (memRead w a n) := by
  intro f hf
  obtain ⟨k, h1, h2, h3⟩ := memRead_eq_error hf
  exact ⟨a + k, by simpa using h3, by omega, h2⟩

theorem peekByte_faults (w : Window) (c : Nat) : FaultsOnlyUnwritten w (peekByte w c) :=
  (need_faults _ _ _).bind fun _ h => memByte_faults (need_eq_ok.1 h)

theorem readByte_faults (w : Window) (c : Nat) : FaultsOnlyUnwritten w (readByte w c) :=
  (need_faults _ _ _).bind fun _ h => (memByte_faults (need_eq_ok.1 h)).bind fun _ _ => .ok _ _

theorem readN_faults (w : Window) (c n : Nat) : FaultsOnlyUnwritten w (readN w c n) :=
  (need_faults _ _ _).bind fun _ h => (memRead_faults (need_eq_ok.1 h)).bind fun _ _ => .ok _ _

theorem readSlice_faults (w : Window) (c n : Nat) : FaultsOnlyUnwritten w (readSlice w c n) :=
  (need_faults _ _ _).bind fun _ _ => .ok _ _

theorem varIntMore_faults (w : Window) (k v c : Nat) : FaultsOnlyUnwritten w (varIntMore w k v c) := by
  induction k generalizing v c with
  | zero => exact .ok _ _
  | succ k ih => exact (readByte_faults _ _).bind fun _ _ => ih _ _

theorem varIntTail_faults (w : Window) (cls : BitVec 2) (high : BitVec 6) (c : Nat) :
    FaultsOnlyUnwritten w (varIntTail w cls high c) :=
  (varIntMore_faults _ _ _ _).bind fun _ _ => .ok _ _

theorem readVarInt_faults (w : Window) (c : Nat) : FaultsOnlyUnwritten w (readVarInt w c) :=
  (readByte_faults _ _).bind fun _ _ => varIntTail_faults _ _ _ _

theorem readVi_faults (w : Window) (c : Nat) : FaultsOnlyUnwritten w (readVi w c) :=
  (readVarInt_faults _ _).bind fun _ _ => .ok _ _

theorem readCid_faults (w : Window) (c : Nat) : FaultsOnlyUnwritten w (readCid w c) :=
  (readByte_faults _ _).bind fun _ _ => .ite (fun _ => .raise _ _ _) fun _ => readSlice_faults _ _ _

theorem readPn_faults (w : Window) (c n : Nat) : FaultsOnlyUnwritten w (readPn w c n) :=
  (readN_faults _ _ _).bind fun _ _ => .ok _ _

theorem longFields_faults (enforce : Bool) (flags : Byte) (start : Nat) (w : Window) (c : Nat) :
    FaultsOnlyUnwritten w (longFields enforce flags start w c) :=
  (readN_faults _ _ _).bind fun _ _ => (FaultsOnlyUnwritten.ite (fun _ => .raise _ _ _) fun _ => .ok _ _).bind
    fun _ _ => (readCid_faults _ _).bind fun _ _ => (readCid_faults _ _).bind fun _ _ => .ok _ _

theorem decodeLong_faults (enforce : Bool) (w : Window) (c : Nat) :
    FaultsOnlyUnwritten w (decodeLong enforce w c) :=
  (readByte_faults _ _).bind fun _ _ => .ite (fun _ => longFields_faults _ _ _ _ _) fun _ => .raise _ _ _

theorem checkShortDcidLen_faults (ctrl : Word) (start : Nat) (w : Window) :
    FaultsOnlyUnwritten w (checkShortDcidLen ctrl start) :=
  .ite (fun _ => .raise _ _ _) fun _ => .ok _ _

theorem shortFields_faults (ctrl : Word) (flags : Byte) (start : Nat) (w : Window) (c : Nat) :
    FaultsOnlyUnwritten w (shortFields ctrl flags start w c) :=
  (FaultsOnlyUnwritten.ite (fun _ => .raise _ _ _) fun _ => .ok _ _).bind fun _ _ =>
    (readSlice_faults _ _ _).bind fun _ _ => .ok _ _

theorem decodeShort_faults (ctrl : Word) (w : Window) (c : Nat) :
    FaultsOnlyUnwritten w (decodeShort ctrl w c) :=
  (checkShortDcidLen_faults _ _ _).bind fun _ _ => (readByte_faults _ _).bind fun _ _ =>
    .ite (fun _ => .raise _ _ _) fun _ => shortFields_faults _ _ _ _ _

/-! ## The fields after a packet's header -/

theorem readWords_faults (w : Window) (n c : Nat) : FaultsOnlyUnwritten w (readWords w n c) := by
  induction n generalizing c with
  | zero => exact .ok _ _
  | succ n ih => exact (readN_faults _ _ _).bind fun _ _ => (ih _).bind fun _ _ => .ok _ _

theorem vnTail_faults (w : Window) (c : Nat) : FaultsOnlyUnwritten w (vnTail w c) :=
  .ite (fun _ => .raise _ _ _) fun _ => (readWords_faults _ _ _).bind fun _ _ => .ok _ _

theorem lengthFramed_faults (p : Bool) (pnl : BitVec 2) (w : Window) (c : Nat) :
    FaultsOnlyUnwritten w (lengthFramed p pnl w c) :=
  (readVarInt_faults _ _).bind fun _ _ => .ite
    (fun _ => .ite (fun _ => .raise _ _ _) fun _ => .ite (fun _ => .raise _ _ _) fun _ =>
      (readPn_faults _ _ _).bind fun _ _ => .ok _ _)
    fun _ => (readPn_faults _ _ _).bind fun _ _ => .ite (fun _ => .raise _ _ _) fun _ => .ok _ _

theorem initialTail_faults (p : Bool) (pnl : BitVec 2) (w : Window) (c : Nat) :
    FaultsOnlyUnwritten w (initialTail p pnl w c) :=
  (readVarInt_faults _ _).bind fun _ _ => (readSlice_faults _ _ _).bind fun _ _ =>
    (lengthFramed_faults _ _ _ _).bind fun _ _ => .ok _ _

theorem zeroRttTail_faults (p : Bool) (pnl : BitVec 2) (w : Window) (c : Nat) :
    FaultsOnlyUnwritten w (zeroRttTail p pnl w c) :=
  (lengthFramed_faults _ _ _ _).bind fun _ _ => .ok _ _

theorem handshakeTail_faults (p : Bool) (pnl : BitVec 2) (w : Window) (c : Nat) :
    FaultsOnlyUnwritten w (handshakeTail p pnl w c) :=
  (lengthFramed_faults _ _ _ _).bind fun _ _ => .ok _ _

theorem retryTail_faults (w : Window) (c : Nat) : FaultsOnlyUnwritten w (retryTail w c) := .ok _ _

theorem shortTail_faults (pnl : BitVec 2) (w : Window) (c : Nat) :
    FaultsOnlyUnwritten w (shortTail pnl w c) :=
  (readPn_faults _ _ _).bind fun _ _ => .ok _ _

/-! ## The frame extractors -/

theorem readPairs_faults (w : Window) (k c : Nat) : FaultsOnlyUnwritten w (readPairs w k c) := by
  induction k generalizing c with
  | zero => exact .ok _ _
  | succ k ih =>
    exact (readVi_faults _ _).bind fun _ _ => (readVi_faults _ _).bind fun _ _ => (ih _).bind fun _ _ => .ok _ _

theorem readEcn_faults (p : Bool) (w : Window) (c : Nat) : FaultsOnlyUnwritten w (readEcn p w c) :=
  .ite (fun _ => (readVi_faults _ _).bind fun _ _ => (readVi_faults _ _).bind fun _ _ =>
    (readVi_faults _ _).bind fun _ _ => .ok _ _) fun _ => .ok _ _

theorem readOptional_faults (p : Bool) (w : Window) (c : Nat) : FaultsOnlyUnwritten w (readOptional p w c) :=
  .ite (fun _ => (readVi_faults _ _).bind fun _ _ => .ok _ _) fun _ => .ok _ _

theorem readData_faults (p : Bool) (w : Window) (c : Nat) : FaultsOnlyUnwritten w (readData p w c) :=
  .ite (fun _ => (readVi_faults _ _).bind fun _ _ => readSlice_faults _ _ _) fun _ => .ok _ _

theorem readPath_faults (w : Window) (c : Nat) : FaultsOnlyUnwritten w (readPath w c) :=
  (readSlice_faults _ _ _).bind fun x h => by
    obtain ⟨h1, h2, -⟩ := readSlice_eq_ok.1 (show readSlice w c 8 = .ok (x.1, x.2) from h)
    exact (memRead_faults (by rw [h2]; exact h1)).bind fun _ _ => .ok _ _

theorem extractNone_faults (f : Frame) (w : Window) (c : Nat) : FaultsOnlyUnwritten w (extractNone f w c) := .ok _ _

theorem extractAck_faults (e : Bool) (w : Window) (c : Nat) : FaultsOnlyUnwritten w (extractAck e w c) :=
  (readVi_faults _ _).bind fun _ _ => (readVi_faults _ _).bind fun _ _ => (readVi_faults _ _).bind fun _ _ =>
    (readVi_faults _ _).bind fun _ _ => (readPairs_faults _ _ _).bind fun _ _ =>
      (readEcn_faults _ _ _).bind fun _ _ => .ok _ _

/-- Frames of one VarInt. -/
theorem FaultsOnlyUnwritten.vi1 {α : Type} (w : Window) (c : Nat) (f : U62 × Nat → α) :
    FaultsOnlyUnwritten w (readVi w c >>= fun x => .ok (f x)) :=
  (readVi_faults _ _).bind fun _ _ => .ok _ _

theorem extractResetStream_faults (w : Window) (c : Nat) : FaultsOnlyUnwritten w (extractResetStream w c) :=
  (readVi_faults _ _).bind fun _ _ => (readVi_faults _ _).bind fun _ _ => .vi1 _ _ _

theorem extractStopSending_faults (w : Window) (c : Nat) : FaultsOnlyUnwritten w (extractStopSending w c) :=
  (readVi_faults _ _).bind fun _ _ => .vi1 _ _ _

theorem extractCrypto_faults (w : Window) (c : Nat) : FaultsOnlyUnwritten w (extractCrypto w c) :=
  (readVi_faults _ _).bind fun _ _ => (readVi_faults _ _).bind fun _ _ =>
    (readSlice_faults _ _ _).bind fun _ _ => .ok _ _

theorem extractNewToken_faults (w : Window) (c : Nat) : FaultsOnlyUnwritten w (extractNewToken w c) :=
  (readVi_faults _ _).bind fun _ _ => (readSlice_faults _ _ _).bind fun _ _ => .ok _ _

theorem extractStream_faults (off len fin : Bool) (w : Window) (c : Nat) :
    FaultsOnlyUnwritten w (extractStream off len fin w c) :=
  (readVi_faults _ _).bind fun _ _ => (readOptional_faults _ _ _).bind fun _ _ =>
    (readData_faults _ _ _).bind fun _ _ => .ok _ _

theorem extractMaxData_faults (w : Window) (c : Nat) : FaultsOnlyUnwritten w (extractMaxData w c) := .vi1 _ _ _

theorem extractMaxStreamData_faults (w : Window) (c : Nat) : FaultsOnlyUnwritten w (extractMaxStreamData w c) :=
  (readVi_faults _ _).bind fun _ _ => .vi1 _ _ _

theorem extractMaxStreams_faults (u : Bool) (w : Window) (c : Nat) :
    FaultsOnlyUnwritten w (extractMaxStreams u w c) := .vi1 _ _ _

theorem extractDataBlocked_faults (w : Window) (c : Nat) : FaultsOnlyUnwritten w (extractDataBlocked w c) :=
  .vi1 _ _ _

theorem extractStreamDataBlocked_faults (w : Window) (c : Nat) :
    FaultsOnlyUnwritten w (extractStreamDataBlocked w c) :=
  (readVi_faults _ _).bind fun _ _ => .vi1 _ _ _

theorem extractStreamsBlocked_faults (u : Bool) (w : Window) (c : Nat) :
    FaultsOnlyUnwritten w (extractStreamsBlocked u w c) := .vi1 _ _ _

theorem extractNewConnectionId_faults (w : Window) (c : Nat) :
    FaultsOnlyUnwritten w (extractNewConnectionId w c) :=
  (readVi_faults _ _).bind fun _ _ => (readVi_faults _ _).bind fun _ _ => (readCid_faults _ _).bind fun _ _ =>
    (readSlice_faults _ _ _).bind fun _ _ => .ok _ _

theorem extractRetireConnectionId_faults (w : Window) (c : Nat) :
    FaultsOnlyUnwritten w (extractRetireConnectionId w c) := .vi1 _ _ _

theorem extractPathChallenge_faults (w : Window) (c : Nat) : FaultsOnlyUnwritten w (extractPathChallenge w c) :=
  (readPath_faults _ _).bind fun _ _ => .ok _ _

theorem extractPathResponse_faults (w : Window) (c : Nat) : FaultsOnlyUnwritten w (extractPathResponse w c) :=
  (readPath_faults _ _).bind fun _ _ => .ok _ _

theorem extractConnectionClose_faults (app : Bool) (w : Window) (c : Nat) :
    FaultsOnlyUnwritten w (extractConnectionClose app w c) :=
  (readVi_faults _ _).bind fun _ _ => (readOptional_faults _ _ _).bind fun _ _ =>
    (readVi_faults _ _).bind fun _ _ => (readSlice_faults _ _ _).bind fun _ _ => .ok _ _

theorem extractDatagram_faults (len : Bool) (w : Window) (c : Nat) :
    FaultsOnlyUnwritten w (extractDatagram len w c) :=
  (readData_faults _ _ _).bind fun _ _ => .ok _ _

end Sys2Proof.Machine
end

