-- ==== Sys2Proof/Laws/State.lean ====
section
/-! SUPPORT. What each update of the state leaves in each field: one lemma per field per update, so that no later
proof unfolds a record update. -/

namespace Sys2Proof.Machine

/-! ## Taking a failure (60_exceptions.md R262): the VALID bits, `STATUS` and `ERR_AT`. -/

@[simp] theorem abort_params (op : Byte) (e : Err) (o : Nat) (s : State) :
    (abort op e o s).params = s.params := rfl
@[simp] theorem abort_cmd (op : Byte) (e : Err) (o : Nat) (s : State) : (abort op e o s).cmd = s.cmd := rfl
@[simp] theorem abort_status (op : Byte) (e : Err) (o : Nat) (s : State) :
    (abort op e o s).status = statusWord (errCode e) op := rfl
@[simp] theorem abort_ctrl (op : Byte) (e : Err) (o : Nat) (s : State) : (abort op e o s).ctrl = s.ctrl := rfl
@[simp] theorem abort_cur (op : Byte) (e : Err) (o : Nat) (s : State) : (abort op e o s).cur = s.cur := rfl
@[simp] theorem abort_limit (op : Byte) (e : Err) (o : Nat) (s : State) :
    (abort op e o s).limit = s.limit := rfl
@[simp] theorem abort_fcur (op : Byte) (e : Err) (o : Nat) (s : State) : (abort op e o s).fcur = s.fcur := rfl
@[simp] theorem abort_fend (op : Byte) (e : Err) (o : Nat) (s : State) : (abort op e o s).fend = s.fend := rfl
@[simp] theorem abort_arg (op : Byte) (e : Err) (o : Nat) (s : State) : (abort op e o s).arg = s.arg := rfl
@[simp] theorem abort_valid (op : Byte) (e : Err) (o : Nat) (s : State) :
    (abort op e o s).valid = setValid s.valid 0 (clearsOf op) := rfl
@[simp] theorem abort_vi (op : Byte) (e : Err) (o : Nat) (s : State) : (abort op e o s).vi = s.vi := rfl
@[simp] theorem abort_formPeek (op : Byte) (e : Err) (o : Nat) (s : State) :
    (abort op e o s).formPeek = s.formPeek := rfl
@[simp] theorem abort_errAt (op : Byte) (e : Err) (o : Nat) (s : State) :
    (abort op e o s).errAt = w64 o := rfl
@[simp] theorem abort_hdr (op : Byte) (e : Err) (o : Nat) (s : State) : (abort op e o s).hdr = s.hdr := rfl
@[simp] theorem abort_pkt (op : Byte) (e : Err) (o : Nat) (s : State) : (abort op e o s).pkt = s.pkt := rfl
@[simp] theorem abort_pn (op : Byte) (e : Err) (o : Nat) (s : State) : (abort op e o s).pn = s.pn := rfl
@[simp] theorem abort_frm (op : Byte) (e : Err) (o : Nat) (s : State) : (abort op e o s).frm = s.frm := rfl
@[simp] theorem abort_mem (op : Byte) (e : Err) (o : Nat) (s : State) : (abort op e o s).mem = s.mem := rfl
@[simp] theorem abort_evq (op : Byte) (e : Err) (o : Nat) (s : State) : (abort op e o s).evq = s.evq := rfl
@[simp] theorem abort_pending (op : Byte) (e : Err) (o : Nat) (s : State) :
    (abort op e o s).pending = s.pending := rfl
@[simp] theorem abort_host (op : Byte) (e : Err) (o : Nat) (s : State) : (abort op e o s).host = s.host := rfl
@[simp] theorem abort_seen (op : Byte) (e : Err) (o : Nat) (s : State) : (abort op e o s).seen = s.seen := rfl
@[simp] theorem abort_descs (op : Byte) (e : Err) (o : Nat) (s : State) :
    (abort op e o s).descs = s.descs := rfl
@[simp] theorem abort_freeCount (op : Byte) (e : Err) (o : Nat) (s : State) :
    (abort op e o s).freeCount = s.freeCount := rfl

/-! ## An unassigned opcode (30_encoding.md R82): `STATUS`. -/

@[simp] theorem badCommand_params (op : Byte) (s : State) : (badCommand op s).params = s.params := rfl
@[simp] theorem badCommand_cmd (op : Byte) (s : State) : (badCommand op s).cmd = s.cmd := rfl
@[simp] theorem badCommand_status (op : Byte) (s : State) :
    (badCommand op s).status = statusWord .badCommand op := rfl
@[simp] theorem badCommand_ctrl (op : Byte) (s : State) : (badCommand op s).ctrl = s.ctrl := rfl
@[simp] theorem badCommand_cur (op : Byte) (s : State) : (badCommand op s).cur = s.cur := rfl
@[simp] theorem badCommand_limit (op : Byte) (s : State) : (badCommand op s).limit = s.limit := rfl
@[simp] theorem badCommand_fcur (op : Byte) (s : State) : (badCommand op s).fcur = s.fcur := rfl
@[simp] theorem badCommand_fend (op : Byte) (s : State) : (badCommand op s).fend = s.fend := rfl
@[simp] theorem badCommand_arg (op : Byte) (s : State) : (badCommand op s).arg = s.arg := rfl
@[simp] theorem badCommand_valid (op : Byte) (s : State) : (badCommand op s).valid = s.valid := rfl
@[simp] theorem badCommand_vi (op : Byte) (s : State) : (badCommand op s).vi = s.vi := rfl
@[simp] theorem badCommand_formPeek (op : Byte) (s : State) : (badCommand op s).formPeek = s.formPeek := rfl
@[simp] theorem badCommand_errAt (op : Byte) (s : State) : (badCommand op s).errAt = s.errAt := rfl
@[simp] theorem badCommand_hdr (op : Byte) (s : State) : (badCommand op s).hdr = s.hdr := rfl
@[simp] theorem badCommand_pkt (op : Byte) (s : State) : (badCommand op s).pkt = s.pkt := rfl
@[simp] theorem badCommand_pn (op : Byte) (s : State) : (badCommand op s).pn = s.pn := rfl
@[simp] theorem badCommand_frm (op : Byte) (s : State) : (badCommand op s).frm = s.frm := rfl
@[simp] theorem badCommand_mem (op : Byte) (s : State) : (badCommand op s).mem = s.mem := rfl
@[simp] theorem badCommand_evq (op : Byte) (s : State) : (badCommand op s).evq = s.evq := rfl
@[simp] theorem badCommand_pending (op : Byte) (s : State) : (badCommand op s).pending = s.pending := rfl
@[simp] theorem badCommand_host (op : Byte) (s : State) : (badCommand op s).host = s.host := rfl
@[simp] theorem badCommand_seen (op : Byte) (s : State) : (badCommand op s).seen = s.seen := rfl
@[simp] theorem badCommand_descs (op : Byte) (s : State) : (badCommand op s).descs = s.descs := rfl
@[simp] theorem badCommand_freeCount (op : Byte) (s : State) :
    (badCommand op s).freeCount = s.freeCount := rfl

/-! ## Appending a record (10_state.md R42): `EVQ`. -/

@[simp] theorem emit_params (e : Event) (s : State) : (emit e s).params = s.params := rfl
@[simp] theorem emit_cmd (e : Event) (s : State) : (emit e s).cmd = s.cmd := rfl
@[simp] theorem emit_status (e : Event) (s : State) : (emit e s).status = s.status := rfl
@[simp] theorem emit_ctrl (e : Event) (s : State) : (emit e s).ctrl = s.ctrl := rfl
@[simp] theorem emit_cur (e : Event) (s : State) : (emit e s).cur = s.cur := rfl
@[simp] theorem emit_limit (e : Event) (s : State) : (emit e s).limit = s.limit := rfl
@[simp] theorem emit_fcur (e : Event) (s : State) : (emit e s).fcur = s.fcur := rfl
@[simp] theorem emit_fend (e : Event) (s : State) : (emit e s).fend = s.fend := rfl
@[simp] theorem emit_arg (e : Event) (s : State) : (emit e s).arg = s.arg := rfl
@[simp] theorem emit_valid (e : Event) (s : State) : (emit e s).valid = s.valid := rfl
@[simp] theorem emit_vi (e : Event) (s : State) : (emit e s).vi = s.vi := rfl
@[simp] theorem emit_formPeek (e : Event) (s : State) : (emit e s).formPeek = s.formPeek := rfl
@[simp] theorem emit_errAt (e : Event) (s : State) : (emit e s).errAt = s.errAt := rfl
@[simp] theorem emit_hdr (e : Event) (s : State) : (emit e s).hdr = s.hdr := rfl
@[simp] theorem emit_pkt (e : Event) (s : State) : (emit e s).pkt = s.pkt := rfl
@[simp] theorem emit_pn (e : Event) (s : State) : (emit e s).pn = s.pn := rfl
@[simp] theorem emit_frm (e : Event) (s : State) : (emit e s).frm = s.frm := rfl
@[simp] theorem emit_mem (e : Event) (s : State) : (emit e s).mem = s.mem := rfl
@[simp] theorem emit_evq (e : Event) (s : State) : (emit e s).evq = s.evq ++ [e] := rfl
@[simp] theorem emit_pending (e : Event) (s : State) : (emit e s).pending = s.pending := rfl
@[simp] theorem emit_host (e : Event) (s : State) : (emit e s).host = s.host := rfl
@[simp] theorem emit_seen (e : Event) (s : State) : (emit e s).seen = s.seen := rfl
@[simp] theorem emit_descs (e : Event) (s : State) : (emit e s).descs = s.descs := rfl
@[simp] theorem emit_freeCount (e : Event) (s : State) : (emit e s).freeCount = s.freeCount := rfl

/-! ## Reporting descriptors (70_reset_and_hazards.md R293). -/

@[simp] theorem report_params (ds : List Slice) (s : State) : (report ds s).params = s.params := rfl
@[simp] theorem report_cmd (ds : List Slice) (s : State) : (report ds s).cmd = s.cmd := rfl
@[simp] theorem report_status (ds : List Slice) (s : State) : (report ds s).status = s.status := rfl
@[simp] theorem report_ctrl (ds : List Slice) (s : State) : (report ds s).ctrl = s.ctrl := rfl
@[simp] theorem report_cur (ds : List Slice) (s : State) : (report ds s).cur = s.cur := rfl
@[simp] theorem report_limit (ds : List Slice) (s : State) : (report ds s).limit = s.limit := rfl
@[simp] theorem report_fcur (ds : List Slice) (s : State) : (report ds s).fcur = s.fcur := rfl
@[simp] theorem report_fend (ds : List Slice) (s : State) : (report ds s).fend = s.fend := rfl
@[simp] theorem report_arg (ds : List Slice) (s : State) : (report ds s).arg = s.arg := rfl
@[simp] theorem report_valid (ds : List Slice) (s : State) : (report ds s).valid = s.valid := rfl
@[simp] theorem report_vi (ds : List Slice) (s : State) : (report ds s).vi = s.vi := rfl
@[simp] theorem report_formPeek (ds : List Slice) (s : State) : (report ds s).formPeek = s.formPeek := rfl
@[simp] theorem report_errAt (ds : List Slice) (s : State) : (report ds s).errAt = s.errAt := rfl
@[simp] theorem report_hdr (ds : List Slice) (s : State) : (report ds s).hdr = s.hdr := rfl
@[simp] theorem report_pkt (ds : List Slice) (s : State) : (report ds s).pkt = s.pkt := rfl
@[simp] theorem report_pn (ds : List Slice) (s : State) : (report ds s).pn = s.pn := rfl
@[simp] theorem report_frm (ds : List Slice) (s : State) : (report ds s).frm = s.frm := rfl
@[simp] theorem report_mem (ds : List Slice) (s : State) : (report ds s).mem = s.mem := rfl
@[simp] theorem report_evq (ds : List Slice) (s : State) : (report ds s).evq = s.evq := rfl
@[simp] theorem report_pending (ds : List Slice) (s : State) : (report ds s).pending = s.pending := rfl
@[simp] theorem report_host (ds : List Slice) (s : State) : (report ds s).host = s.host := rfl
@[simp] theorem report_seen (ds : List Slice) (s : State) : (report ds s).seen = s.seen := rfl
@[simp] theorem report_descs (ds : List Slice) (s : State) :
    (report ds s).descs = s.descs ++ ds.map fun d => ⟨d, false⟩ := rfl
@[simp] theorem report_freeCount (ds : List Slice) (s : State) : (report ds s).freeCount = s.freeCount := rfl

/-! ## Writing a header (41_header.md R137): the header registers, VALID bit 4, the descriptors. -/

@[simp] theorem writeHeader_params (h : Header) (a : Nat) (s : State) :
    (writeHeader h a s).params = s.params := rfl
@[simp] theorem writeHeader_cmd (h : Header) (a : Nat) (s : State) : (writeHeader h a s).cmd = s.cmd := rfl
@[simp] theorem writeHeader_status (h : Header) (a : Nat) (s : State) :
    (writeHeader h a s).status = s.status := rfl
@[simp] theorem writeHeader_ctrl (h : Header) (a : Nat) (s : State) : (writeHeader h a s).ctrl = s.ctrl := rfl
@[simp] theorem writeHeader_cur (h : Header) (a : Nat) (s : State) : (writeHeader h a s).cur = s.cur := rfl
@[simp] theorem writeHeader_limit (h : Header) (a : Nat) (s : State) :
    (writeHeader h a s).limit = s.limit := rfl
@[simp] theorem writeHeader_fcur (h : Header) (a : Nat) (s : State) : (writeHeader h a s).fcur = s.fcur := rfl
@[simp] theorem writeHeader_fend (h : Header) (a : Nat) (s : State) : (writeHeader h a s).fend = s.fend := rfl
@[simp] theorem writeHeader_arg (h : Header) (a : Nat) (s : State) : (writeHeader h a s).arg = s.arg := rfl
@[simp] theorem writeHeader_valid (h : Header) (a : Nat) (s : State) :
    (writeHeader h a s).valid = setValid s.valid vHeader 0 := rfl
@[simp] theorem writeHeader_vi (h : Header) (a : Nat) (s : State) : (writeHeader h a s).vi = s.vi := rfl
@[simp] theorem writeHeader_formPeek (h : Header) (a : Nat) (s : State) :
    (writeHeader h a s).formPeek = s.formPeek := rfl
@[simp] theorem writeHeader_errAt (h : Header) (a : Nat) (s : State) :
    (writeHeader h a s).errAt = s.errAt := rfl
@[simp] theorem writeHeader_hdr (h : Header) (a : Nat) (s : State) :
    (writeHeader h a s).hdr = headerRegs h a := rfl
@[simp] theorem writeHeader_pkt (h : Header) (a : Nat) (s : State) : (writeHeader h a s).pkt = s.pkt := rfl
@[simp] theorem writeHeader_pn (h : Header) (a : Nat) (s : State) : (writeHeader h a s).pn = s.pn := rfl
@[simp] theorem writeHeader_frm (h : Header) (a : Nat) (s : State) : (writeHeader h a s).frm = s.frm := rfl
@[simp] theorem writeHeader_mem (h : Header) (a : Nat) (s : State) : (writeHeader h a s).mem = s.mem := rfl
@[simp] theorem writeHeader_evq (h : Header) (a : Nat) (s : State) : (writeHeader h a s).evq = s.evq := rfl
@[simp] theorem writeHeader_pending (h : Header) (a : Nat) (s : State) :
    (writeHeader h a s).pending = s.pending := rfl
@[simp] theorem writeHeader_host (h : Header) (a : Nat) (s : State) : (writeHeader h a s).host = s.host := rfl
@[simp] theorem writeHeader_seen (h : Header) (a : Nat) (s : State) : (writeHeader h a s).seen = s.seen := rfl
@[simp] theorem writeHeader_descs (h : Header) (a : Nat) (s : State) :
    (writeHeader h a s).descs = s.descs ++ h.slices.map fun d => ⟨d, false⟩ := rfl
@[simp] theorem writeHeader_freeCount (h : Header) (a : Nat) (s : State) :
    (writeHeader h a s).freeCount = s.freeCount := rfl

/-! ## What VDEC writes (40_varint.md R112). -/

@[simp] theorem commitVarInt_params (v : U62) (n c : Nat) (s : State) :
    (commitVarInt v n c s).params = s.params := rfl
@[simp] theorem commitVarInt_cmd (v : U62) (n c : Nat) (s : State) : (commitVarInt v n c s).cmd = s.cmd := rfl
@[simp] theorem commitVarInt_status (v : U62) (n c : Nat) (s : State) :
    (commitVarInt v n c s).status = s.status := rfl
@[simp] theorem commitVarInt_ctrl (v : U62) (n c : Nat) (s : State) :
    (commitVarInt v n c s).ctrl = s.ctrl := rfl
@[simp] theorem commitVarInt_cur (v : U62) (n c : Nat) (s : State) : (commitVarInt v n c s).cur = w64 c := rfl
@[simp] theorem commitVarInt_limit (v : U62) (n c : Nat) (s : State) :
    (commitVarInt v n c s).limit = s.limit := rfl
@[simp] theorem commitVarInt_fcur (v : U62) (n c : Nat) (s : State) :
    (commitVarInt v n c s).fcur = s.fcur := rfl
@[simp] theorem commitVarInt_fend (v : U62) (n c : Nat) (s : State) :
    (commitVarInt v n c s).fend = s.fend := rfl
@[simp] theorem commitVarInt_arg (v : U62) (n c : Nat) (s : State) : (commitVarInt v n c s).arg = s.arg := rfl
@[simp] theorem commitVarInt_valid (v : U62) (n c : Nat) (s : State) :
    (commitVarInt v n c s).valid = setValid s.valid (vViValue ||| vViLen) vViBytes := rfl
@[simp] theorem commitVarInt_vi (v : U62) (n c : Nat) (s : State) :
    (commitVarInt v n c s).vi = { s.vi with value := zext62 v, len := w64 n } := rfl
@[simp] theorem commitVarInt_formPeek (v : U62) (n c : Nat) (s : State) :
    (commitVarInt v n c s).formPeek = s.formPeek := rfl
@[simp] theorem commitVarInt_errAt (v : U62) (n c : Nat) (s : State) :
    (commitVarInt v n c s).errAt = s.errAt := rfl
@[simp] theorem commitVarInt_hdr (v : U62) (n c : Nat) (s : State) : (commitVarInt v n c s).hdr = s.hdr := rfl
@[simp] theorem commitVarInt_pkt (v : U62) (n c : Nat) (s : State) : (commitVarInt v n c s).pkt = s.pkt := rfl
@[simp] theorem commitVarInt_pn (v : U62) (n c : Nat) (s : State) : (commitVarInt v n c s).pn = s.pn := rfl
@[simp] theorem commitVarInt_frm (v : U62) (n c : Nat) (s : State) : (commitVarInt v n c s).frm = s.frm := rfl
@[simp] theorem commitVarInt_mem (v : U62) (n c : Nat) (s : State) : (commitVarInt v n c s).mem = s.mem := rfl
@[simp] theorem commitVarInt_evq (v : U62) (n c : Nat) (s : State) : (commitVarInt v n c s).evq = s.evq := rfl
@[simp] theorem commitVarInt_pending (v : U62) (n c : Nat) (s : State) :
    (commitVarInt v n c s).pending = s.pending := rfl
@[simp] theorem commitVarInt_host (v : U62) (n c : Nat) (s : State) :
    (commitVarInt v n c s).host = s.host := rfl
@[simp] theorem commitVarInt_seen (v : U62) (n c : Nat) (s : State) :
    (commitVarInt v n c s).seen = s.seen := rfl
@[simp] theorem commitVarInt_descs (v : U62) (n c : Nat) (s : State) :
    (commitVarInt v n c s).descs = s.descs := rfl
@[simp] theorem commitVarInt_freeCount (v : U62) (n c : Nat) (s : State) :
    (commitVarInt v n c s).freeCount = s.freeCount := rfl

/-! ## What HDRL and HDRS write (41_header.md R138, R139). -/

@[simp] theorem commitHeader_params (h : Header) (a c : Nat) (s : State) :
    (commitHeader h a c s).params = s.params := rfl
@[simp] theorem commitHeader_cmd (h : Header) (a c : Nat) (s : State) :
    (commitHeader h a c s).cmd = s.cmd := rfl
@[simp] theorem commitHeader_status (h : Header) (a c : Nat) (s : State) :
    (commitHeader h a c s).status = s.status := rfl
@[simp] theorem commitHeader_ctrl (h : Header) (a c : Nat) (s : State) :
    (commitHeader h a c s).ctrl = s.ctrl := rfl
@[simp] theorem commitHeader_cur (h : Header) (a c : Nat) (s : State) :
    (commitHeader h a c s).cur = w64 c := rfl
@[simp] theorem commitHeader_limit (h : Header) (a c : Nat) (s : State) :
    (commitHeader h a c s).limit = s.limit := rfl
@[simp] theorem commitHeader_fcur (h : Header) (a c : Nat) (s : State) :
    (commitHeader h a c s).fcur = s.fcur := rfl
@[simp] theorem commitHeader_fend (h : Header) (a c : Nat) (s : State) :
    (commitHeader h a c s).fend = s.fend := rfl
@[simp] theorem commitHeader_arg (h : Header) (a c : Nat) (s : State) :
    (commitHeader h a c s).arg = s.arg := rfl
@[simp] theorem commitHeader_valid (h : Header) (a c : Nat) (s : State) :
    (commitHeader h a c s).valid = setValid s.valid vHeader (vPn ||| vPacket) := rfl
@[simp] theorem commitHeader_vi (h : Header) (a c : Nat) (s : State) : (commitHeader h a c s).vi = s.vi := rfl
@[simp] theorem commitHeader_formPeek (h : Header) (a c : Nat) (s : State) :
    (commitHeader h a c s).formPeek = s.formPeek := rfl
@[simp] theorem commitHeader_errAt (h : Header) (a c : Nat) (s : State) :
    (commitHeader h a c s).errAt = s.errAt := rfl
@[simp] theorem commitHeader_hdr (h : Header) (a c : Nat) (s : State) :
    (commitHeader h a c s).hdr = headerRegs h a := rfl
@[simp] theorem commitHeader_pkt (h : Header) (a c : Nat) (s : State) :
    (commitHeader h a c s).pkt = s.pkt := rfl
@[simp] theorem commitHeader_pn (h : Header) (a c : Nat) (s : State) : (commitHeader h a c s).pn = s.pn := rfl
@[simp] theorem commitHeader_frm (h : Header) (a c : Nat) (s : State) :
    (commitHeader h a c s).frm = s.frm := rfl
@[simp] theorem commitHeader_mem (h : Header) (a c : Nat) (s : State) :
    (commitHeader h a c s).mem = s.mem := rfl
@[simp] theorem commitHeader_evq (h : Header) (a c : Nat) (s : State) :
    (commitHeader h a c s).evq = s.evq := rfl
@[simp] theorem commitHeader_pending (h : Header) (a c : Nat) (s : State) :
    (commitHeader h a c s).pending = s.pending := rfl
@[simp] theorem commitHeader_host (h : Header) (a c : Nat) (s : State) :
    (commitHeader h a c s).host = s.host := rfl
@[simp] theorem commitHeader_seen (h : Header) (a c : Nat) (s : State) :
    (commitHeader h a c s).seen = s.seen := rfl
@[simp] theorem commitHeader_descs (h : Header) (a c : Nat) (s : State) :
    (commitHeader h a c s).descs = s.descs ++ h.slices.map fun d => ⟨d, false⟩ := rfl
@[simp] theorem commitHeader_freeCount (h : Header) (a c : Nat) (s : State) :
    (commitHeader h a c s).freeCount = s.freeCount := rfl

/-! ## What PKT writes (42_packet.md R172). -/

@[simp] theorem commitPacket_params (a : Nat) (h : Header) (t : PacketTail) (c : Nat) (s : State) :
    (commitPacket a h t c s).params = s.params := rfl
@[simp] theorem commitPacket_cmd (a : Nat) (h : Header) (t : PacketTail) (c : Nat) (s : State) :
    (commitPacket a h t c s).cmd = s.cmd := rfl
@[simp] theorem commitPacket_status (a : Nat) (h : Header) (t : PacketTail) (c : Nat) (s : State) :
    (commitPacket a h t c s).status = s.status := rfl
@[simp] theorem commitPacket_ctrl (a : Nat) (h : Header) (t : PacketTail) (c : Nat) (s : State) :
    (commitPacket a h t c s).ctrl = s.ctrl := rfl
@[simp] theorem commitPacket_cur (a : Nat) (h : Header) (t : PacketTail) (c : Nat) (s : State) :
    (commitPacket a h t c s).cur = w64 c := rfl
@[simp] theorem commitPacket_limit (a : Nat) (h : Header) (t : PacketTail) (c : Nat) (s : State) :
    (commitPacket a h t c s).limit = s.limit := rfl
@[simp] theorem commitPacket_fcur (a : Nat) (h : Header) (t : PacketTail) (c : Nat) (s : State) :
    (commitPacket a h t c s).fcur = w64 (t.payload c).off := rfl
@[simp] theorem commitPacket_fend (a : Nat) (h : Header) (t : PacketTail) (c : Nat) (s : State) :
    (commitPacket a h t c s).fend = w64 ((t.payload c).off + (t.payload c).len) := rfl
@[simp] theorem commitPacket_arg (a : Nat) (h : Header) (t : PacketTail) (c : Nat) (s : State) :
    (commitPacket a h t c s).arg = s.arg := rfl
@[simp] theorem commitPacket_valid (a : Nat) (h : Header) (t : PacketTail) (c : Nat) (s : State) :
    (commitPacket a h t c s).valid = packetValid t s.valid := rfl
@[simp] theorem commitPacket_vi (a : Nat) (h : Header) (t : PacketTail) (c : Nat) (s : State) :
    (commitPacket a h t c s).vi = s.vi := rfl
@[simp] theorem commitPacket_formPeek (a : Nat) (h : Header) (t : PacketTail) (c : Nat) (s : State) :
    (commitPacket a h t c s).formPeek = s.formPeek := rfl
@[simp] theorem commitPacket_errAt (a : Nat) (h : Header) (t : PacketTail) (c : Nat) (s : State) :
    (commitPacket a h t c s).errAt = s.errAt := rfl
@[simp] theorem commitPacket_hdr (a : Nat) (h : Header) (t : PacketTail) (c : Nat) (s : State) :
    (commitPacket a h t c s).hdr = headerRegs h a := rfl
@[simp] theorem commitPacket_pkt (a : Nat) (h : Header) (t : PacketTail) (c : Nat) (s : State) :
    (commitPacket a h t c s).pkt = packetRegs a c t := rfl
@[simp] theorem commitPacket_pn (a : Nat) (h : Header) (t : PacketTail) (c : Nat) (s : State) :
    (commitPacket a h t c s).pn = packetPnRegs t s.pn := rfl
@[simp] theorem commitPacket_frm (a : Nat) (h : Header) (t : PacketTail) (c : Nat) (s : State) :
    (commitPacket a h t c s).frm = s.frm := rfl
@[simp] theorem commitPacket_mem (a : Nat) (h : Header) (t : PacketTail) (c : Nat) (s : State) :
    (commitPacket a h t c s).mem = s.mem := rfl
@[simp] theorem commitPacket_evq (a : Nat) (h : Header) (t : PacketTail) (c : Nat) (s : State) :
    (commitPacket a h t c s).evq = s.evq ++ [.pkt a c (t.record h)] := rfl
@[simp] theorem commitPacket_pending (a : Nat) (h : Header) (t : PacketTail) (c : Nat) (s : State) :
    (commitPacket a h t c s).pending = s.pending := rfl
@[simp] theorem commitPacket_host (a : Nat) (h : Header) (t : PacketTail) (c : Nat) (s : State) :
    (commitPacket a h t c s).host = s.host := rfl
@[simp] theorem commitPacket_seen (a : Nat) (h : Header) (t : PacketTail) (c : Nat) (s : State) :
    (commitPacket a h t c s).seen = s.seen := rfl
@[simp] theorem commitPacket_descs (a : Nat) (h : Header) (t : PacketTail) (c : Nat) (s : State) :
    (commitPacket a h t c s).descs = (s.descs ++ h.slices.map fun d => ⟨d, false⟩) ++ (t.slices c).map fun d => ⟨d, false⟩ := rfl
@[simp] theorem commitPacket_freeCount (a : Nat) (h : Header) (t : PacketTail) (c : Nat) (s : State) :
    (commitPacket a h t c s).freeCount = s.freeCount := rfl

/-! ## What FRM writes (43_frame_dispatch.md R190). -/

@[simp] theorem commitFrame_params (k : FrameKind) (tag : Byte) (a : Nat) (x : Extracted) (c : Nat) (s : State) :
    (commitFrame k tag a x c s).params = s.params := rfl
@[simp] theorem commitFrame_cmd (k : FrameKind) (tag : Byte) (a : Nat) (x : Extracted) (c : Nat) (s : State) :
    (commitFrame k tag a x c s).cmd = s.cmd := rfl
@[simp] theorem commitFrame_status (k : FrameKind) (tag : Byte) (a : Nat) (x : Extracted) (c : Nat) (s : State) :
    (commitFrame k tag a x c s).status = s.status := rfl
@[simp] theorem commitFrame_ctrl (k : FrameKind) (tag : Byte) (a : Nat) (x : Extracted) (c : Nat) (s : State) :
    (commitFrame k tag a x c s).ctrl = s.ctrl := rfl
@[simp] theorem commitFrame_cur (k : FrameKind) (tag : Byte) (a : Nat) (x : Extracted) (c : Nat) (s : State) :
    (commitFrame k tag a x c s).cur = s.cur := rfl
@[simp] theorem commitFrame_limit (k : FrameKind) (tag : Byte) (a : Nat) (x : Extracted) (c : Nat) (s : State) :
    (commitFrame k tag a x c s).limit = s.limit := rfl
@[simp] theorem commitFrame_fcur (k : FrameKind) (tag : Byte) (a : Nat) (x : Extracted) (c : Nat) (s : State) :
    (commitFrame k tag a x c s).fcur = w64 c := rfl
@[simp] theorem commitFrame_fend (k : FrameKind) (tag : Byte) (a : Nat) (x : Extracted) (c : Nat) (s : State) :
    (commitFrame k tag a x c s).fend = s.fend := rfl
@[simp] theorem commitFrame_arg (k : FrameKind) (tag : Byte) (a : Nat) (x : Extracted) (c : Nat) (s : State) :
    (commitFrame k tag a x c s).arg = s.arg := rfl
@[simp] theorem commitFrame_valid (k : FrameKind) (tag : Byte) (a : Nat) (x : Extracted) (c : Nat) (s : State) :
    (commitFrame k tag a x c s).valid = setValid s.valid vFrame 0 := rfl
@[simp] theorem commitFrame_vi (k : FrameKind) (tag : Byte) (a : Nat) (x : Extracted) (c : Nat) (s : State) :
    (commitFrame k tag a x c s).vi = s.vi := rfl
@[simp] theorem commitFrame_formPeek (k : FrameKind) (tag : Byte) (a : Nat) (x : Extracted) (c : Nat) (s : State) :
    (commitFrame k tag a x c s).formPeek = s.formPeek := rfl
@[simp] theorem commitFrame_errAt (k : FrameKind) (tag : Byte) (a : Nat) (x : Extracted) (c : Nat) (s : State) :
    (commitFrame k tag a x c s).errAt = s.errAt := rfl
@[simp] theorem commitFrame_hdr (k : FrameKind) (tag : Byte) (a : Nat) (x : Extracted) (c : Nat) (s : State) :
    (commitFrame k tag a x c s).hdr = s.hdr := rfl
@[simp] theorem commitFrame_pkt (k : FrameKind) (tag : Byte) (a : Nat) (x : Extracted) (c : Nat) (s : State) :
    (commitFrame k tag a x c s).pkt = s.pkt := rfl
@[simp] theorem commitFrame_pn (k : FrameKind) (tag : Byte) (a : Nat) (x : Extracted) (c : Nat) (s : State) :
    (commitFrame k tag a x c s).pn = s.pn := rfl
@[simp] theorem commitFrame_frm (k : FrameKind) (tag : Byte) (a : Nat) (x : Extracted) (c : Nat) (s : State) :
    (commitFrame k tag a x c s).frm = frameRegs k tag a c x.fields := rfl
@[simp] theorem commitFrame_mem (k : FrameKind) (tag : Byte) (a : Nat) (x : Extracted) (c : Nat) (s : State) :
    (commitFrame k tag a x c s).mem = s.mem := rfl
@[simp] theorem commitFrame_evq (k : FrameKind) (tag : Byte) (a : Nat) (x : Extracted) (c : Nat) (s : State) :
    (commitFrame k tag a x c s).evq = s.evq ++ [.frm a c x.frame] := rfl
@[simp] theorem commitFrame_pending (k : FrameKind) (tag : Byte) (a : Nat) (x : Extracted) (c : Nat) (s : State) :
    (commitFrame k tag a x c s).pending = s.pending := rfl
@[simp] theorem commitFrame_host (k : FrameKind) (tag : Byte) (a : Nat) (x : Extracted) (c : Nat) (s : State) :
    (commitFrame k tag a x c s).host = s.host := rfl
@[simp] theorem commitFrame_seen (k : FrameKind) (tag : Byte) (a : Nat) (x : Extracted) (c : Nat) (s : State) :
    (commitFrame k tag a x c s).seen = s.seen := rfl
@[simp] theorem commitFrame_descs (k : FrameKind) (tag : Byte) (a : Nat) (x : Extracted) (c : Nat) (s : State) :
    (commitFrame k tag a x c s).descs = s.descs ++ x.slices.map fun d => ⟨d, false⟩ := rfl
@[simp] theorem commitFrame_freeCount (k : FrameKind) (tag : Byte) (a : Nat) (x : Extracted) (c : Nat) (s : State) :
    (commitFrame k tag a x c s).freeCount = s.freeCount := rfl

/-! ## END (43_frame_dispatch.md R196): `STATUS` and VALID bit 7. -/

@[simp] theorem endOfWindow_params (s : State) : (endOfWindow s).params = s.params := rfl
@[simp] theorem endOfWindow_cmd (s : State) : (endOfWindow s).cmd = s.cmd := rfl
@[simp] theorem endOfWindow_status (s : State) : (endOfWindow s).status = statusWord .endOfWindow opFrm := rfl
@[simp] theorem endOfWindow_ctrl (s : State) : (endOfWindow s).ctrl = s.ctrl := rfl
@[simp] theorem endOfWindow_cur (s : State) : (endOfWindow s).cur = s.cur := rfl
@[simp] theorem endOfWindow_limit (s : State) : (endOfWindow s).limit = s.limit := rfl
@[simp] theorem endOfWindow_fcur (s : State) : (endOfWindow s).fcur = s.fcur := rfl
@[simp] theorem endOfWindow_fend (s : State) : (endOfWindow s).fend = s.fend := rfl
@[simp] theorem endOfWindow_arg (s : State) : (endOfWindow s).arg = s.arg := rfl
@[simp] theorem endOfWindow_valid (s : State) : (endOfWindow s).valid = setValid s.valid 0 vFrame := rfl
@[simp] theorem endOfWindow_vi (s : State) : (endOfWindow s).vi = s.vi := rfl
@[simp] theorem endOfWindow_formPeek (s : State) : (endOfWindow s).formPeek = s.formPeek := rfl
@[simp] theorem endOfWindow_errAt (s : State) : (endOfWindow s).errAt = s.errAt := rfl
@[simp] theorem endOfWindow_hdr (s : State) : (endOfWindow s).hdr = s.hdr := rfl
@[simp] theorem endOfWindow_pkt (s : State) : (endOfWindow s).pkt = s.pkt := rfl
@[simp] theorem endOfWindow_pn (s : State) : (endOfWindow s).pn = s.pn := rfl
@[simp] theorem endOfWindow_frm (s : State) : (endOfWindow s).frm = s.frm := rfl
@[simp] theorem endOfWindow_mem (s : State) : (endOfWindow s).mem = s.mem := rfl
@[simp] theorem endOfWindow_evq (s : State) : (endOfWindow s).evq = s.evq := rfl
@[simp] theorem endOfWindow_pending (s : State) : (endOfWindow s).pending = s.pending := rfl
@[simp] theorem endOfWindow_host (s : State) : (endOfWindow s).host = s.host := rfl
@[simp] theorem endOfWindow_seen (s : State) : (endOfWindow s).seen = s.seen := rfl
@[simp] theorem endOfWindow_descs (s : State) : (endOfWindow s).descs = s.descs := rfl
@[simp] theorem endOfWindow_freeCount (s : State) : (endOfWindow s).freeCount = s.freeCount := rfl

/-! ## Handing something back to the host. -/

@[simp] theorem see_params (x : Seen) (s : State) : (see x s).params = s.params := rfl
@[simp] theorem see_cmd (x : Seen) (s : State) : (see x s).cmd = s.cmd := rfl
@[simp] theorem see_status (x : Seen) (s : State) : (see x s).status = s.status := rfl
@[simp] theorem see_ctrl (x : Seen) (s : State) : (see x s).ctrl = s.ctrl := rfl
@[simp] theorem see_cur (x : Seen) (s : State) : (see x s).cur = s.cur := rfl
@[simp] theorem see_limit (x : Seen) (s : State) : (see x s).limit = s.limit := rfl
@[simp] theorem see_fcur (x : Seen) (s : State) : (see x s).fcur = s.fcur := rfl
@[simp] theorem see_fend (x : Seen) (s : State) : (see x s).fend = s.fend := rfl
@[simp] theorem see_arg (x : Seen) (s : State) : (see x s).arg = s.arg := rfl
@[simp] theorem see_valid (x : Seen) (s : State) : (see x s).valid = s.valid := rfl
@[simp] theorem see_vi (x : Seen) (s : State) : (see x s).vi = s.vi := rfl
@[simp] theorem see_formPeek (x : Seen) (s : State) : (see x s).formPeek = s.formPeek := rfl
@[simp] theorem see_errAt (x : Seen) (s : State) : (see x s).errAt = s.errAt := rfl
@[simp] theorem see_hdr (x : Seen) (s : State) : (see x s).hdr = s.hdr := rfl
@[simp] theorem see_pkt (x : Seen) (s : State) : (see x s).pkt = s.pkt := rfl
@[simp] theorem see_pn (x : Seen) (s : State) : (see x s).pn = s.pn := rfl
@[simp] theorem see_frm (x : Seen) (s : State) : (see x s).frm = s.frm := rfl
@[simp] theorem see_mem (x : Seen) (s : State) : (see x s).mem = s.mem := rfl
@[simp] theorem see_evq (x : Seen) (s : State) : (see x s).evq = s.evq := rfl
@[simp] theorem see_pending (x : Seen) (s : State) : (see x s).pending = s.pending := rfl
@[simp] theorem see_host (x : Seen) (s : State) : (see x s).host = s.host := rfl
@[simp] theorem see_seen (x : Seen) (s : State) : (see x s).seen = s.seen ++ [x] := rfl
@[simp] theorem see_descs (x : Seen) (s : State) : (see x s).descs = s.descs := rfl
@[simp] theorem see_freeCount (x : Seen) (s : State) : (see x s).freeCount = s.freeCount := rfl

/-! ## A reset of the block (70_reset_and_hazards.md R290): all but the parameters and the host's side. -/

@[simp] theorem resetBlock_params (s : State) : (resetBlock s).params = s.params := rfl
@[simp] theorem resetBlock_cmd (s : State) : (resetBlock s).cmd = State.reset.cmd := rfl
@[simp] theorem resetBlock_status (s : State) : (resetBlock s).status = State.reset.status := rfl
@[simp] theorem resetBlock_ctrl (s : State) : (resetBlock s).ctrl = State.reset.ctrl := rfl
@[simp] theorem resetBlock_cur (s : State) : (resetBlock s).cur = State.reset.cur := rfl
@[simp] theorem resetBlock_limit (s : State) : (resetBlock s).limit = State.reset.limit := rfl
@[simp] theorem resetBlock_fcur (s : State) : (resetBlock s).fcur = State.reset.fcur := rfl
@[simp] theorem resetBlock_fend (s : State) : (resetBlock s).fend = State.reset.fend := rfl
@[simp] theorem resetBlock_arg (s : State) : (resetBlock s).arg = State.reset.arg := rfl
@[simp] theorem resetBlock_valid (s : State) : (resetBlock s).valid = State.reset.valid := rfl
@[simp] theorem resetBlock_vi (s : State) : (resetBlock s).vi = State.reset.vi := rfl
@[simp] theorem resetBlock_formPeek (s : State) : (resetBlock s).formPeek = State.reset.formPeek := rfl
@[simp] theorem resetBlock_errAt (s : State) : (resetBlock s).errAt = State.reset.errAt := rfl
@[simp] theorem resetBlock_hdr (s : State) : (resetBlock s).hdr = State.reset.hdr := rfl
@[simp] theorem resetBlock_pkt (s : State) : (resetBlock s).pkt = State.reset.pkt := rfl
@[simp] theorem resetBlock_pn (s : State) : (resetBlock s).pn = State.reset.pn := rfl
@[simp] theorem resetBlock_frm (s : State) : (resetBlock s).frm = State.reset.frm := rfl
@[simp] theorem resetBlock_mem (s : State) : (resetBlock s).mem = State.reset.mem := rfl
@[simp] theorem resetBlock_evq (s : State) : (resetBlock s).evq = State.reset.evq := rfl
@[simp] theorem resetBlock_pending (s : State) : (resetBlock s).pending = State.reset.pending := rfl
@[simp] theorem resetBlock_host (s : State) : (resetBlock s).host = s.host := rfl
@[simp] theorem resetBlock_seen (s : State) : (resetBlock s).seen = s.seen := rfl
@[simp] theorem resetBlock_descs (s : State) : (resetBlock s).descs = s.descs := rfl
@[simp] theorem resetBlock_freeCount (s : State) : (resetBlock s).freeCount = s.freeCount := rfl

/-! ## Giving the engine a command. -/

@[simp] theorem giveCommand_params (op : Byte) (s : State) : (giveCommand op s).params = s.params := rfl
@[simp] theorem giveCommand_cmd (op : Byte) (s : State) : (giveCommand op s).cmd = zext8 op := rfl
@[simp] theorem giveCommand_status (op : Byte) (s : State) : (giveCommand op s).status = s.status := rfl
@[simp] theorem giveCommand_ctrl (op : Byte) (s : State) : (giveCommand op s).ctrl = s.ctrl := rfl
@[simp] theorem giveCommand_cur (op : Byte) (s : State) : (giveCommand op s).cur = s.cur := rfl
@[simp] theorem giveCommand_limit (op : Byte) (s : State) : (giveCommand op s).limit = s.limit := rfl
@[simp] theorem giveCommand_fcur (op : Byte) (s : State) : (giveCommand op s).fcur = s.fcur := rfl
@[simp] theorem giveCommand_fend (op : Byte) (s : State) : (giveCommand op s).fend = s.fend := rfl
@[simp] theorem giveCommand_arg (op : Byte) (s : State) : (giveCommand op s).arg = s.arg := rfl
@[simp] theorem giveCommand_valid (op : Byte) (s : State) : (giveCommand op s).valid = s.valid := rfl
@[simp] theorem giveCommand_vi (op : Byte) (s : State) : (giveCommand op s).vi = s.vi := rfl
@[simp] theorem giveCommand_formPeek (op : Byte) (s : State) : (giveCommand op s).formPeek = s.formPeek := rfl
@[simp] theorem giveCommand_errAt (op : Byte) (s : State) : (giveCommand op s).errAt = s.errAt := rfl
@[simp] theorem giveCommand_hdr (op : Byte) (s : State) : (giveCommand op s).hdr = s.hdr := rfl
@[simp] theorem giveCommand_pkt (op : Byte) (s : State) : (giveCommand op s).pkt = s.pkt := rfl
@[simp] theorem giveCommand_pn (op : Byte) (s : State) : (giveCommand op s).pn = s.pn := rfl
@[simp] theorem giveCommand_frm (op : Byte) (s : State) : (giveCommand op s).frm = s.frm := rfl
@[simp] theorem giveCommand_mem (op : Byte) (s : State) : (giveCommand op s).mem = s.mem := rfl
@[simp] theorem giveCommand_evq (op : Byte) (s : State) :
    (giveCommand op s).evq = if evqFull s then [] else s.evq := rfl
@[simp] theorem giveCommand_pending (op : Byte) (s : State) : (giveCommand op s).pending = some op := rfl
@[simp] theorem giveCommand_host (op : Byte) (s : State) : (giveCommand op s).host = s.host := rfl
@[simp] theorem giveCommand_seen (op : Byte) (s : State) : (giveCommand op s).seen = s.seen := rfl
@[simp] theorem giveCommand_descs (op : Byte) (s : State) : (giveCommand op s).descs = s.descs := rfl
@[simp] theorem giveCommand_freeCount (op : Byte) (s : State) :
    (giveCommand op s).freeCount = s.freeCount := rfl

end Sys2Proof.Machine
end

