-- ==== Sys2Proof/Laws/Command.lean ====
section
/-! SUPPORT. What a command can do, said once: every next state of `exec` is one of a few named updates, and every
stop is at an unwritten byte. -/

namespace Sys2Proof.Machine

/-! ## The framework (60_exceptions.md R262, R263) -/

theorem runCommand_ok (op : Byte) (s t : State) :
    runCommand op s (.ok t) = .next { t with status := statusWord .ok op } := rfl

theorem runCommand_raise (op : Byte) (s : State) (e : Err) (o : Nat) :
    runCommand op s (raise e o) = .next (abort op e o s) := rfl

theorem runCommand_error (op : Byte) (s : State) (e : Err) (o : Nat) :
    runCommand op s (.error (.raise e o)) = .next (abort op e o s) := rfl

theorem runCommand_eq_next {op : Byte} {s t : State} {body : Except Stop State} :
    runCommand op s body = .next t ↔
      (∃ u, body = .ok u ∧ t = { u with status := statusWord .ok op }) ∨
      ∃ e o, body = .error (.raise e o) ∧ t = abort op e o s := by
  unfold runCommand
  split <;> simp [eq_comm]

theorem runCommand_ne_refused (op : Byte) (s : State) (body : Except Stop State) (r : Refusal) :
    runCommand op s body ≠ .refused r := by
  unfold runCommand
  split <;> simp

theorem runCommand_eq_fault {op : Byte} {s : State} {body : Except Stop State} {f : Fault} :
    runCommand op s body = .fault f ↔ body = .error (.fault f) := by
  unfold runCommand
  split <;> simp

theorem setValid_clear (valid clears : Word) : setValid valid 0 clears = valid &&& ~~~clears := by simp [setValid]

theorem setValid_set (valid sets : Word) : setValid valid sets 0 = valid ||| sets := by
  rw [setValid, show ~~~(0 : Word) = BitVec.allOnes 64 from rfl, BitVec.and_allOnes]

/-- The abort in the terms statements use. -/
theorem abort_eq_failed (op : Byte) (e : Err) (o : Nat) (s : State) :
    abort op e o s = failed s (statusWord (errCode e) op) (clearsOf op) o := by
  simp only [abort, failed, setValid_clear, w64]

theorem beginPacket_eq_ok {s : State} {w : Window} {c : Nat} :
    beginPacket s = .ok (w, c) ↔
      (s.cur.toNat ≤ s.limit.toNat ∧ s.limit.toNat ≤ s.params.maxInLen) ∧ w = ⟨s.mem, s.limit.toNat⟩ ∧
        c = s.cur.toNat := by
  unfold beginPacket
  split
  · simp_all [eq_comm]
  · rename_i h
    simp [h]

theorem beginPacket_ok {s : State} (h : packetWindow s = true) :
    beginPacket s = .ok (⟨s.mem, s.limit.toNat⟩, s.cur.toNat) :=
  beginPacket_eq_ok.2 ⟨by simpa [packetWindow] using h, rfl, rfl⟩

theorem beginPacket_bad {s : State} (h : packetWindow s = false) :
    beginPacket s = raise .outOfRange s.cur.toNat := by
  unfold beginPacket
  rw [if_neg (by simpa [packetWindow] using h)]

theorem beginFrame_eq_ok {s : State} {w : Window} {c : Nat} :
    beginFrame s = .ok (w, c) ↔
      (s.fcur.toNat ≤ s.fend.toNat ∧ s.fend.toNat ≤ s.params.maxInLen) ∧ w = ⟨s.mem, s.fend.toNat⟩ ∧
        c = s.fcur.toNat := by
  unfold beginFrame
  split
  · simp_all [eq_comm]
  · rename_i h
    simp [h]

theorem beginFrame_ok {s : State} (h : frameWindow s = true) :
    beginFrame s = .ok (⟨s.mem, s.fend.toNat⟩, s.fcur.toNat) :=
  beginFrame_eq_ok.2 ⟨by simpa [frameWindow] using h, rfl, rfl⟩

theorem beginFrame_bad {s : State} (h : frameWindow s = false) :
    beginFrame s = raise .outOfRange s.fcur.toNat := by
  unfold beginFrame
  rw [if_neg (by simpa [frameWindow] using h)]

/-! ## Stops -/

/-- An outcome that is never a refusal, and a fault only at a byte of `IN` that exists and was not written. -/
def StopsOnlyUnwritten (s : State) (r : Result) : Prop :=
  (∀ x, r ≠ .refused x) ∧
    ∀ f, r = .fault f → ∃ a, f = .unwrittenInput a ∧ a < s.params.maxInLen ∧ s.mem.read a = none

theorem StopsOnlyUnwritten.run {op : Byte} {s : State} {body : Except Stop State}
    (h : ∀ f, body = .error (.fault f) → ∃ a, f = .unwrittenInput a ∧ a < s.params.maxInLen ∧ s.mem.read a = none) :
    StopsOnlyUnwritten s (runCommand op s body) :=
  ⟨runCommand_ne_refused _ _ _, fun f hf => h f (runCommand_eq_fault.1 hf)⟩

theorem StopsOnlyUnwritten.next (s t : State) : StopsOnlyUnwritten s (.next t) := by simp [StopsOnlyUnwritten]

/-- A command that reads through the packet window. -/
theorem StopsOnlyUnwritten.packet {op : Byte} {s : State} {f : Window × Nat → Except Stop State}
    (h : ∀ w c, FaultsOnlyUnwritten w (f (w, c))) : StopsOnlyUnwritten s (runCommand op s (beginPacket s >>= f)) := by
  refine .run fun x hx => ?_
  rcases bind_eq_error.1 hx with h1 | ⟨⟨w, c⟩, h1, h2⟩
  · unfold beginPacket at h1
    split at h1 <;> simp at h1
  · obtain ⟨h3, rfl, rfl⟩ := beginPacket_eq_ok.1 h1
    obtain ⟨a, h4, h5, h6⟩ := h _ _ x h2
    exact ⟨a, h4, lt_of_lt_of_le h5 h3.2, h6⟩

theorem vdecClass_stops (cls : BitVec 2) (high : BitVec 6) (s : State) :
    StopsOnlyUnwritten s (vdecClass cls high s) :=
  .packet fun _ _ => (need_faults _ _ _).bind fun _ _ => (varIntTail_faults _ _ _ _).bind fun _ _ => .ok _ _

theorem pktLong_stops (flags : Byte) (tail : Window → Nat → Except Stop (PacketTail × Nat)) (s : State)
    (h : ∀ w c, FaultsOnlyUnwritten w (tail w c)) : StopsOnlyUnwritten s (pktLong flags tail s) :=
  .packet fun _ _ => (need_faults _ _ _).bind fun _ _ => (longFields_faults _ _ _ _ _).bind fun _ _ =>
    (h _ _).bind fun _ _ => .ok _ _

theorem frmClass_stops (k : FrameKind) (tag : Byte) (x : Window → Nat → Except Stop (Extracted × Nat)) (s : State)
    (h : ∀ w c, FaultsOnlyUnwritten w (x w c)) : StopsOnlyUnwritten s (frmClass k tag x s) := by
  unfold frmClass
  split
  · rename_i e he
    refine .run fun f hf => ?_
    unfold beginFrame at he
    split at he <;> simp_all [raise]
  · rename_i w c he
    obtain ⟨h3, rfl, rfl⟩ := beginFrame_eq_ok.1 he
    split
    · exact .next _ _
    · split
      · refine .run fun f hf => ?_
        obtain ⟨a, h4, h5, h6⟩ := ((h ⟨s.mem, s.fend.toNat⟩ _).bind fun _ _ => .ok _ _) f hf
        exact ⟨a, h4, lt_of_lt_of_le h5 h3.2, h6⟩
      · exact .run (by simp)

/-! ## What a command writes -/

/-- What the commands of an opcode write, before `STATUS`, when they complete without END. -/
inductive Wrote (s : State) : Byte → State → Prop where
  | nop : Wrote s opNop s
  | vdec (v : U62) (n c : Nat) (hn : n = 1 ∨ n = 2 ∨ n = 4 ∨ n = 8) (hc : c ≤ s.limit.toNat) :
      Wrote s opVdec (commitVarInt v n c s)
  | venc (h : s.arg.toNat ≤ varIntMax) : Wrote s opVenc { s with
      vi := { value := s.arg, len := w64 (encodedSize s.arg.toNat), bytes := w64 (encWord s.arg.toNat) }
      valid := setValid s.valid (vViValue ||| vViLen ||| vViBytes) 0 }
  | vsize (h : s.arg.toNat ≤ varIntMax) : Wrote s opVsize { s with
      vi := { s.vi with value := s.arg, len := w64 (encodedSize s.arg.toNat) }
      valid := setValid s.valid (vViValue ||| vViLen) vViBytes }
  | peek (b : Byte) : Wrote s opPeek { s with
      formPeek := flagWord (formBit b), valid := setValid s.valid vFormPeek 0 }
  | hdrl (h : Header) (c : Nat) (hw : h.Within 20 s.params.maxInLen) :
      Wrote s opHdrl (commitHeader h s.cur.toNat c s)
  | hdrs (h : Header) (c : Nat) (hw : h.Within 20 s.params.maxInLen) :
      Wrote s opHdrs (commitHeader h s.cur.toNat c s)
  | pndec (pn : U32) (c : Nat) (h : 1 ≤ s.arg.toNat ∧ s.arg.toNat ≤ 4) : Wrote s opPndec { s with
      pn := { pn := zext32 pn, nbytes := w64 s.arg.toNat }
      valid := setValid s.valid vPn vPacket
      cur := w64 c }
  | packet (h : Header) (t : PacketTail) (c : Nat) (hh : h.Within 20 s.params.maxInLen)
      (ht : t.Within s.limit.toNat) (hs : s.cur.toNat < c) (hc : c ≤ s.limit.toNat)
      (hl : s.limit.toNat ≤ s.params.maxInLen) :
      Wrote s opPkt (commitPacket s.cur.toNat h t c s)
  | frame (k : FrameKind) (tag : Byte) (x : Extracted) (c : Nat) (hx : x.Within s.params.maxInLen)
      (hs : s.fcur.toNat < c) (hc : c ≤ s.params.maxInLen) :
      Wrote s opFrm (commitFrame k tag s.fcur.toNat x c s)

/-- The next state of a command: its writes with `STATUS` OK, END, or the abort. -/
inductive Outcome (s : State) (op : Byte) : State → Prop where
  | done (u : State) (h : Wrote s op u) : Outcome s op { u with status := statusWord .ok op }
  | ended (h : op = opFrm) : Outcome s op (endOfWindow s)
  | aborted (e : Err) (o : Nat) : Outcome s op (abort op e o s)

/-- A run whose completed body is one of the writes has an outcome. -/
theorem Outcome.run {op : Byte} {s t : State} {body : Except Stop State} (hb : ∀ u, body = .ok u → Wrote s op u)
    (h : runCommand op s body = .next t) : Outcome s op t := by
  rcases runCommand_eq_next.1 h with ⟨u, h1, rfl⟩ | ⟨e, o, -, rfl⟩
  · exact .done u (hb u h1)
  · exact .aborted e o

theorem Header.Within.mono {n m lim lim' : Nat} {h : Header} (hh : h.Within n lim) (h1 : n ≤ m) (h2 : lim ≤ lim') :
    h.Within m lim' := by
  obtain ⟨a, b, c, d⟩ := hh
  exact ⟨le_trans a h2, le_trans b h2, le_trans c h1, le_trans d h1⟩

theorem Slice.Before.mono {n m : Nat} {d : Slice} (h : d.Before n) (hm : n ≤ m) : d.Before m := le_trans h hm

/-- PKT's payload is reported at the cursor it leaves, which is within the input. -/
theorem PacketTail.slices_before {lim c : Nat} {t : PacketTail} (h : t.Within lim) (hc : c ≤ lim) :
    ∀ d ∈ t.slices c, Slice.Before lim d := by
  intro d hd
  simp only [PacketTail.slices, List.mem_append, Option.mem_toList, List.mem_singleton] at hd
  rcases hd with hd | rfl
  · exact h.1 d hd
  · exact h.2.1 c hc

/-! ## Each unit's outcomes -/

/-- A command that reads through the packet window. -/
theorem Outcome.packetRun {op : Byte} {s t : State} {f : Window × Nat → Except Stop State}
    (hf : s.cur.toNat ≤ s.limit.toNat → s.limit.toNat ≤ s.params.maxInLen →
      ∀ u, f (⟨s.mem, s.limit.toNat⟩, s.cur.toNat) = .ok u → Wrote s op u)
    (h : runCommand op s (beginPacket s >>= f) = .next t) : Outcome s op t := by
  refine .run (fun u hu => ?_) h
  obtain ⟨⟨w, c⟩, h1, h2⟩ := bind_eq_ok.1 hu
  obtain ⟨h3, rfl, rfl⟩ := beginPacket_eq_ok.1 h1
  exact hf h3.1 h3.2 u h2

theorem varIntLen_cases (cls : BitVec 2) :
    varIntLen cls = 1 ∨ varIntLen cls = 2 ∨ varIntLen cls = 4 ∨ varIntLen cls = 8 := by
  revert cls
  decide

theorem vdecClass_outcome {cls : BitVec 2} {high : BitVec 6} {s t : State}
    (h : vdecClass cls high s = .next t) : Outcome s opVdec t := by
  refine .packetRun (fun _ h2 u hu => ?_) h
  obtain ⟨_, hn, hu⟩ := bind_eq_ok.1 hu
  obtain ⟨⟨⟨v, n⟩, c'⟩, h3, hu⟩ := bind_eq_ok.1 hu
  obtain ⟨⟨r, c2⟩, h4, h5⟩ := bind_eq_ok.1 h3
  obtain ⟨h6, rfl, -⟩ := varIntMore_eq_ok.1 h4
  have hn := need_eq_ok.1 hn
  cases h5
  cases hu
  refine .vdec _ _ _ ?_ ?_
  · exact varIntLen_cases cls
  · simp only at h6 hn ⊢; omega

theorem pktLong_outcome {flags : Byte} {tail : Window → Nat → Except Stop (PacketTail × Nat)} {s t : State}
    (ht : ∀ w c, c ≤ w.lim → Bounded w c (PacketTail.Within w.lim) (tail w c))
    (h : pktLong flags tail s = .next t) : Outcome s opPkt t := by
  refine .packetRun (fun h1 h2 u hu => ?_) h
  obtain ⟨_, hn, hu⟩ := bind_eq_ok.1 hu
  obtain ⟨⟨hd, c1⟩, h3, hu⟩ := bind_eq_ok.1 hu
  obtain ⟨⟨tl, c2⟩, h4, hu⟩ := bind_eq_ok.1 hu
  obtain ⟨h5, h6, h7⟩ := longFields_bounded _ _ _ _ _ _ _ h3
  obtain ⟨h8, h9, h10⟩ := ht _ _ h6 _ _ h4
  cases hu
  simp only at h5 h8 h9
  exact .packet _ _ _ (h7.1.mono (Nat.le_refl _) h2) h10 (by omega) h9 h2

theorem frmClass_outcome {k : FrameKind} {tag : Byte} {x : Window → Nat → Except Stop (Extracted × Nat)}
    {s t : State} (hx : ∀ w c, c ≤ w.lim → Bounded w c (Extracted.Within w.lim) (x w c))
    (h : frmClass k tag x s = .next t) : Outcome s opFrm t := by
  unfold frmClass at h
  split at h
  · exact .run (by simp) h
  · rename_i w c he
    obtain ⟨h3, rfl, rfl⟩ := beginFrame_eq_ok.1 he
    split at h
    · cases h; exact .ended rfl
    · rename_i hne
      split at h
      · refine .run (fun u hu => ?_) h
        obtain ⟨⟨y, c'⟩, h4, hu⟩ := bind_eq_ok.1 hu
        obtain ⟨h5, h6, h7⟩ := hx _ _ (by simp only at hne ⊢; omega) _ _ h4
        cases hu
        simp only at h5 h6
        exact .frame _ _ _ _ (fun d hd => (h7 d hd).mono h3.2) (by omega) (by omega)
      · exact .run (by simp) h

/-! ## Every instruction -/

theorem execVarIntFirst_outcome {b : Byte} {s t : State} (h : execVarIntFirst b s = .next t) :
    Outcome s opVdec t := by
  unfold execVarIntFirst at h
  split at h <;> exact vdecClass_outcome h

theorem execVdec_outcome {s t : State} (h : execVdec s = .next t) : Outcome s opVdec t := by
  unfold execVdec at h
  split at h
  · exact .run (by simp) h
  · exact execVarIntFirst_outcome h

theorem execVenc_outcome {s t : State} (h : execVenc s = .next t) : Outcome s opVenc t := by
  refine .run (fun u hu => ?_) h
  split at hu
  · simp at hu
  · cases hu; exact .venc (by omega)

theorem execVsize_outcome {s t : State} (h : execVsize s = .next t) : Outcome s opVsize t := by
  refine .run (fun u hu => ?_) h
  split at hu
  · simp at hu
  · cases hu; exact .vsize (by omega)

theorem execNop_outcome {s t : State} (h : execNop s = .next t) : Outcome s opNop t :=
  .run (fun u hu => by cases hu; exact .nop) h

theorem execPeek_outcome {s t : State} (h : execPeek s = .next t) : Outcome s opPeek t := by
  refine .packetRun (fun _ _ u hu => ?_) h
  obtain ⟨b, -, hu⟩ := bind_eq_ok.1 hu
  cases hu
  exact .peek b

theorem execHdrl_outcome {s t : State} (h : execHdrl s = .next t) : Outcome s opHdrl t := by
  refine .packetRun (fun _ h2 u hu => ?_) h
  obtain ⟨⟨hd, c'⟩, h3, hu⟩ := bind_eq_ok.1 hu
  cases hu
  exact .hdrl _ _ ((decodeLong_bounded _ _ _ _ _ h3).2.2.mono (Nat.le_refl _) h2)

theorem execHdrs_outcome {s t : State} (h : execHdrs s = .next t) : Outcome s opHdrs t := by
  refine .packetRun (fun _ h2 u hu => ?_) h
  obtain ⟨⟨hd, c'⟩, h3, hu⟩ := bind_eq_ok.1 hu
  cases hu
  exact .hdrs _ _ ((decodeShort_bounded _ _ _ _ _ h3).2.2.mono (Nat.le_refl _) h2)

theorem execPndec_outcome {s t : State} (h : execPndec s = .next t) : Outcome s opPndec t := by
  refine .packetRun (fun _ _ u hu => ?_) h
  simp only at hu
  split at hu
  · simp at hu
  · obtain ⟨⟨pn, c'⟩, -, hu⟩ := bind_eq_ok.1 hu
    cases hu
    exact .pndec _ _ (by omega)

theorem execPktShort_outcome {fixed spin : Bool} {reserved : BitVec 2} {keyPhase : Bool} {pnl : BitVec 2}
    {s t : State} (h : execPktShort fixed spin reserved keyPhase pnl s = .next t) : Outcome s opPkt t := by
  refine .packetRun (fun h1 h2 u hu => ?_) h
  obtain ⟨_, hn, hu⟩ := bind_eq_ok.1 hu
  obtain ⟨_, hk, hu⟩ := bind_eq_ok.1 hu
  obtain ⟨⟨hd, c1⟩, h3, hu⟩ := bind_eq_ok.1 hu
  obtain ⟨⟨tl, c2⟩, h4, hu⟩ := bind_eq_ok.1 hu
  obtain ⟨h5, h6, h7⟩ := shortFields_bounded _ _ _ _ _ _ _ h3
  obtain ⟨h8, h9, h10⟩ := shortTail_bounded _ _ _ _ _ h4
  have hl := checkShortDcidLen_eq_ok.1 hk
  cases hu
  simp only at h5 h8 h9
  exact .packet _ _ _ (h7.1.mono hl h2) h10 (by omega) h9 h2

theorem execPacketFirst_outcome {vn : Bool} {b : Byte} {s t : State} (h : execPacketFirst vn b s = .next t) :
    Outcome s opPkt t := by
  unfold execPacketFirst at h
  split at h
  · exact pktLong_outcome vnTail_bounded h
  · exact pktLong_outcome (fun _ _ _ => initialTail_bounded _ _ _ _) h
  · exact pktLong_outcome (fun _ _ _ => zeroRttTail_bounded _ _ _ _) h
  · exact pktLong_outcome (fun _ _ _ => handshakeTail_bounded _ _ _ _) h
  · exact pktLong_outcome retryTail_bounded h
  · exact execPktShort_outcome h

theorem execPkt_outcome {s t : State} (h : execPkt s = .next t) : Outcome s opPkt t := by
  unfold execPkt at h
  split at h
  · exact .run (by simp) h
  · exact execPacketFirst_outcome h

theorem execFrameKind_outcome {k : FrameKind} {tag : Byte} {s t : State} (h : execFrameKind k tag s = .next t) :
    Outcome s opFrm t := by
  cases k with
  | padding => exact frmClass_outcome (extractNone_bounded _) h
  | ping => exact frmClass_outcome (extractNone_bounded _) h
  | ack => exact frmClass_outcome (fun _ _ _ => extractAck_bounded _ _ _) h
  | resetStream => exact frmClass_outcome (fun _ _ _ => extractResetStream_bounded _ _) h
  | stopSending => exact frmClass_outcome (fun _ _ _ => extractStopSending_bounded _ _) h
  | crypto => exact frmClass_outcome (fun _ _ _ => extractCrypto_bounded _ _) h
  | newToken => exact frmClass_outcome (fun _ _ _ => extractNewToken_bounded _ _) h
  | stream => exact frmClass_outcome (fun _ _ _ => extractStream_bounded _ _ _ _ _) h
  | maxData => exact frmClass_outcome (fun _ _ _ => extractMaxData_bounded _ _) h
  | maxStreamData => exact frmClass_outcome (fun _ _ _ => extractMaxStreamData_bounded _ _) h
  | maxStreams => exact frmClass_outcome (fun _ _ _ => extractMaxStreams_bounded _ _ _) h
  | dataBlocked => exact frmClass_outcome (fun _ _ _ => extractDataBlocked_bounded _ _) h
  | streamDataBlocked => exact frmClass_outcome (fun _ _ _ => extractStreamDataBlocked_bounded _ _) h
  | streamsBlocked => exact frmClass_outcome (fun _ _ _ => extractStreamsBlocked_bounded _ _ _) h
  | newConnectionId => exact frmClass_outcome (fun _ _ _ => extractNewConnectionId_bounded _ _) h
  | retireConnectionId => exact frmClass_outcome (fun _ _ _ => extractRetireConnectionId_bounded _ _) h
  | pathChallenge => exact frmClass_outcome (fun _ _ _ => extractPathChallenge_bounded _ _) h
  | pathResponse => exact frmClass_outcome (fun _ _ _ => extractPathResponse_bounded _ _) h
  | connectionClose => exact frmClass_outcome (fun _ _ _ => extractConnectionClose_bounded _ _ _) h
  | handshakeDone => exact frmClass_outcome (extractNone_bounded _) h
  | datagram => exact frmClass_outcome (extractDatagram_bounded _) h

theorem execFrm_outcome {s t : State} (h : execFrm s = .next t) : Outcome s opFrm t := by
  unfold execFrm at h
  split at h
  · exact .run (by simp) h
  · split at h
    · cases h; exact .ended rfl
    · split at h
      · exact .run (by simp) h
      · split at h
        · exact .run (by simp) h
        · exact execFrameKind_outcome h

/-- What an instruction can do, said once: it leaves one of its command's outcomes. -/
theorem exec_outcome {i : Instr} {s t : State} (h : exec i s = .next t) : Outcome s (opcodeFor i) t := by
  cases i with
  | nop => exact execNop_outcome h
  | vdec => exact execVdec_outcome h
  | venc => exact execVenc_outcome h
  | vsize => exact execVsize_outcome h
  | peek => exact execPeek_outcome h
  | hdrl => exact execHdrl_outcome h
  | hdrs => exact execHdrs_outcome h
  | pndec => exact execPndec_outcome h
  | pkt => exact execPkt_outcome h
  | frm => exact execFrm_outcome h
  | pktVersionNegotiation low => exact pktLong_outcome vnTail_bounded h
  | pktInitial fixed reserved pnl => exact pktLong_outcome (fun _ _ _ => initialTail_bounded _ _ _ _) h
  | pktZeroRtt fixed reserved pnl => exact pktLong_outcome (fun _ _ _ => zeroRttTail_bounded _ _ _ _) h
  | pktHandshake fixed reserved pnl => exact pktLong_outcome (fun _ _ _ => handshakeTail_bounded _ _ _ _) h
  | pktRetry fixed unused => exact pktLong_outcome retryTail_bounded h
  | pktShort fixed spin reserved keyPhase pnl => exact execPktShort_outcome h
  | varint1B high => exact vdecClass_outcome h
  | varint2B high => exact vdecClass_outcome h
  | varint4B high => exact vdecClass_outcome h
  | varint8B high => exact vdecClass_outcome h
  | framePadding => exact frmClass_outcome (extractNone_bounded _) h
  | framePing => exact frmClass_outcome (extractNone_bounded _) h
  | frameAck ecn => exact frmClass_outcome (fun _ _ _ => extractAck_bounded _ _ _) h
  | frameResetStream => exact frmClass_outcome (fun _ _ _ => extractResetStream_bounded _ _) h
  | frameStopSending => exact frmClass_outcome (fun _ _ _ => extractStopSending_bounded _ _) h
  | frameCrypto => exact frmClass_outcome (fun _ _ _ => extractCrypto_bounded _ _) h
  | frameNewToken => exact frmClass_outcome (fun _ _ _ => extractNewToken_bounded _ _) h
  | frameStream off len fin => exact frmClass_outcome (fun _ _ _ => extractStream_bounded _ _ _ _ _) h
  | frameMaxData => exact frmClass_outcome (fun _ _ _ => extractMaxData_bounded _ _) h
  | frameMaxStreamData => exact frmClass_outcome (fun _ _ _ => extractMaxStreamData_bounded _ _) h
  | frameMaxStreams uni => exact frmClass_outcome (fun _ _ _ => extractMaxStreams_bounded _ _ _) h
  | frameDataBlocked => exact frmClass_outcome (fun _ _ _ => extractDataBlocked_bounded _ _) h
  | frameStreamDataBlocked => exact frmClass_outcome (fun _ _ _ => extractStreamDataBlocked_bounded _ _) h
  | frameStreamsBlocked uni => exact frmClass_outcome (fun _ _ _ => extractStreamsBlocked_bounded _ _ _) h
  | frameNewConnectionId => exact frmClass_outcome (fun _ _ _ => extractNewConnectionId_bounded _ _) h
  | frameRetireConnectionId => exact frmClass_outcome (fun _ _ _ => extractRetireConnectionId_bounded _ _) h
  | framePathChallenge => exact frmClass_outcome (fun _ _ _ => extractPathChallenge_bounded _ _) h
  | framePathResponse => exact frmClass_outcome (fun _ _ _ => extractPathResponse_bounded _ _) h
  | frameConnectionClose app => exact frmClass_outcome (fun _ _ _ => extractConnectionClose_bounded _ _ _) h
  | frameHandshakeDone => exact frmClass_outcome (extractNone_bounded _) h
  | frameDatagram len => exact frmClass_outcome (extractDatagram_bounded _) h

/-- A command only appends to the descriptors reported (70_reset_and_hazards.md R293). -/
theorem Outcome.descs_append {s t : State} {op : Byte} (h : Outcome s op t) : ∃ l, t.descs = s.descs ++ l := by
  cases h with
  | done u hu =>
    cases hu <;> first
      | exact ⟨[], (List.append_nil _).symm⟩
      | exact ⟨_, rfl⟩
      | exact ⟨_, List.append_assoc _ _ _⟩
  | ended => exact ⟨[], (List.append_nil _).symm⟩
  | aborted => exact ⟨[], (List.append_nil _).symm⟩

end Sys2Proof.Machine
end

