-- ==== Sys2Proof/Laws/Header.lean ====
section
/-! SUPPORT. Headers: the flag accessors as arithmetic on the first byte, and what the header readers answer on a
header that is there. -/

namespace Sys2Proof.Machine

theorem formBit_eq (b : Byte) : formBit b = decide (128 ≤ b.toNat) := by revert b; decide

theorem fixedBit_eq (b : Byte) : fixedBit b = decide (b.toNat / 64 % 2 = 1) := by revert b; decide

theorem enforceFixedBit_eq (ctrl : Word) : enforceFixedBit ctrl = decide (ctrl.toNat % 2 = 1) := by
  simp [enforceFixedBit, BitVec.getLsbD, Nat.testBit_zero]

theorem zext62_eq (v : U62) : zext62 v = BitVec.ofNat 64 v.toNat := BitVec.eq_of_toNat_eq (by simp [zext62])

theorem zext32_eq (v : U32) : zext32 v = BitVec.ofNat 64 v.toNat := BitVec.eq_of_toNat_eq (by simp [zext32])

theorem zext8_eq (b : Byte) : zext8 b = BitVec.ofNat 64 b.toNat := BitVec.eq_of_toNat_eq (by simp [zext8])

theorem w64_toNat (w : Word) : w64 w.toNat = w := by simp [w64]

theorem accessor_false (v : Byte) : accessor false v = 0 := rfl

theorem accessor_bit (b : Bool) : accessor true (if b then 1 else 0) = if b then 0x101 else 0x100 := by
  cases b <;> rfl

/-! ## The header registers (41_header.md R137, R140..R145) -/

/-- The registers of a long header, by arithmetic on its first byte. -/
theorem headerRegs_long (flags : Byte) (version : U32) (dcid scid : Slice) (a : Word) :
    headerRegs (.long flags version dcid scid) a.toNat = longRegs flags version dcid scid a := by
  have h1 : accessor true ((longType flags).setWidth 8) = BitVec.ofNat 64 (0x100 + flags.toNat / 16 % 4) := by
    revert flags; decide
  have h2 : accessor true ((pnlBits flags).setWidth 8 + 1) = BitVec.ofNat 64 (0x100 + (flags.toNat % 4 + 1)) := by
    revert flags; decide
  have h3 : accessor true (if version = 0 then 1 else 0) = if version = 0 then 0x101 else 0x100 := by
    split <;> rfl
  have h4 : accessor true (if fixedBit flags then 1 else 0) = BitVec.ofNat 64 (0x100 + flags.toNat / 64 % 2) := by
    revert flags; decide
  unfold headerRegs longRegs
  rw [HeaderRegs.mk.injEq]
  exact ⟨rfl, zext8_eq _, zext32_eq _, rfl, rfl, rfl, rfl, w64_toNat a, h1, h2, h3, rfl, rfl, h4⟩

/-- The registers of a short header, by arithmetic on its first byte. -/
theorem headerRegs_short (flags : Byte) (dcid : Slice) (a : Word) :
    headerRegs (.short flags dcid) a.toNat = shortRegs flags dcid a := by
  have h1 : accessor (!false) (if spinBit flags then 1 else 0) = BitVec.ofNat 64 (0x100 + flags.toNat / 32 % 2) := by
    revert flags; decide
  have h2 : accessor true ((pnlBits flags).setWidth 8 + 1) = BitVec.ofNat 64 (0x100 + (flags.toNat % 4 + 1)) := by
    revert flags; decide
  have h3 : accessor (!false) (if keyPhaseBit flags then 1 else 0) =
      BitVec.ofNat 64 (0x100 + flags.toNat / 4 % 2) := by
    revert flags; decide
  have h4 : accessor true (if fixedBit flags then 1 else 0) = BitVec.ofNat 64 (0x100 + flags.toNat / 64 % 2) := by
    revert flags; decide
  unfold headerRegs shortRegs
  rw [HeaderRegs.mk.injEq]
  exact ⟨rfl, zext8_eq _, rfl, rfl, rfl, rfl, rfl, w64_toNat a, rfl, h2, rfl, h1, h3, h4⟩

/-! ## Long headers -/

theorem longHeaderAt_iff {m : Memory} {a : Nat} {flags : Byte} {h : Header} :
    longHeaderAt m a flags = some h ↔
      ∃ v dl sl, valueAt m (a + 1) 4 = some v ∧ m.read (a + 5) = some dl ∧
        m.read (a + 6 + dl.toNat) = some sl ∧ dl.toNat ≤ 20 ∧ sl.toNat ≤ 20 ∧
        h = .long flags (BitVec.ofNat 32 v) ⟨a + 6, dl.toNat⟩ ⟨a + 7 + dl.toNat, sl.toNat⟩ := by
  unfold longHeaderAt
  cases valueAt m (a + 1) 4 <;> cases m.read (a + 5) <;> simp
  rename_i v dl
  cases m.read (a + 6 + dl.toNat) <;> simp [and_assoc, eq_comm]

theorem fixedBitCheckLong_ok {s : State} {flags : Byte} {version : U32}
    (h : fixedBitOkLong s flags version = true) (start : Nat) :
    fixedBitCheckLong (enforceFixedBit s.ctrl) flags version start = .ok () := by
  rw [fixedBitCheckLong_eq_ok]
  simp only [fixedBitOkLong, Bool.or_eq_true, Bool.not_eq_true'] at h
  rcases h with (h | h) | h
  · simp [h]
  · rw [bne, h]; simp
  · simp [h]

theorem fixedBitCheckShort_ok {s : State} {flags : Byte} (h : fixedBitOkShort s flags = true) (start : Nat) :
    fixedBitCheckShort (enforceFixedBit s.ctrl) flags start = .ok () := by
  rw [fixedBitCheckShort_eq_ok]
  simp only [fixedBitOkShort, Bool.or_eq_true, Bool.not_eq_true'] at h
  rcases h with h | h <;> simp [h]

/-- A long header that stands at `CUR` is read, up to the end of its source connection ID. -/
theorem longFields_ok {s : State} {flags : Byte} {version : U32} {dcid scid : Slice}
    (h : longHeaderAt s.mem s.cur.toNat flags = some (.long flags version dcid scid))
    (hf : fixedBitOkLong s flags version = true) {lim : Nat}
    (hl : s.cur.toNat + (7 + dcid.len + scid.len) ≤ lim) :
    longFields (enforceFixedBit s.ctrl) flags s.cur.toNat ⟨s.mem, lim⟩ (s.cur.toNat + 1) =
      .ok (.long flags version dcid scid, s.cur.toNat + (7 + dcid.len + scid.len)) := by
  obtain ⟨v, dl, sl, h1, h2, h3, h4, h5, h6⟩ := longHeaderAt_iff.1 h
  simp only [Header.long.injEq, true_and] at h6
  obtain ⟨rfl, rfl, rfl⟩ := h6
  simp only at hl
  have r1 := (readN_eq_ok (w := ⟨s.mem, lim⟩) (c := s.cur.toNat + 1)).2 ⟨by simp only; omega, h1, rfl⟩
  have r2 := (readCid_eq_ok (w := ⟨s.mem, lim⟩) (c := s.cur.toNat + 1 + 4)).2
    ⟨dl, h2, h4, by simp only; omega, rfl, rfl⟩
  have r3 := (readCid_eq_ok (w := ⟨s.mem, lim⟩) (c := s.cur.toNat + 1 + 4 + 1 + dl.toNat)).2
    ⟨sl, by rw [← h3], h5, by simp only; omega, rfl, rfl⟩
  simp only [longFields, r1, r2, r3, ok_bind, fixedBitCheckLong_ok hf, Except.ok.injEq, Prod.mk.injEq,
    Header.long.injEq, Slice.mk.injEq, and_true, true_and]
  omega

/-- A long header cut inside its version. -/
theorem longFields_cut {enforce : Bool} {flags : Byte} {start : Nat} {w : Window} {c : Nat} (h : w.lim < c + 4) :
    longFields enforce flags start w c = raise .truncated c := by
  simp [longFields, readN_cut h]

/-- What is read of a long header up to its connection IDs. -/
theorem longFields_start {s : State} {flags : Byte} (h : longStart s flags) :
    ∃ v, longFields (enforceFixedBit s.ctrl) flags s.cur.toNat ⟨s.mem, s.limit.toNat⟩ (s.cur.toNat + 1) = (do
      let (dcid, c) ← readCid ⟨s.mem, s.limit.toNat⟩ (s.cur.toNat + 5)
      let (scid, c) ← readCid ⟨s.mem, s.limit.toNat⟩ c
      .ok (.long flags (BitVec.ofNat 32 v) dcid scid, c)) := by
  obtain ⟨-, -, -, hl, v, hv, hf⟩ := h
  refine ⟨v, ?_⟩
  rw [longFields, (readN_eq_ok (w := ⟨s.mem, s.limit.toNat⟩)).2 ⟨(by simp only; omega), hv, rfl⟩]
  simp only [ok_bind, fixedBitCheckLong_ok hf]

/-- A long header whose first connection ID fails. -/
theorem longFields_dcid_raise {s : State} {flags : Byte} {e : Err} {o : Nat} (h : longStart s flags)
    (hd : readCid ⟨s.mem, s.limit.toNat⟩ (s.cur.toNat + 5) = raise e o) :
    longFields (enforceFixedBit s.ctrl) flags s.cur.toNat ⟨s.mem, s.limit.toNat⟩ (s.cur.toNat + 1) = raise e o := by
  obtain ⟨v, hv⟩ := longFields_start h
  rw [hv, hd, raise_bind]

/-- A long header whose second connection ID fails. -/
theorem longFields_scid_raise {s : State} {flags dl : Byte} {e : Err} {o : Nat} (h : longStart s flags)
    (hd : s.mem.read (s.cur.toNat + 5) = some dl) (h20 : dl.toNat ≤ 20)
    (hl : s.cur.toNat + 6 + dl.toNat ≤ s.limit.toNat)
    (hs : readCid ⟨s.mem, s.limit.toNat⟩ (s.cur.toNat + 6 + dl.toNat) = raise e o) :
    longFields (enforceFixedBit s.ctrl) flags s.cur.toNat ⟨s.mem, s.limit.toNat⟩ (s.cur.toNat + 1) = raise e o := by
  obtain ⟨v, hv⟩ := longFields_start h
  rw [hv, (readCid_eq_ok (w := ⟨s.mem, s.limit.toNat⟩)).2 ⟨dl, hd, h20, hl, rfl, rfl⟩]
  simp only [ok_bind, hs, raise_bind]

/-- A connection ID whose length byte is missing is TRUNCATED there. -/
theorem readCid_missing {w : Window} {c : Nat} (h : w.lim < c + 1) : readCid w c = raise .truncated c := by
  rw [readCid, readByte_cut h, raise_bind]

/-- A connection ID whose length byte is above 20 is OUT_OF_RANGE there (41_header.md R132). -/
theorem readCid_long {w : Window} {c : Nat} {n : Byte} (hn : w.mem.read c = some n) (h20 : 20 < n.toNat)
    (hl : c + 1 ≤ w.lim) : readCid w c = raise .outOfRange c := by
  rw [readCid, readByte_eq_ok.2 ⟨hl, hn, rfl⟩]
  simp only [ok_bind, cidMaxLen, h20, if_true]

/-- A connection ID that the limit cuts is TRUNCATED at its first byte. -/
theorem readCid_cut {w : Window} {c : Nat} {n : Byte} (hn : w.mem.read c = some n) (h20 : n.toNat ≤ 20)
    (hl : c + 1 ≤ w.lim) (hc : w.lim < c + 1 + n.toNat) : readCid w c = raise .truncated (c + 1) := by
  rw [readCid, readByte_eq_ok.2 ⟨hl, hn, rfl⟩, ok_bind]
  exact (if_neg (show ¬ cidMaxLen < n.toNat from Nat.not_lt.2 h20)).trans (readSlice_cut hc)

/-- HDRL at a long header whose fields fail. -/
theorem execHdrl_raise {s : State} {flags : Byte} {e : Err} {o : Nat} (hw : packetWindow s = true)
    (hb : s.mem.read s.cur.toNat = some flags) (hf : formBit flags = true) (hl : s.cur.toNat + 1 ≤ s.limit.toNat)
    (h : longFields (enforceFixedBit s.ctrl) flags s.cur.toNat ⟨s.mem, s.limit.toNat⟩ (s.cur.toNat + 1) = raise e o) :
    execHdrl s = .next (failed s (statusWord (errCode e) opHdrl) (clearsOf opHdrl) o) := by
  simp only [execHdrl, beginPacket_ok hw, ok_bind, decodeLong,
    (readByte_eq_ok (w := ⟨s.mem, s.limit.toNat⟩)).2 ⟨hl, hb, rfl⟩, hf, if_true, h, raise_bind, runCommand_raise,
    abort_eq_failed]

/-! ## Short headers -/

theorem checkShortDcidLen_ok {ctrl : Word} (h : shortDcidLen ctrl ≤ 20) (start : Nat) :
    checkShortDcidLen ctrl start = .ok () := checkShortDcidLen_eq_ok.2 h

/-- A short header is read up to the end of its connection ID. -/
theorem shortFields_ok {s : State} {flags : Byte} (hf : fixedBitOkShort s flags = true) {start c lim : Nat}
    (hl : c + shortDcidLen s.ctrl ≤ lim) :
    shortFields s.ctrl flags start ⟨s.mem, lim⟩ c =
      .ok (.short flags ⟨c, shortDcidLen s.ctrl⟩, c + shortDcidLen s.ctrl) :=
  shortFields_eq_ok.2 ⟨fixedBitCheckShort_eq_ok.1 (fixedBitCheckShort_ok hf start), rfl, rfl, hl⟩

end Sys2Proof.Machine
end

