-- ==== Sys2Proof/Laws/Packet.lean ====
section
/-! SUPPORT. Packets: the dispatch on a first byte, and what the tail readers answer on a tail that is there. -/

namespace Sys2Proof.Machine

/-- The class PKT runs is the decoded one. -/
theorem exec_decodePacketFirst (vn : Bool) (b : Byte) (s : State) :
    exec (decodePacketFirst vn b) s = execPacketFirst vn b s := by
  unfold decodePacketFirst execPacketFirst
  cases packetKind vn b <;> rfl

/-- The VarInt class VDEC runs is the decoded one. -/
theorem exec_decodeVarIntFirst (b : Byte) (s : State) : exec (decodeVarIntFirst b) s = execVarIntFirst b s := by
  unfold decodeVarIntFirst execVarIntFirst
  generalize (varIntClass b).toNat = n
  rcases n with _ | _ | _ | n <;> rfl

/-- The frame class FRM runs is the decoded one. -/
theorem exec_frameClass (k : FrameKind) (tag : Byte) (s : State) :
    exec (frameClass k tag) s = execFrameKind k tag s := by cases k <;> rfl

/-! ## First bytes -/

theorem fixed_longFlags (fixed : Bool) (type reserved pnl : BitVec 2) :
    fixedBit (longFlags fixed type reserved pnl) = fixed := by
  revert fixed type reserved pnl; decide

theorem form_shortFlags (fixed spin : Bool) (reserved : BitVec 2) (keyPhase : Bool) (pnl : BitVec 2) :
    formBit (shortFlags fixed spin reserved keyPhase pnl) = false := by
  revert fixed spin reserved keyPhase pnl; decide

/-- A short first byte decodes to the packet class it encodes. -/
theorem packetFirst_shortFlags (fixed spin : Bool) (reserved : BitVec 2) (keyPhase : Bool) (pnl : BitVec 2) (s : State) :
    execPacketFirst false (shortFlags fixed spin reserved keyPhase pnl) s =
      execPktShort fixed spin reserved keyPhase pnl s := by
  have h : ∀ (fixed spin : Bool) (reserved : BitVec 2) (keyPhase : Bool) (pnl : BitVec 2),
      decodePacketFirst false (shortFlags fixed spin reserved keyPhase pnl) =
        .pktShort fixed spin reserved keyPhase pnl := by decide
  rw [← exec_decodePacketFirst, h]
  rfl

/-! ## PKT's choice of class (42_packet.md R160, R161) -/

/-- A short first byte. -/
theorem packetFirstAt_short {s : State} {b : Byte} (hw : packetWindow s = true)
    (hlt : s.cur.toNat < s.limit.toNat) (hb : s.mem.read s.cur.toNat = some b) (hf : formBit b = false) :
    packetFirstAt s = .ok (false, b) := by
  have r := (peekByte_eq_ok (w := ⟨s.mem, s.limit.toNat⟩)).2 ⟨hlt, hb⟩
  simp [packetFirstAt, beginPacket_ok hw, r, hf]

/-- A long first byte whose version is there. -/
theorem packetFirstAt_long {s : State} {b : Byte} {v : Nat} (hw : packetWindow s = true)
    (hb : s.mem.read s.cur.toNat = some b) (hf : formBit b = true)
    (hl : s.cur.toNat + 5 ≤ s.limit.toNat) (hv : valueAt s.mem (s.cur.toNat + 1) 4 = some v) :
    packetFirstAt s = .ok (v == 0, b) := by
  have r1 := (peekByte_eq_ok (w := ⟨s.mem, s.limit.toNat⟩)).2
    ⟨show s.cur.toNat + 1 ≤ s.limit.toNat by omega, hb⟩
  have r2 := (readN_eq_ok (w := ⟨s.mem, s.limit.toNat⟩)).2
    ⟨show s.cur.toNat + 1 + 4 ≤ s.limit.toNat by omega, hv, rfl⟩
  simp [packetFirstAt, beginPacket_ok hw, r1, r2, hf]

/-- A long first byte whose version is cut. -/
theorem packetFirstAt_cut {s : State} {b : Byte} (hw : packetWindow s = true)
    (hlt : s.cur.toNat < s.limit.toNat) (hb : s.mem.read s.cur.toNat = some b) (hf : formBit b = true)
    (hl : s.limit.toNat < s.cur.toNat + 5) : packetFirstAt s = raise .truncated (s.cur.toNat + 1) := by
  have r1 := (peekByte_eq_ok (w := ⟨s.mem, s.limit.toNat⟩)).2 ⟨hlt, hb⟩
  have r2 := readN_cut (w := ⟨s.mem, s.limit.toNat⟩) (c := s.cur.toNat + 1) (n := 4) (by simp only; omega)
  simp [packetFirstAt, beginPacket_ok hw, r1, r2, hf]

/-! ## Tails -/

/-- PKT at a short first byte: the configured connection ID, the packet number and the payload, read on that byte. -/
theorem execPkt_short {s : State} {b : Byte} (hw : packetWindow s = true) (hlt : s.cur.toNat < s.limit.toNat)
    (hb : s.mem.read s.cur.toNat = some b) (hf : formBit b = false) :
    execPkt s = runCommand opPkt s (do
      let (w, c) ← beginPacket s
      need w c 1
      checkShortDcidLen s.ctrl c
      let (h, c1) ← shortFields s.ctrl b c w (c + 1)
      let (t, c2) ← shortTail (pnlBits b) w c1
      .ok (commitPacket c h t c2 s)) := by
  have h : ∀ b : Byte, formBit b = false →
      shortFlags (fixedBit b) (spinBit b) (bits b 3 2) (keyPhaseBit b) (pnlBits b) = b := by decide
  rw [execPkt, packetFirstAt_short hw hlt hb hf]
  simp only [execPacketFirst, packetKind, hf, Bool.false_eq_true, if_false, execPktShort, h b hf]

/-- PKT at a long first byte whose version is there runs the long reader on that byte. -/
theorem execPkt_long {s : State} {b : Byte} {v : Nat} (hw : packetWindow s = true)
    (hb : s.mem.read s.cur.toNat = some b) (hf : formBit b = true) (hl : s.cur.toNat + 5 ≤ s.limit.toNat)
    (hv : valueAt s.mem (s.cur.toNat + 1) 4 = some v) : ∃ tail, execPkt s = pktLong b tail s := by
  have h0 : ∀ b : Byte, formBit b = true → vnFlags (bits b 0 7) = b := by decide
  have h1 : ∀ b : Byte, formBit b = true → longType b = 0 →
      longFlags (fixedBit b) 0 (bits b 2 2) (pnlBits b) = b := by decide
  have h2 : ∀ b : Byte, formBit b = true → longType b = 1 →
      longFlags (fixedBit b) 1 (bits b 2 2) (pnlBits b) = b := by decide
  have h3 : ∀ b : Byte, formBit b = true → longType b = 2 →
      longFlags (fixedBit b) 2 (bits b 2 2) (pnlBits b) = b := by decide
  have h4 : ∀ b : Byte, formBit b = true → longType b = 3 → retryFlags (fixedBit b) (bits b 0 4) = b := by decide
  rw [execPkt, packetFirstAt_long hw hb hf hl hv]
  simp only [execPacketFirst, packetKind, hf, if_true, longKind]
  cases v == 0
  · rcases (by decide : ∀ t : BitVec 2, t = 0 ∨ t = 1 ∨ t = 2 ∨ t = 3) (longType b) with h | h | h | h
    · exact ⟨initialTail s.params.lengthIncludesPn (pnlBits b), by rw [h]; exact congrArg (pktLong · _ s) (h1 b hf h)⟩
    · exact ⟨zeroRttTail s.params.lengthIncludesPn (pnlBits b), by rw [h]; exact congrArg (pktLong · _ s) (h2 b hf h)⟩
    · exact ⟨handshakeTail s.params.lengthIncludesPn (pnlBits b), by rw [h]; exact congrArg (pktLong · _ s) (h3 b hf h)⟩
    · exact ⟨retryTail, by rw [h]; exact congrArg (pktLong · _ s) (h4 b hf h)⟩
  · exact ⟨vnTail, congrArg (pktLong · _ s) (h0 b hf)⟩

/-- PKT at a long header whose fields fail. -/
theorem execPkt_raise {s : State} {b : Byte} {v : Nat} {e : Err} {o : Nat} (hw : packetWindow s = true)
    (hb : s.mem.read s.cur.toNat = some b) (hf : formBit b = true) (hl : s.cur.toNat + 5 ≤ s.limit.toNat)
    (hv : valueAt s.mem (s.cur.toNat + 1) 4 = some v)
    (h : longFields (enforceFixedBit s.ctrl) b s.cur.toNat ⟨s.mem, s.limit.toNat⟩ (s.cur.toNat + 1) = raise e o) :
    execPkt s = .next (failed s (statusWord (errCode e) opPkt) (clearsOf opPkt) o) := by
  obtain ⟨tail, ht⟩ := execPkt_long hw hb hf hl hv
  rw [ht]
  simp only [pktLong, beginPacket_ok hw, ok_bind,
    need_ok (show s.cur.toNat + 1 ≤ (⟨s.mem, s.limit.toNat⟩ : Window).lim by simp only; omega), h, raise_bind,
    runCommand_raise, abort_eq_failed]

theorem readWords_eq_ok {w : Window} {n c c' : Nat} {vs : List U32} :
    readWords w n c = .ok (vs, c') ↔ (n = 0 ∨ c + 4 * n ≤ w.lim) ∧ wordsAt w.mem c n = some vs ∧ c' = c + 4 * n := by
  induction n generalizing c c' vs with
  | zero => simp [readWords, wordsAt, @eq_comm _ c']
  | succ n ih =>
    simp only [readWords, bind_eq_ok, Prod.exists, readN_eq_ok, ih, wordsAt, Except.ok.injEq, Prod.mk.injEq]
    constructor
    · rintro ⟨v, _, ⟨h1, h2, rfl⟩, vs', _, ⟨h3, h4, rfl⟩, rfl, rfl⟩
      exact ⟨.inr (by omega), by simp [h2, h4], by omega⟩
    · rintro ⟨h1, h2, rfl⟩
      cases hv : valueAt w.mem c 4 with
      | none => simp [hv] at h2
      | some v =>
        simp only [hv, Option.map_eq_some_iff] at h2
        obtain ⟨vs', h4, rfl⟩ := h2
        exact ⟨v, _, ⟨by omega, rfl, rfl⟩, vs', _, ⟨by omega, h4, rfl⟩, rfl, by omega⟩

theorem wordsAt_length {m : Memory} {n a : Nat} {vs : List U32} (h : wordsAt m a n = some vs) : vs.length = n := by
  induction n generalizing a vs with
  | zero => simp [wordsAt] at h; simp [← h]
  | succ n ih =>
    simp only [wordsAt] at h
    cases hv : valueAt m a 4 with
    | none => simp [hv] at h
    | some v =>
      simp only [hv, Option.map_eq_some_iff] at h
      obtain ⟨vs', h1, rfl⟩ := h
      simp [ih h1]

/-- What the Length field frames, if it is there, is read up to its end. -/
theorem lengthFramed_ok {p : Bool} {pnl : BitVec 2} {w : Window} {q e : Nat} {body : Framed}
    (h : framedAt p (pnl.toNat + 1) w.mem q = some (body, e)) (he : e ≤ w.lim) :
    lengthFramed p pnl w q = .ok (body, e) := by
  unfold framedAt at h
  cases h1 : varIntAt w.mem q with
  | none => simp [h1] at h
  | some x =>
    obtain ⟨len, k⟩ := x
    cases h2 : valueAt w.mem (q + k) (pnl.toNat + 1) with
    | none => simp [h1, h2] at h
    | some v =>
      simp only [h1, h2] at h
      have hn : declaredPnLen pnl = pnl.toNat + 1 := rfl
      cases p with
      | true =>
        simp only [if_true] at h
        split at h
        · cases h
          have r1 := (readVarInt_eq_ok (w := w) (c := q)).2 ⟨h1, by omega, rfl⟩
          have r2 := (readPn_eq_ok (w := w) (c := q + k) (n := declaredPnLen pnl)).2
            ⟨v, h2, rfl, by rw [hn]; omega, rfl⟩
          simp only [lengthFramed, r1, ok_bind, if_true, r2]
          rw [if_neg (by rw [hn]; omega), if_neg (by omega)]
          simp only [Except.ok.injEq, Prod.mk.injEq, Framed.mk.injEq, Slice.mk.injEq, true_and, hn]
          omega
        · simp at h
      | false =>
        simp only [Bool.false_eq_true, if_false] at h
        cases h
        have r1 := (readVarInt_eq_ok (w := w) (c := q)).2 ⟨h1, by omega, rfl⟩
        have r2 := (readPn_eq_ok (w := w) (c := q + k) (n := declaredPnLen pnl)).2
          ⟨v, h2, rfl, by rw [hn]; omega, rfl⟩
        simp only [lengthFramed, r1, ok_bind, Bool.false_eq_true, if_false, r2]
        rw [if_neg (by rw [hn]; omega)]
        simp only [hn]

/-- A Length field that the limit cuts, in written input, is TRUNCATED at the limit. -/
theorem lengthFramed_cutLength {includesPn : Bool} {pnl : BitVec 2} {w : Window} {q : Nat} (hq : q ≤ w.lim)
    (hw : writtenFrom w.mem q w.lim) (h : ∀ v k, varIntAt w.mem q = some (v, k) → w.lim < q + k) :
    lengthFramed includesPn pnl w q = raise .truncated w.lim := by
  rw [lengthFramed, readVarInt_cut hq hw h, raise_bind]

/-- A Length below the packet-number width, where it counts the packet number, is OUT_OF_RANGE at the Length field
(42_packet.md R167). -/
theorem lengthFramed_below {pnl : BitVec 2} {w : Window} {q k : Nat} {length : U62}
    (hv : varIntAt w.mem q = some (length, k)) (hl : q + k ≤ w.lim) (h : length.toNat < pnl.toNat + 1) :
    lengthFramed true pnl w q = raise .outOfRange q := by
  have r1 := (readVarInt_eq_ok (w := w) (c := q)).2 ⟨hv, hl, rfl⟩
  simp only [lengthFramed, r1, if_true, ok_bind, declaredPnLen, h]

/-- A Length that counts the packet number and goes beyond the limit is TRUNCATED just past the Length field. -/
theorem lengthFramed_cut {pnl : BitVec 2} {w : Window} {q k : Nat} {length : U62}
    (hv : varIntAt w.mem q = some (length, k)) (hl : q + k ≤ w.lim) (h : pnl.toNat + 1 ≤ length.toNat)
    (hc : w.lim < q + k + length.toNat) : lengthFramed true pnl w q = raise .truncated (q + k) := by
  have r1 := (readVarInt_eq_ok (w := w) (c := q)).2 ⟨hv, hl, rfl⟩
  simp only [lengthFramed, r1, if_true, ok_bind, declaredPnLen]
  rw [if_neg (by omega), if_pos (by omega)]

/-- A packet number cut by the limit, where the Length does not count it, is TRUNCATED just past the Length field. -/
theorem lengthFramed_cutPn {pnl : BitVec 2} {w : Window} {q k : Nat} {length : U62}
    (hv : varIntAt w.mem q = some (length, k)) (hl : q + k ≤ w.lim) (hc : w.lim < q + k + (pnl.toNat + 1)) :
    lengthFramed false pnl w q = raise .truncated (q + k) := by
  have r1 := (readVarInt_eq_ok (w := w) (c := q)).2 ⟨hv, hl, rfl⟩
  have r2 : readPn w (q + k) (declaredPnLen pnl) = raise .truncated (q + k) := by
    rw [readPn, readN_cut (n := declaredPnLen pnl) hc, raise_bind]
  simp only [lengthFramed, r1, if_false, ok_bind, Bool.false_eq_true, r2, raise_bind]

/-- A Length that does not count the packet number and goes beyond the limit is TRUNCATED just past the packet
number. -/
theorem lengthFramed_cutBody {pnl : BitVec 2} {w : Window} {q k v : Nat} {length : U62}
    (hv : varIntAt w.mem q = some (length, k)) (hpn : valueAt w.mem (q + k) (pnl.toNat + 1) = some v)
    (hl : q + k + (pnl.toNat + 1) ≤ w.lim) (hc : w.lim < q + k + (pnl.toNat + 1) + length.toNat) :
    lengthFramed false pnl w q = raise .truncated (q + k + (pnl.toNat + 1)) := by
  have r1 := (readVarInt_eq_ok (w := w) (c := q)).2 ⟨hv, by omega, rfl⟩
  have r2 : readPn w (q + k) (declaredPnLen pnl) = .ok (BitVec.ofNat 32 v, q + k + (pnl.toNat + 1)) :=
    readPn_eq_ok.2 ⟨v, hpn, rfl, hl, rfl⟩
  simp only [lengthFramed, r1, if_false, ok_bind, Bool.false_eq_true, r2]
  rw [if_pos (by omega)]

/-- The payload ends where the packet does, and the packet number has the declared width. -/
theorem framedAt_end {p : Bool} {n : Nat} {m : Memory} {q e : Nat} {body : Framed}
    (h : framedAt p n m q = some (body, e)) :
    body.payload.off + body.payload.len = e ∧ body.pnLen = n ∧ q ≤ body.payload.off := by
  unfold framedAt at h
  repeat' split at h
  all_goals first | (cases h; refine ⟨rfl, rfl, ?_⟩; simp only; omega) | simp at h

end Sys2Proof.Machine
end

