-- ==== Sys2Proof/Laws/Frame.lean ====
section
/-! SUPPORT. Frames: the dispatch on a tag, and what the field readers answer on fields that are there or cut. -/

namespace Sys2Proof.Machine

/-! ## Runs of VarInts (44_frames.md R210) -/

/-- The first of a run of VarInts is read up to where the run goes on. -/
theorem readVi_of_run {w : Window} {c k e : Nat} {v : U62} {vs : List U62}
    (h : varIntsAt w.mem c (k + 1) = some (v :: vs, e)) (he : e ≤ w.lim) :
    ∃ c', readVi w c = .ok (v, c') ∧ varIntsAt w.mem c' k = some (vs, e) ∧ c' ≤ w.lim := by
  obtain ⟨v', n, rest, h1, h2, h3⟩ := varIntsAt_succ_iff.1 h
  simp only [List.cons.injEq] at h3
  obtain ⟨rfl, rfl⟩ := h3
  have := varIntsAt_le h2
  exact ⟨c + n, readVi_eq_ok.2 ⟨n, h1, by omega, rfl⟩, h2, by omega⟩

/-- A run of one VarInt is read to its end. -/
theorem readVi_of_last {w : Window} {c e : Nat} {v : U62} (h : varIntsAt w.mem c 1 = some ([v], e))
    (he : e ≤ w.lim) : readVi w c = .ok (v, e) := by
  obtain ⟨c', h1, h2, -⟩ := readVi_of_run h he
  rw [varIntsAt_zero] at h2
  cases h2
  exact h1

/-- A VarInt that the limit cuts, in written input: TRUNCATED at the limit. -/
theorem readVi_cut {w : Window} {c : Nat} (hc : c ≤ w.lim) (hw : writtenFrom w.mem c w.lim)
    (h : ∀ v n, varIntAt w.mem c = some (v, n) → w.lim < c + n) : readVi w c = raise .truncated w.lim := by
  rw [readVi, readVarInt_cut hc hw h, raise_bind]

/-- What is left of a run after its first VarInt, for a run that the limit cuts. -/
theorem run_cut {w : Window} {c k : Nat} (hc : c ≤ w.lim) (hw : writtenFrom w.mem c w.lim)
    (h : ∀ vs e, varIntsAt w.mem c (k + 1) = some (vs, e) → w.lim < e) :
    readVi w c = raise .truncated w.lim ∨
      ∃ v c', readVi w c = .ok (v, c') ∧ c ≤ c' ∧ c' ≤ w.lim ∧
        ∀ vs e, varIntsAt w.mem c' k = some (vs, e) → w.lim < e := by
  by_cases hx : ∃ v n, varIntAt w.mem c = some (v, n) ∧ c + n ≤ w.lim
  · obtain ⟨v, n, h1, h2⟩ := hx
    exact .inr ⟨v, c + n, readVi_eq_ok.2 ⟨n, h1, h2, rfl⟩, by omega, h2, fun vs e he =>
      h _ _ (varIntsAt_succ_iff.2 ⟨v, n, vs, h1, he, rfl⟩)⟩
  · exact .inl (readVi_cut hc hw fun v n hv => by
      by_contra hle
      exact hx ⟨v, n, hv, by omega⟩)

/-- A run of at least one VarInt has a first one, which is read up to where the run goes on. -/
theorem readVi_of_run_cons {w : Window} {c k e : Nat} {vs : List U62} (h : varIntsAt w.mem c (k + 1) = some (vs, e))
    (he : e ≤ w.lim) :
    ∃ v rest c', vs = v :: rest ∧ readVi w c = .ok (v, c') ∧ varIntsAt w.mem c' k = some (rest, e) := by
  obtain ⟨v, n, rest, h1, h2, h3⟩ := varIntsAt_succ_iff.1 h
  have := varIntsAt_le h2
  exact ⟨v, rest, c + n, h3, readVi_eq_ok.2 ⟨n, h1, by omega, rfl⟩, h2⟩

/-- Pairs of VarInts that are there are read to their end. -/
theorem readPairs_ok {w : Window} {k c e : Nat} {flat : List U62} {pairs : List (U62 × U62)}
    (h : varIntsAt w.mem c (2 * k) = some (flat, e)) (hp : flat = pairs.flatMap fun p => [p.1, p.2])
    (he : e ≤ w.lim) : readPairs w k c = .ok (pairs, e) := by
  induction k generalizing c flat pairs with
  | zero =>
    rw [Nat.mul_zero, varIntsAt_zero] at h
    cases h
    cases pairs with
    | nil => rfl
    | cons p rest => simp at hp
  | succ k ih =>
    rw [show 2 * (k + 1) = (2 * k + 1) + 1 by omega] at h
    obtain ⟨x, n, rest, h1, h2, h3⟩ := varIntsAt_succ_iff.1 h
    obtain ⟨y, n', rest', h4, h5, h6⟩ := varIntsAt_succ_iff.1 h2
    subst h6 h3
    cases pairs with
    | nil => simp at hp
    | cons p ps =>
      simp only [List.flatMap_cons, List.cons_append, List.nil_append, List.cons.injEq] at hp
      obtain ⟨rfl, rfl, hp⟩ := hp
      have := varIntsAt_le h5
      have r1 := (readVi_eq_ok (w := w)).2 ⟨n, h1, by omega, rfl⟩
      have r2 := (readVi_eq_ok (w := w)).2 ⟨n', h4, by omega, rfl⟩
      simp only [readPairs, r1, r2, ok_bind, ih h5 hp]

/-- A VarInt in written input is read, or the limit cuts it: TRUNCATED at the limit. -/
theorem readVi_or_cut {w : Window} {c : Nat} (hc : c ≤ w.lim) (hw : writtenFrom w.mem c w.lim) :
    readVi w c = raise .truncated w.lim ∨
      ∃ v n, readVi w c = .ok (v, c + n) ∧ varIntAt w.mem c = some (v, n) ∧ c + n ≤ w.lim ∧
        writtenFrom w.mem (c + n) w.lim := by
  by_cases h : ∃ v n, varIntAt w.mem c = some (v, n) ∧ c + n ≤ w.lim
  · obtain ⟨v, n, h1, h2⟩ := h
    exact .inr ⟨v, n, readVi_eq_ok.2 ⟨n, h1, h2, rfl⟩, h1, h2, fun a h3 h4 => hw a (by omega) h4⟩
  · exact .inl (readVi_cut hc hw fun v n hv => Nat.lt_of_not_le fun hle => h ⟨v, n, hv, hle⟩)

/-- Pairs of VarInts in written input are read to their end, or the limit cuts them: TRUNCATED at the limit. -/
theorem readPairs_cut {w : Window} {k c : Nat} (hc : c ≤ w.lim) (hw : writtenFrom w.mem c w.lim) :
    readPairs w k c = raise .truncated w.lim ∨
      ∃ pairs flat r, readPairs w k c = .ok (pairs, r) ∧ varIntsAt w.mem c (2 * k) = some (flat, r) ∧ c ≤ r ∧
        r ≤ w.lim := by
  induction k generalizing c with
  | zero => exact .inr ⟨[], [], c, rfl, rfl, Nat.le_refl _, hc⟩
  | succ k ih =>
    rcases readVi_or_cut hc hw with h | ⟨x, n, r1, hx, hn, w1⟩
    · exact .inl (by rw [readPairs, h, raise_bind])
    rcases readVi_or_cut hn w1 with h | ⟨y, n', r2, hy, hn', w2⟩
    · exact .inl (by simp only [readPairs, r1, ok_bind, h, raise_bind])
    rcases ih hn' w2 with h | ⟨pairs, flat, r, h1, h2, h3, h4⟩
    · exact .inl (by simp only [readPairs, r1, r2, h, ok_bind, raise_bind])
    · exact .inr ⟨(x, y) :: pairs, x :: y :: flat, r, by simp only [readPairs, r1, r2, h1, ok_bind],
        varIntsAt_succ_iff.2 ⟨x, n, y :: flat, hx, varIntsAt_succ_iff.2 ⟨y, n', flat, hy, h2, rfl⟩, rfl⟩,
        by omega, h4⟩

/-! ## FRM's framework -/

/-- An admitted tag whose extractor answers. -/
theorem frmClass_ok {s : State} {k : FrameKind} {tag : Byte} {x : Window → Nat → Except Stop (Extracted × Nat)}
    {y : Extracted} {e : Nat} (hw : frameWindow s = true) (hlt : s.fcur.toNat < s.fend.toNat)
    (ha : admitted s.params.datagramEnabled tag = true)
    (hx : x ⟨s.mem, s.fend.toNat⟩ (s.fcur.toNat + 1) = .ok (y, e)) :
    frmClass k tag x s = .next { commitFrame k tag s.fcur.toNat y e s with status := statusWord .ok opFrm } := by
  simp only [frmClass, beginFrame_ok hw]
  rw [if_neg (by omega), if_pos ha, hx, ok_bind, runCommand_ok]

/-- An admitted tag whose extractor raises. -/
theorem frmClass_raise {s : State} {k : FrameKind} {tag : Byte} {x : Window → Nat → Except Stop (Extracted × Nat)}
    {err : Err} {o : Nat} (hw : frameWindow s = true) (hlt : s.fcur.toNat < s.fend.toNat)
    (ha : admitted s.params.datagramEnabled tag = true)
    (hx : x ⟨s.mem, s.fend.toNat⟩ (s.fcur.toNat + 1) = raise err o) :
    frmClass k tag x s = .next (failed s (statusWord (errCode err) opFrm) (clearsOf opFrm) o) := by
  simp only [frmClass, beginFrame_ok hw]
  rw [if_neg (by omega), if_pos ha, hx, raise_bind, runCommand_raise, abort_eq_failed]

/-- What FRM writes, in the terms statements use. -/
theorem commitFrame_eq (k : FrameKind) (tag : Byte) (x : Extracted) (e : Nat) (s : State) :
    { commitFrame k tag s.fcur.toNat x e s with status := statusWord .ok opFrm } =
      afterFrame s (w64 (frameKindNumber k)) (zext8 tag) x.fields x.frame x.slices e := by
  simp only [commitFrame, emit, report, frameRegs, afterFrame, fresh, w64_toNat, setValid_set]
  rfl

/-- FRM at a byte that is there. -/
theorem execFrm_tag {s : State} {tag : Byte} (hw : frameWindow s = true) (hlt : s.fcur.toNat < s.fend.toNat)
    (hb : s.mem.read s.fcur.toNat = some tag) :
    execFrm s = match frameKind s.params.datagramEnabled tag with
      | none => runCommand opFrm s (raise .malformedTag s.fcur.toNat)
      | some k => execFrameKind k tag s := by
  have r := (peekByte_eq_ok (w := ⟨s.mem, s.fend.toNat⟩)).2 ⟨hlt, hb⟩
  simp only [execFrm, beginFrame_ok hw]
  rw [if_neg (by omega)]
  simp only [r] <;> rfl

theorem flagWord_eq (b : Bool) : flagWord b = if b then 1 else 0 := rfl

end Sys2Proof.Machine
end

