-- ==== Sys2Proof/Laws/PerInstr.lean ====
section
/-! SUPPORT. The opcode table, row by row: every word the encoder gives for an instruction has the fixed bits of its
row in opcode_table.json. -/

namespace Sys2Proof.Laws.TableRow

/-- The mask and the match of an instruction's row in opcode_table.json. -/
def row : Instr → Byte × Byte
  | .nop => (0xFF, 0x00)
  | .vdec => (0xFF, 0x01)
  | .venc => (0xFF, 0x02)
  | .vsize => (0xFF, 0x03)
  | .peek => (0xFF, 0x10)
  | .hdrl => (0xFF, 0x11)
  | .hdrs => (0xFF, 0x12)
  | .pndec => (0xFF, 0x13)
  | .pkt => (0xFF, 0x20)
  | .frm => (0xFF, 0x30)
  | .pktVersionNegotiation _ => (0x80, 0x80)
  | .pktInitial _ _ _ => (0xB0, 0x80)
  | .pktZeroRtt _ _ _ => (0xB0, 0x90)
  | .pktHandshake _ _ _ => (0xB0, 0xA0)
  | .pktRetry _ _ => (0xB0, 0xB0)
  | .pktShort _ _ _ _ _ => (0x80, 0x00)
  | .varint1B _ => (0xC0, 0x00)
  | .varint2B _ => (0xC0, 0x40)
  | .varint4B _ => (0xC0, 0x80)
  | .varint8B _ => (0xC0, 0xC0)
  | .framePadding => (0xFF, 0x00)
  | .framePing => (0xFF, 0x01)
  | .frameAck _ => (0xFE, 0x02)
  | .frameResetStream => (0xFF, 0x04)
  | .frameStopSending => (0xFF, 0x05)
  | .frameCrypto => (0xFF, 0x06)
  | .frameNewToken => (0xFF, 0x07)
  | .frameStream _ _ _ => (0xF8, 0x08)
  | .frameMaxData => (0xFF, 0x10)
  | .frameMaxStreamData => (0xFF, 0x11)
  | .frameMaxStreams _ => (0xFE, 0x12)
  | .frameDataBlocked => (0xFF, 0x14)
  | .frameStreamDataBlocked => (0xFF, 0x15)
  | .frameStreamsBlocked _ => (0xFE, 0x16)
  | .frameNewConnectionId => (0xFF, 0x18)
  | .frameRetireConnectionId => (0xFF, 0x19)
  | .framePathChallenge => (0xFF, 0x1A)
  | .framePathResponse => (0xFF, 0x1B)
  | .frameConnectionClose _ => (0xFE, 0x1C)
  | .frameHandshakeDone => (0xFF, 0x1E)
  | .frameDatagram _ => (0xFE, 0x30)

/-- The instruction's word has its row's fixed bits. -/
def Statement (i : Instr) : Prop := encode i &&& (row i).1 = (row i).2

theorem nop : Statement .nop := rfl
theorem vdec : Statement .vdec := rfl
theorem venc : Statement .venc := rfl
theorem vsize : Statement .vsize := rfl
theorem peek : Statement .peek := rfl
theorem hdrl : Statement .hdrl := rfl
theorem hdrs : Statement .hdrs := rfl
theorem pndec : Statement .pndec := rfl
theorem pkt : Statement .pkt := rfl
theorem frm : Statement .frm := rfl
theorem pktVersionNegotiation (low : BitVec 7) : Statement (.pktVersionNegotiation low) := by
  revert low; unfold Statement; decide
theorem pktInitial (fixed : Bool) (reserved : BitVec 2) (pnl : BitVec 2) : Statement (.pktInitial fixed reserved pnl) := by
  revert fixed reserved pnl; unfold Statement; decide
theorem pktZeroRtt (fixed : Bool) (reserved : BitVec 2) (pnl : BitVec 2) : Statement (.pktZeroRtt fixed reserved pnl) := by
  revert fixed reserved pnl; unfold Statement; decide
theorem pktHandshake (fixed : Bool) (reserved : BitVec 2) (pnl : BitVec 2) : Statement (.pktHandshake fixed reserved pnl) := by
  revert fixed reserved pnl; unfold Statement; decide
theorem pktRetry (fixed : Bool) (unused : BitVec 4) : Statement (.pktRetry fixed unused) := by
  revert fixed unused; unfold Statement; decide
theorem pktShort (fixed : Bool) (spin : Bool) (reserved : BitVec 2) (keyPhase : Bool) (pnl : BitVec 2) : Statement (.pktShort fixed spin reserved keyPhase pnl) := by
  revert fixed spin reserved keyPhase pnl; unfold Statement; decide
theorem varint1B (high : BitVec 6) : Statement (.varint1B high) := by
  revert high; unfold Statement; decide
theorem varint2B (high : BitVec 6) : Statement (.varint2B high) := by
  revert high; unfold Statement; decide
theorem varint4B (high : BitVec 6) : Statement (.varint4B high) := by
  revert high; unfold Statement; decide
theorem varint8B (high : BitVec 6) : Statement (.varint8B high) := by
  revert high; unfold Statement; decide
theorem framePadding : Statement .framePadding := rfl
theorem framePing : Statement .framePing := rfl
theorem frameAck (ecn : Bool) : Statement (.frameAck ecn) := by
  revert ecn; unfold Statement; decide
theorem frameResetStream : Statement .frameResetStream := rfl
theorem frameStopSending : Statement .frameStopSending := rfl
theorem frameCrypto : Statement .frameCrypto := rfl
theorem frameNewToken : Statement .frameNewToken := rfl
theorem frameStream (off : Bool) (len : Bool) (fin : Bool) : Statement (.frameStream off len fin) := by
  revert off len fin; unfold Statement; decide
theorem frameMaxData : Statement .frameMaxData := rfl
theorem frameMaxStreamData : Statement .frameMaxStreamData := rfl
theorem frameMaxStreams (uni : Bool) : Statement (.frameMaxStreams uni) := by
  revert uni; unfold Statement; decide
theorem frameDataBlocked : Statement .frameDataBlocked := rfl
theorem frameStreamDataBlocked : Statement .frameStreamDataBlocked := rfl
theorem frameStreamsBlocked (uni : Bool) : Statement (.frameStreamsBlocked uni) := by
  revert uni; unfold Statement; decide
theorem frameNewConnectionId : Statement .frameNewConnectionId := rfl
theorem frameRetireConnectionId : Statement .frameRetireConnectionId := rfl
theorem framePathChallenge : Statement .framePathChallenge := rfl
theorem framePathResponse : Statement .framePathResponse := rfl
theorem frameConnectionClose (app : Bool) : Statement (.frameConnectionClose app) := by
  revert app; unfold Statement; decide
theorem frameHandshakeDone : Statement .frameHandshakeDone := rfl
theorem frameDatagram (len : Bool) : Statement (.frameDatagram len) := by
  revert len; unfold Statement; decide

end Sys2Proof.Laws.TableRow
end

