-- ==== Sys2Proof/Laws/Step.lean ====
section
/-! SUPPORT. What a step can do, said once: the engine runs a command, or the host makes one of its moves. -/

namespace Sys2Proof.Machine

/-- What a move of the host leaves. -/
inductive Moved (s : State) : HostMove → State → Prop where
  | load (a : Nat) (bytes : List Byte) (h : a + bytes.length ≤ s.params.maxInLen) :
      Moved s (.load a bytes)
        { s with mem := s.mem.writeAll a bytes, descs := markStale a bytes.length s.descs }
  | write (r : BitVec 6) (v : Word) : Moved s (.write r v) (writeReg r v s)
  | read (r : BitVec 6) : Moved s (.read r) (see (.reg r (readValue r s)) s)
  | pop (e : Event) (rest : List Event) (h : s.evq = e :: rest) :
      Moved s .pop (see (.record e) { s with evq := rest })
  | deref (k : Nat) (d : Slice) (bytes : List Byte) : Moved s (.deref k) (see (.bytes d bytes) s)
  | reset : Moved s .reset (resetBlock s)

theorem hostPop_moved {s t : State} (h : hostPop s = .next t) : Moved s .pop t := by
  unfold hostPop at h
  split at h
  · simp at h
  · cases h; exact .pop _ _ ‹_›

theorem hostMove_moved {m : HostMove} {s t : State} (h : hostMove m s = .next t) : Moved s m t := by
  cases m with
  | load a bytes =>
    simp only [hostMove, hostLoad] at h
    split at h
    · cases h; exact .load _ _ ‹_›
    · simp at h
  | write r v => cases h; exact .write _ _
  | read r =>
    simp only [hostMove, hostRead] at h
    split at h
    · cases h; exact .read _
    · simp at h
  | pop => exact hostPop_moved h
  | deref k =>
    simp only [hostMove, hostDeref] at h
    split at h
    · simp at h
    · split at h
      · simp at h
      · split at h
        · cases h; exact .deref _ _ _
        · simp at h
  | reset => cases h; exact .reset

theorem hostMoveHeld_moved {m : HostMove} {s t : State} (h : hostMoveHeld m s = .next t) : Moved s m t := by
  cases m with
  | pop => exact hostPop_moved h
  | reset => cases h; exact .reset
  | load a bytes => simp [hostMoveHeld] at h
  | write r v => simp [hostMoveHeld] at h
  | read r => simp [hostMoveHeld] at h
  | deref k => simp [hostMoveHeld] at h

/-- What a step leaves. -/
inductive Stepped (s : State) : State → Prop where
  | idle (h : s.host = []) : Stepped s s
  | move (m : HostMove) (rest : List HostMove) (h : s.host = m :: rest) (t : State)
      (ht : Moved { s with host := rest } m t) : Stepped s t
  | command (op : Byte) (i : Instr) (hp : s.pending = some op) (hh : holds op s = false)
      (hi : decodeCommand op = .ok i) (t : State) (ht : exec i { s with pending := none } = .next t) : Stepped s t
  | bad (op : Byte) (hp : s.pending = some op) (hh : holds op s = false) :
      Stepped s (badCommand op { s with pending := none })

theorem hostTurn_stepped {move : HostMove → State → Result} {s t : State}
    (hm : ∀ m u, move m u = .next t → Moved u m t) (h : hostTurn move s = .next t) : Stepped s t := by
  unfold hostTurn at h
  split at h
  · cases h; exact .idle ‹_›
  · exact .move _ _ ‹_› _ (hm _ _ h)

/-- What a step can do. -/
theorem step_stepped {s t : State} (h : step s = .next t) : Stepped s t := by
  unfold step at h
  split at h
  · exact hostTurn_stepped (fun _ _ => hostMove_moved) h
  · split at h
    · exact hostTurn_stepped (fun _ _ => hostMoveHeld_moved) h
    · rename_i op hp hh
      unfold runOpcode at h
      split at h
      · exact .command op _ hp (by simpa using hh) ‹_› _ h
      · cases h; exact .bad op hp (by simpa using hh)

/-- A decoded command is the one that runs under its opcode. -/
theorem opcodeFor_of_decode {op : Byte} {i : Instr} (h : decodeCommand op = .ok i) : opcodeFor i = op := by
  unfold decodeCommand at h
  repeat' split at h
  all_goals first | (cases h; subst_vars; rfl) | simp at h

/-- `ERR_AT` has meaning exactly while the code is 1, 2 or 3 (60_exceptions.md R261). -/
theorem errAtMeaningful_eq (w : Word) : errAtMeaningful w = decide (w.toNat % 16 ∈ [1, 2, 3]) := by
  have h : (BitVec.extractLsb' 0 4 w).toNat = w.toNat % 16 := by simp
  rw [Bool.eq_iff_iff]
  simp [errAtMeaningful, statusCode, ← BitVec.toNat_inj, h, or_assoc]

/-- A read of a register with meaning gives what it holds (20_memory.md R66). -/
theorem readValue_eq {r : BitVec 6} {s : State} (h : r ≠ 0x0D ∨ s.status.toNat % 16 ∈ [1, 2, 3]) :
    readValue r s = regValue r s := by
  unfold readValue
  rw [if_neg]
  rintro ⟨h1, h2⟩
  rw [errAtMeaningful_eq, decide_eq_false_iff_not] at h2
  exact h.elim (fun h => h (BitVec.eq_of_toNat_eq (by simpa using h1))) h2

/-- A read of an `ERR_AT` without meaning gives the free value (93_implementation_defined.md U5). -/
theorem readValue_errAt {s : State} (h : s.status.toNat % 16 ∉ [1, 2, 3]) :
    readValue 0x0D s = Config.freeErrAt s.freeCount s.errAt := by
  unfold readValue
  rw [if_pos ⟨rfl, by rw [errAtMeaningful_eq]; exact decide_eq_false h⟩]

/-- A descriptor overlaps a write exactly if some byte is in both (70_reset_and_hazards.md R293). -/
theorem overlaps_iff {d : Slice} {a n : Nat} :
    overlaps d a n = true ↔ ∃ x, d.off ≤ x ∧ x < d.off + d.len ∧ a ≤ x ∧ x < a + n := by
  simp only [overlaps, decide_eq_true_eq]
  exact ⟨fun h => ⟨max d.off a, by omega, by omega, by omega, by omega⟩, fun ⟨x, _⟩ => by omega⟩

/-- The descriptor `k` after a write of IN: its slice, and stale if it was or if the write meets it. -/
theorem markStale_getElem? (a n k : Nat) (ds : List Descriptor) :
    (markStale a n ds)[k]? = ds[k]?.map fun d => ⟨d.slice, d.stale || overlaps d.slice a n⟩ := by
  simp only [markStale, List.getElem?_map]
  congr 1
  funext d
  by_cases h : overlaps d.slice a n = true <;> simp [h]

/-- What each host-writable register's write leaves in each field. -/
theorem writeReg_eq (r : BitVec 6) (v : Word) (s : State) :
    writeReg r v s = { s with
      cmd := if r = 0x00 then v else s.cmd
      pending := if r = 0x00 then some (opcodeOf v) else s.pending
      ctrl := if r = 0x02 then v &&& ctrlMask else s.ctrl
      cur := if r = 0x03 then v else s.cur
      limit := if r = 0x04 then v else s.limit
      fcur := if r = 0x05 then v else s.fcur
      fend := if r = 0x06 then v else s.fend
      arg := if r = 0x07 then v else s.arg
      freeCount := if r = 0x00 then s.freeCount + 1 else s.freeCount } := by
  obtain ⟨⟨n, hn⟩⟩ := r
  interval_cases n <;> rfl

end Sys2Proof.Machine
end

