-- ==== Sys2Proof/Tests/Slice0.lean ====
section
/-! SUPPORT. Tests: a decoded byte for every constructor, vectors of 95_test_vectors.md for every instruction, the
placing of table words, and a witness that the hypotheses of every statement can be met. -/

namespace Sys2Proof.Tests

open Sys2Proof.Machine

/-! ## Helpers -/

/-- Reset, with bytes in `IN` from offset 0 and both windows over them. -/
def input (bytes : List Byte) : State :=
  { State.reset with
    mem := Memory.writeAll [] 0 bytes
    limit := w64 bytes.length
    fend := w64 bytes.length }

/-- The same with a value in `CTRL`. -/
def inputCtrl (ctrl : Word) (bytes : List Byte) : State := { input bytes with ctrl := ctrl }

/-- Reset, with a value in `ARG`. -/
def argument (v : Word) : State := { State.reset with arg := v }

/-- Something of the next state, if there is one. -/
def see {α : Type} (r : Result) (f : State → α) : Option α :=
  match r with
  | .next t => some (f t)
  | _ => none

/-- `STATUS` and `ERR_AT`. -/
def failure (t : State) : Word × Word := (t.status, t.errAt)

/-- `VI_VALUE`, `VI_LEN`, `CUR`. -/
def varInt (t : State) : Word × Word × Word := (t.vi.value, t.vi.len, t.cur)

/-- `PKT_KIND`, `TOKEN_OFF`, `TOKEN_LEN`, `PKT_LENGTH`, `PN`, `PAY_OFF`, `PAY_END`, `VALID`. -/
def packet (t : State) : List Word :=
  [t.pkt.kind, t.pkt.tokenOff, t.pkt.tokenLen, t.pkt.length, t.pn.pn, t.pkt.payOff, t.pkt.payEnd, t.valid]

/-- `FR_KIND`, `FR_TAG`, `FR_END` and the first seven F registers. -/
def frame (t : State) : List Word :=
  let f := t.frm.fields
  [t.frm.kind, t.frm.tag, t.frm.fin, f.f0, f.f1, f.f2, f.f3, f.f4, f.f5, f.f6]

/-! ## WellFormed -/

/-- 43_frame_dispatch.md R191: without `DATAGRAM_ENABLED` a DATAGRAM is no frame. -/
theorem test_wf_refuses_datagram :
    (Instr.frameDatagram true).wf { Params.default with datagramEnabled := false } = false := by decide

theorem test_wf_accepts_datagram : (Instr.frameDatagram true).wf Params.default = true := by decide

theorem test_wf_accepts_stream :
    (Instr.frameStream true true true).wf { Params.default with datagramEnabled := false } = true := by decide

/-! ## Decoding: one byte for every constructor, from the tables of 30_encoding.md -/

/-- R80: opcodes. -/
theorem test_decode_nop : decode .command 0x00 = .ok .nop := by decide

theorem test_decode_vdec : decode .command 0x01 = .ok .vdec := by decide

theorem test_decode_venc : decode .command 0x02 = .ok .venc := by decide

theorem test_decode_vsize : decode .command 0x03 = .ok .vsize := by decide

theorem test_decode_peek : decode .command 0x10 = .ok .peek := by decide

theorem test_decode_hdrl : decode .command 0x11 = .ok .hdrl := by decide

theorem test_decode_hdrs : decode .command 0x12 = .ok .hdrs := by decide

theorem test_decode_pndec : decode .command 0x13 = .ok .pndec := by decide

theorem test_decode_pkt : decode .command 0x20 = .ok .pkt := by decide

theorem test_decode_frm : decode .command 0x30 = .ok .frm := by decide

/-- R82: an unassigned opcode. -/
theorem test_decode_unassigned : decode .command 0x7F = .error (.unassignedOpcode 0x7F) := by decide

/-- R83: form 1, and version 0; the low bits as they stand. -/
theorem test_decode_version_negotiation : decode (.packet true) 0b11100101 = .ok (.pktVersionNegotiation 0b1100101) := by decide

/-- R83: form 1, fixed 1, type 00, reserved 10, PNL 01. -/
theorem test_decode_initial : decode (.packet false) 0b11001001 = .ok (.pktInitial true 0b10 0b01) := by decide

/-- R83: form 1, fixed 0, type 01, reserved 01, PNL 11. -/
theorem test_decode_zero_rtt : decode (.packet false) 0b10010111 = .ok (.pktZeroRtt false 0b01 0b11) := by decide

/-- R83: form 1, fixed 1, type 10, reserved 00, PNL 10. -/
theorem test_decode_handshake : decode (.packet false) 0b11100010 = .ok (.pktHandshake true 0b00 0b10) := by decide

/-- R83: form 1, fixed 1, type 11, unused 0101. -/
theorem test_decode_retry : decode (.packet false) 0b11110101 = .ok (.pktRetry true 0b0101) := by decide

/-- R84: form 0, fixed 1, spin 1, reserved 00, key phase 1, PNL 01. -/
theorem test_decode_short : decode (.packet false) 0b01100101 = .ok (.pktShort true true 0b00 true 0b01) := by decide

/-- R88: class 00 and six value bits. -/
theorem test_decode_varint_1 : decode .varint 0b00100101 = .ok (.varint1B 0b100101) := by decide

theorem test_decode_varint_2 : decode .varint 0b01111011 = .ok (.varint2B 0b111011) := by decide

theorem test_decode_varint_4 : decode .varint 0b10011101 = .ok (.varint4B 0b011101) := by decide

theorem test_decode_varint_8 : decode .varint 0b11000010 = .ok (.varint8B 0b000010) := by decide

/-- R89: frame tags. -/
theorem test_decode_padding : decode (.frame true) 0x00 = .ok .framePadding := by decide

theorem test_decode_ping : decode (.frame true) 0x01 = .ok .framePing := by decide

theorem test_decode_ack : decode (.frame true) 0x03 = .ok (.frameAck true) := by decide

theorem test_decode_reset_stream : decode (.frame true) 0x04 = .ok .frameResetStream := by decide

theorem test_decode_stop_sending : decode (.frame true) 0x05 = .ok .frameStopSending := by decide

theorem test_decode_crypto : decode (.frame true) 0x06 = .ok .frameCrypto := by decide

theorem test_decode_new_token : decode (.frame true) 0x07 = .ok .frameNewToken := by decide

theorem test_decode_stream : decode (.frame true) 0x0E = .ok (.frameStream true true false) := by decide

theorem test_decode_max_data : decode (.frame true) 0x10 = .ok .frameMaxData := by decide

theorem test_decode_max_stream_data : decode (.frame true) 0x11 = .ok .frameMaxStreamData := by decide

theorem test_decode_max_streams : decode (.frame true) 0x13 = .ok (.frameMaxStreams true) := by decide

theorem test_decode_data_blocked : decode (.frame true) 0x14 = .ok .frameDataBlocked := by decide

theorem test_decode_stream_data_blocked : decode (.frame true) 0x15 = .ok .frameStreamDataBlocked := by decide

theorem test_decode_streams_blocked : decode (.frame true) 0x16 = .ok (.frameStreamsBlocked false) := by decide

theorem test_decode_new_connection_id : decode (.frame true) 0x18 = .ok .frameNewConnectionId := by decide

theorem test_decode_retire_connection_id : decode (.frame true) 0x19 = .ok .frameRetireConnectionId := by decide

theorem test_decode_path_challenge : decode (.frame true) 0x1A = .ok .framePathChallenge := by decide

theorem test_decode_path_response : decode (.frame true) 0x1B = .ok .framePathResponse := by decide

theorem test_decode_connection_close : decode (.frame true) 0x1D = .ok (.frameConnectionClose true) := by decide

theorem test_decode_handshake_done : decode (.frame true) 0x1E = .ok .frameHandshakeDone := by decide

theorem test_decode_datagram : decode (.frame true) 0x31 = .ok (.frameDatagram true) := by decide

/-- R191: tags that are no frame. -/
theorem test_decode_unknown_tag :
    decode (.frame true) 0x1F = .error (.unknownTag 0x1F) ∧ decode (.frame false) 0x30 = .error (.unknownTag 0x30) := by
  decide

/-! ## Vectors of 95_test_vectors.md, one step each -/

/-- H1. -/
theorem test_nop :
    see (exec .nop State.reset) (fun t => (t.status, t.valid)) = some (0x0000, 0) := by decide

/-- V16. -/
theorem test_vdec_not_minimal :
    see (exec .vdec (input [0x40, 0x25])) varInt = some (37, 2, 2) := by decide

/-- V26. -/
theorem test_vdec_cut :
    see (exec .vdec (input [0x9D, 0x7F, 0x3E])) failure = some (0x0101, 3) := by decide

/-- V5. -/
theorem test_venc :
    see (exec .venc (argument 15293)) (fun t => (t.vi.len, t.vi.bytes, t.valid)) = some (2, 0x7BBD, 0x07) := by decide

/-- V13. -/
theorem test_venc_out_of_range :
    see (exec .venc (argument 0x4000000000000000)) failure = some (0x0202, 0) := by decide

/-- V7. -/
theorem test_vsize :
    see (exec .vsize (argument 16384)) (fun t => (t.vi.len, t.valid)) = some (4, 0x03) := by decide

/-- H3. -/
theorem test_peek :
    see (exec .peek (input [0xC1])) (fun t => (t.formPeek, t.valid, t.cur)) = some (1, 0x08, 0) := by decide

/-- H5. -/
theorem test_peek_ignores_fixed :
    see (exec .peek (input [0x7F])) (fun t => t.formPeek) = some 0 := by decide

/-- H7. -/
theorem test_hdrl :
    see (exec .hdrl (input [0xC1, 0x00, 0x00, 0x00, 0x01, 0x08, 0x83, 0x94, 0xC8, 0xF0, 0x3E, 0x51, 0x57, 0x08, 0x00])) (fun t => (t.hdr.version, t.hdr.dcidOff, t.hdr.dcidLen, t.hdr.scidOff, t.hdr.aPnLen, t.cur)) = some (1, 6, 8, 15, 0x102, 15) := by decide

/-- H13. -/
theorem test_hdrl_fixed_bit :
    see (exec .hdrl (inputCtrl 1 [0x81, 0x00, 0x00, 0x00, 0x01, 0x00, 0x00])) failure = some (0x1103, 0) := by decide

/-- H16. -/
theorem test_hdrs :
    see (exec .hdrs (inputCtrl 0x0400 [0x41, 0x11, 0x22, 0x33, 0x44, 0x00, 0x05])) (fun t => (t.hdr.dcidOff, t.hdr.dcidLen, t.hdr.aPktType, t.hdr.aSpin, t.hdr.aPnLen, t.cur)) = some (1, 4, 0x000, 0x100, 0x102, 5) := by decide

/-- H21. -/
theorem test_hdrs_cut :
    see (exec .hdrs (inputCtrl 0x0400 [0x41, 0x11, 0x22])) failure = some (0x1201, 1) := by decide

/-- H22. -/
theorem test_pndec :
    see (exec .pndec { input [0x01, 0x02, 0x03] with arg := 3 }) (fun t => (t.pn.pn, t.pn.nbytes, t.cur, t.valid)) = some (0x010203, 3, 3, 0x20) := by decide

/-- H26. -/
theorem test_pndec_width :
    see (exec .pndec { input [0x01, 0x02] with arg := 5 }) failure = some (0x1302, 0) := by decide

/-- K19, cut after one byte of payload. -/
theorem test_pkt_short :
    see (exec .pkt (inputCtrl 0x0400 [0x41, 0x11, 0x22, 0x33, 0x44, 0x00, 0x05, 0x0F])) packet = some [5, 0, 0, 0, 5, 7, 8, 0x70] := by decide

/-- K9. -/
theorem test_pkt_length_below_width :
    see (exec .pkt (input [0xD3, 0x00, 0x00, 0x00, 0x01, 0x01, 0xAA, 0x00, 0x03, 0x01, 0x02, 0x03, 0x04, 0xFF, 0xEE])) failure = some (0x2002, 8) := by decide

/-- D1. -/
theorem test_frm_end :
    see (exec .frm (input [])) (fun t => (t.status, t.errAt)) = some (0x3004, 0) := by decide

/-- D5. -/
theorem test_frm_unknown_tag :
    see (exec .frm (input [0x40, 0x01])) failure = some (0x3003, 0) := by decide

/-- K14. -/
theorem test_version_negotiation :
    see (exec (.pktVersionNegotiation 0) (input [0x80, 0x00, 0x00, 0x00, 0x00, 0x04, 0xAA, 0xBB, 0xCC, 0xDD, 0x04, 0x11, 0x22, 0x33, 0x44, 0x00, 0x00, 0x00, 0x01, 0xFF, 0x00, 0x00, 0x1D])) (fun t => (t.pkt.vnOff, t.pkt.vnCount, t.hdr.aIsVn, t.pkt.payOff, t.pkt.payEnd)) = some (15, 2, 0x101, 23, 23) := by decide

/-- K16. -/
theorem test_version_negotiation_cut :
    see (exec (.pktVersionNegotiation 0) (input [0x80, 0x00, 0x00, 0x00, 0x00, 0x00, 0x00, 0x00, 0x00, 0x00, 0x01, 0xFF, 0x00])) failure = some (0x2001, 11) := by decide

/-- K2. -/
theorem test_initial :
    see (exec (.pktInitial true 0 3) (input [0xC3, 0x00, 0x00, 0x00, 0x01, 0x00, 0x00, 0x02, 0xAA, 0xBB, 0x05, 0x00, 0x00, 0x00, 0x07, 0x01])) packet = some [1, 8, 2, 5, 7, 15, 16, 0x70] := by decide

/-- K3. -/
theorem test_initial_token_cut :
    see (exec (.pktInitial true 0 0) (input [0xC0, 0x00, 0x00, 0x00, 0x01, 0x00, 0x00, 0x05, 0xAA, 0xBB])) failure = some (0x2001, 8) := by decide

/-- K8. -/
theorem test_zero_rtt :
    see (exec (.pktZeroRtt true 0 3) (input [0xD3, 0x00, 0x00, 0x00, 0x01, 0x01, 0xAA, 0x00, 0x06, 0x01, 0x02, 0x03, 0x04, 0xFF, 0xEE])) packet = some [2, 0, 0, 6, 0x01020304, 13, 15, 0x70] := by decide

/-- K10. -/
theorem test_handshake :
    see (exec (.pktHandshake true 0 0) (input [0xE0, 0x00, 0x00, 0x00, 0x01, 0x00, 0x00, 0x02, 0x07, 0x01])) packet = some [3, 0, 0, 2, 7, 9, 10, 0x70] := by decide

/-- K12. -/
theorem test_retry :
    see (exec (.pktRetry true 0) (input [0xF0, 0x00, 0x00, 0x00, 0x01, 0x00, 0x04, 0x01, 0x02, 0x03, 0x04, 0x74, 0x6F, 0x6B])) packet = some [4, 11, 3, 0, 0, 14, 14, 0x50] := by decide

/-- K21. -/
theorem test_short_pn_cut :
    see (exec (.pktShort true false 0 false 3) (inputCtrl 0x0100 [0x43, 0xAA, 0x01, 0x02])) failure = some (0x2001, 2) := by decide

/-- V23. -/
theorem test_varint_1 :
    see (exec (.varint1B 0x25) (input [0x25, 0xFF])) varInt = some (37, 1, 1) := by decide

/-- V21. -/
theorem test_varint_2 :
    see (exec (.varint2B 0x3B) (input [0x7B, 0xBD])) varInt = some (15293, 2, 2) := by decide

/-- V8. -/
theorem test_varint_4 :
    see (exec (.varint4B 0x1D) (input [0x9D, 0x7F, 0x3E, 0x7D])) varInt = some (494878333, 4, 4) := by decide

/-- V22. -/
theorem test_varint_8 :
    see (exec (.varint8B 0x3F) (input [0xFF, 0xFF, 0xFF, 0xFF, 0xFF, 0xFF, 0xFF, 0xFF])) varInt = some (0x3FFFFFFFFFFFFFFF, 8, 8) := by decide

/-- F1. -/
theorem test_padding :
    see (exec .framePadding (input [0x00])) frame = some [0, 0x00, 1, 0, 0, 0, 0, 0, 0, 0] := by decide

/-- F2. -/
theorem test_ping :
    see (exec .framePing (input [0x01])) frame = some [1, 0x01, 1, 0, 0, 0, 0, 0, 0, 0] := by decide

/-- F6. -/
theorem test_reset_stream :
    see (exec .frameResetStream (input [0x04, 0x04, 0x40, 0x64, 0x0A])) frame = some [3, 0x04, 5, 4, 100, 10, 0, 0, 0, 0] := by decide

/-- F7. -/
theorem test_stop_sending :
    see (exec .frameStopSending (input [0x05, 0x08, 0x01])) frame = some [4, 0x05, 3, 8, 1, 0, 0, 0, 0, 0] := by decide

/-- F13. -/
theorem test_stream_offset :
    see (exec (.frameStream true false true) (input [0x0D, 0x04, 0x0A])) frame = some [7, 0x0D, 3, 4, 1, 10, 0, 0, 3, 1] := by decide

/-- F10. -/
theorem test_stream_length :
    see (exec (.frameStream false true false) (input [0x0A, 0x04, 0x02, 0x61, 0x62, 0xFF])) frame = some [7, 0x0A, 5, 4, 0, 0, 1, 2, 3, 0] := by decide

/-- F16. -/
theorem test_crypto :
    see (exec .frameCrypto (input [0x06, 0x00, 0x04, 0xDE, 0xAD, 0xBE, 0xEF])) frame = some [5, 0x06, 7, 0, 4, 3, 0, 0, 0, 0] := by decide

/-- F17. -/
theorem test_new_token :
    see (exec .frameNewToken (input [0x07, 0x03, 0xAA, 0xBB, 0xCC])) frame = some [6, 0x07, 5, 3, 2, 0, 0, 0, 0, 0] := by decide

/-- F19. -/
theorem test_max_data :
    see (exec .frameMaxData (input [0x10, 0x44, 0x00])) frame = some [8, 0x10, 3, 1024, 0, 0, 0, 0, 0, 0] := by decide

/-- F20. -/
theorem test_max_stream_data :
    see (exec .frameMaxStreamData (input [0x11, 0x04, 0x80, 0x01, 0x00, 0x00])) frame = some [9, 0x11, 6, 4, 65536, 0, 0, 0, 0, 0] := by decide

/-- F22. -/
theorem test_max_streams :
    see (exec (.frameMaxStreams true) (input [0x13, 0x0A])) frame = some [10, 0x13, 2, 1, 10, 0, 0, 0, 0, 0] := by decide

/-- F23. -/
theorem test_data_blocked :
    see (exec .frameDataBlocked (input [0x14, 0x3F])) frame = some [11, 0x14, 2, 63, 0, 0, 0, 0, 0, 0] := by decide

/-- F24. -/
theorem test_stream_data_blocked :
    see (exec .frameStreamDataBlocked (input [0x15, 0x00, 0x40, 0x40])) frame = some [12, 0x15, 4, 0, 64, 0, 0, 0, 0, 0] := by decide

/-- F25. -/
theorem test_streams_blocked :
    see (exec (.frameStreamsBlocked false) (input [0x16, 0x01])) frame = some [13, 0x16, 2, 0, 1, 0, 0, 0, 0, 0] := by decide

/-- F27. -/
theorem test_new_connection_id :
    see (exec .frameNewConnectionId (input [0x18, 0x01, 0x00, 0x04, 0xA1, 0xA2, 0xA3, 0xA4, 0x00, 0x00, 0x00, 0x00, 0x00, 0x00, 0x00, 0x00, 0x00, 0x00, 0x00, 0x00, 0x00, 0x00, 0x00, 0x00])) frame = some [14, 0x18, 24, 1, 0, 4, 4, 8, 0, 0] := by decide

/-- F28. -/
theorem test_retire_connection_id :
    see (exec .frameRetireConnectionId (input [0x19, 0x01])) frame = some [15, 0x19, 2, 1, 0, 0, 0, 0, 0, 0] := by decide

/-- F29. -/
theorem test_path_challenge :
    see (exec .framePathChallenge (input [0x1A, 0x01, 0x02, 0x03, 0x04, 0x05, 0x06, 0x07, 0x08])) frame = some [16, 0x1A, 9, 0x0102030405060708, 1, 0, 0, 0, 0, 0] := by decide

/-- F30. -/
theorem test_connection_close :
    see (exec (.frameConnectionClose false) (input [0x1C, 0x0A, 0x06, 0x00])) frame = some [18, 0x1C, 4, 0, 10, 1, 6, 0, 0, 0] := by decide

/-- F31. -/
theorem test_connection_close_app :
    see (exec (.frameConnectionClose true) (input [0x1D, 0x0A, 0x03, 0x62, 0x61, 0x64])) frame = some [18, 0x1D, 6, 1, 10, 0, 0, 1, 3, 3] := by decide

/-- F32. -/
theorem test_handshake_done :
    see (exec .frameHandshakeDone (input [0x1E])) frame = some [19, 0x1E, 1, 0, 0, 0, 0, 0, 0, 0] := by decide

/-- F33. -/
theorem test_datagram :
    see (exec (.frameDatagram false) (input [0x30, 0x68, 0x69])) frame = some [20, 0x30, 3, 0, 2, 1, 0, 0, 0, 0] := by decide

/-- F34. -/
theorem test_datagram_length :
    see (exec (.frameDatagram true) (input [0x31, 0x02, 0x68, 0x69])) frame = some [20, 0x31, 4, 1, 2, 2, 0, 0, 0, 0] := by decide

/-- F3. -/
theorem test_ack :
    see (exec (.frameAck false) (input [0x02, 0x0A, 0x00, 0x01, 0x02, 0x03, 0x01])) (fun t => t.evq) = some [.frm 0 7 (.ack 10 0 2 [(3, 1)] none)] := by decide

/-- F4. -/
theorem test_ack_ecn :
    see (exec (.frameAck true) (input [0x03, 0x0A, 0x00, 0x00, 0x02, 0x01, 0x02, 0x03])) (fun t => (t.evq, t.frm.fields.f9)) = some ([.frm 0 8 (.ack 10 0 2 [] (some ⟨1, 2, 3⟩))], 3) := by decide

/-- F41. -/
theorem test_path_response_cut :
    see (exec .framePathResponse (input [0x1B, 0x01, 0x02, 0x03, 0x04, 0x05, 0x06, 0x07])) failure = some (0x3001, 1) := by decide

/-- R228, with the bytes of F29. -/
theorem test_path_response :
    see (exec .framePathResponse (input [0x1B, 0x01, 0x02, 0x03, 0x04, 0x05, 0x06, 0x07, 0x08])) (fun t => t.frm.fields.f0) = some 0x0102030405060708 := by decide

/-- F37. -/
theorem test_crypto_cut :
    see (exec .frameCrypto (input [0x06, 0x00, 0x05, 0xDE, 0xAD, 0xBE, 0xEF])) failure = some (0x3001, 3) := by decide

/-- F39. -/
theorem test_new_connection_id_long :
    see (exec .frameNewConnectionId (input [0x18, 0x01, 0x00, 0x15])) failure = some (0x3002, 3) := by decide

/-- An ACK that counts `2 ^ 62 - 1` pairs ends where the bytes do (44_frames.md R213, U22). -/
theorem test_ack_count_too_large :
    see (exec (.frameAck false) (input [0x02, 0x0A, 0x00, 0xFF, 0xFF, 0xFF, 0xFF, 0xFF, 0xFF, 0xFF, 0xFF, 0x02, 0x03]))
      failure = some (0x3001, 13) := by decide

/-- A byte that was not written has no value (10_state.md R41). -/
theorem test_unwritten_input :
    exec .vdec { input [0x40] with limit := 2 } = .fault (.unwrittenInput 1) := by rfl

/-- R290: a reset during a hold abandons the command. -/
theorem test_reset_abandons_hold :
    see (step { State.reset with
      params := { Params.default with evqDepth := some 1 }
      evq := [.frm 0 1 .ping], pending := some 0x30, host := [.reset] }) (fun t => (t.pending, t.evq, t.status)) =
      some (none, [], 0xF) := by decide

/-- R42, R44: a pop lifts the hold; the held command then runs. -/
theorem test_pop_lifts_hold :
    see (step { State.reset with
      params := { Params.default with evqDepth := some 1 }
      evq := [.frm 0 1 .ping], pending := some 0x30, host := [.pop] }) (fun t => (t.pending, t.evq, holds 0x30 t)) =
      some (some 0x30, [], false) := by decide

/-- R24: a write of `CTRL` stores bits 0 and 12:8 only. -/
theorem test_write_ctrl :
    see (step { State.reset with host := [.write 0x02 0xFFFFFFFFFFFFFFFF] }) (fun t => t.ctrl) = some 0x1F01 := by
  decide

/-- U5: `ERR_AT` without a failure reads as the free value, and the read completes. -/
theorem test_free_err_at :
    see (step { State.reset with host := [.read 0x0D] }) (fun t => t.seen) =
      some [.reg 0x0D (Config.freeErrAt 0 0)] := by rfl

/-- R66: a second read in a row gives the same. -/
theorem test_free_err_at_again :
    see (step { State.reset with host := [.read 0x0D], seen := [.reg 0x0D (Config.freeErrAt 0 0)] }) (fun t => t.seen) =
      some [.reg 0x0D (Config.freeErrAt 0 0), .reg 0x0D (Config.freeErrAt 0 0)] := by rfl

/-- R293: a load makes stale the descriptors one of whose bytes it writes, and no empty one. -/
theorem test_load_marks_stale :
    see (step { State.reset with
      host := [.load 3 [1, 2, 3]], descs := [⟨⟨5, 2⟩, false⟩, ⟨⟨6, 1⟩, false⟩, ⟨⟨4, 0⟩, false⟩] }) (fun t => t.descs) =
      some [⟨⟨5, 2⟩, true⟩, ⟨⟨6, 1⟩, false⟩, ⟨⟨4, 0⟩, false⟩] := by decide

/-! ## Placing a table word (assumption 17) -/

/-- A command, a long packet, a VarInt of eight bytes and a frame of the table, run as the first instruction. -/
theorem test_place_command : see (step (State.reset.withFetchWord 8 0x10)) failure = some (0x1001, 0) := by decide

theorem test_place_packet :
    see (step (State.reset.withFetchWord 8 0x90)) (fun t => (t.status, t.hdr.aPktType)) =
      some (statusWord .outOfRange 0x20, 0) := by decide

theorem test_place_varint :
    see (step (State.reset.withFetchWord 8 0xC1)) varInt = some (0x0100000000000000, 8, 8) := by decide

theorem test_place_frame :
    see (step (State.reset.withFetchWord 8 0x1A)) (fun t => (t.status, t.frm.kind)) = some (0x3000, 16) := by decide

theorem test_table_words :
    decodeTableWord 8 0x13 = some .pndec ∧ decodeTableWord 8 0x90 = some (.pktZeroRtt false 0 0) ∧
    decodeTableWord 16 0x0040 = some (.varint2B 0) ∧ decodeTableWord 16 0x0018 = some .frameNewConnectionId ∧
    decodeTableWord 8 0xC0 = some (.varint8B 0) := by decide

/-! ## Witnesses: the hypotheses of each statement, met by a state -/

/-- A full queue of one record, with a command held and a move of the host. -/
def held (op : Byte) (moves : List HostMove) : State :=
  { State.reset with
    params := { Params.default with evqDepth := some 1 }
    evq := [.frm 0 1 .ping]
    pending := some op
    host := moves }

/-- Reset, with a move of the host. -/
def hostState (moves : List HostMove) : State := { State.reset with host := moves }

/-- Written bytes, said as what a finite check finds. -/
theorem written {m : Memory} {a lim : Nat} (h : ∀ x < lim, a ≤ x → (m.read x).isSome = true) : writtenFrom m a lim :=
  fun x h1 h2 => h x h2 h1

/-- A run of VarInts that is not there does not fit. -/
theorem not_there {m : Memory} {a k lim : Nat} (h : varIntsAt m a k = none) :
    ∀ vs e, varIntsAt m a k = some (vs, e) → lim < e := fun _ _ h' => by rw [h] at h'; cases h'

/-- Both cursors one past their limits. -/
def badCursors : State := { State.reset with cur := 2, limit := 1, fcur := 2, fend := 1 }

theorem witness_reset_move :
    (held 0x20 [.reset]).host = [.reset] ∧
      ∀ op, (held 0x20 [.reset]).pending = some op → holds op (held 0x20 [.reset]) = true := by
  refine ⟨rfl, fun op h => ?_⟩
  cases h
  rfl

theorem witness_step_runs :
    (hostState [.write 0x00 0xFF20]).pending = none ∧
      (hostState [.write 0x00 0xFF20]).host = [.write 0x00 0xFF20] ∧
      holds 0x20 { State.reset with pending := some 0x20 } = false ∧ decodeCommand 0x20 = .ok .pkt ∧
      State.reset.pending = none ∧ State.reset.host = [] := by decide

theorem witness_unassigned :
    ({ State.reset with pending := some 0x04 } : State).pending = some 0x04 ∧
      (0x04 : Byte) ∉ ([0x00, 0x01, 0x02, 0x03, 0x10, 0x11, 0x12, 0x13, 0x20, 0x30] : List Byte) := by decide

theorem witness_full_queue_idle :
    (held 0x30 []).params.evqDepth = some 1 ∧ 1 ≤ (held 0x30 []).evq.length ∧
      (held 0x30 []).pending = some 0x30 ∧ (held 0x30 []).host = [] := by decide

theorem witness_full_queue_pop :
    (held 0x20 [.pop]).params.evqDepth = some 1 ∧ 1 ≤ (held 0x20 [.pop]).evq.length ∧
      (held 0x20 [.pop]).pending = some 0x20 ∧ (held 0x20 [.pop]).host = [.pop] ∧
      (held 0x20 [.pop]).evq = [.frm 0 1 .ping] := by decide

theorem witness_full_queue_other_move :
    (held 0x20 [.read 0x01]).params.evqDepth = some 1 ∧ 1 ≤ (held 0x20 [.read 0x01]).evq.length ∧
      (held 0x20 [.read 0x01]).pending = some 0x20 ∧ (held 0x20 [.read 0x01]).host = [.read 0x01] ∧
      HostMove.read 0x01 ≠ .pop ∧ HostMove.read 0x01 ≠ .reset := by decide

theorem witness_queue_room :
    let s : State := { held 0x30 [] with evq := [] }
    s.params.evqDepth = some 1 ∧ s.evq.length < 1 ∧ s.pending = some 0x30 ∧ decodeCommand 0x30 = .ok .frm := by decide

theorem witness_pop_lifts_hold :
    let s := held 0x30 [.pop]
    s.params.evqDepth = some s.evq.length ∧ s.pending = some 0x30 ∧ decodeCommand 0x30 = .ok .frm ∧
      s.host = [.pop] ∧ s.evq = [.frm 0 1 .ping] := by decide

theorem witness_never_holds :
    State.reset.params.evqDepth = none ∧ (0x13 : Byte) ≠ 0x20 ∧ (0x13 : Byte) ≠ 0x30 := by decide

theorem witness_host_write :
    (hostState [.write 0x08 1]).pending = none ∧ (hostState [.write 0x08 1]).host = [.write 0x08 1] ∧
      (0x08 : BitVec 6) ≠ 0x00 ∧ (hostState [.write 0x07 1]).host = [.write 0x07 1] ∧ (0x07 : BitVec 6) ≠ 0x00 := by decide

theorem witness_host_read_value :
    holdsValue ({ State.reset with valid := 0x80 } : State).valid (0x3D : BitVec 6).toNat = true ∧
      (0x3D : BitVec 6) ≠ 0x0D ∧ holdsValue State.reset.valid (0x0D : BitVec 6).toNat = true ∧
      ({ State.reset with status := 0x3003 } : State).status.toNat % 16 ∈ [1, 2, 3] := by decide

theorem witness_host_read_free :
    let s := hostState [.read 0x0D, .read 0x0D]
    s.pending = none ∧ s.host = [.read 0x0D, .read 0x0D] ∧ holdsValue s.valid (0x0D : BitVec 6).toNat = true ∧
      s.status.toNat % 16 ∉ [1, 2, 3] := by decide

theorem witness_host_read_invalid :
    (hostState [.read 0x09]).pending = none ∧ (hostState [.read 0x09]).host = [.read 0x09] ∧
      holdsValue (hostState [.read 0x09]).valid (0x09 : BitVec 6).toNat = false := by decide

theorem witness_load :
    (hostState [.load 65535 [0x41]]).pending = none ∧
      (hostState [.load 65535 [0x41]]).host = [.load 65535 [0x41]] ∧
      65535 + [(0x41 : Byte)].length ≤ (hostState [.load 65535 [0x41]]).params.maxInLen := by decide

/-- Descriptors of every kind before and after a load of [3, 6): its last byte, next to it, empty inside it, stale. -/
theorem witness_load_marks :
    let s := { hostState [.load 3 [1, 2, 3]] with
      descs := [⟨⟨5, 2⟩, false⟩, ⟨⟨6, 1⟩, false⟩, ⟨⟨4, 0⟩, false⟩, ⟨⟨0, 1⟩, true⟩] }
    s.pending = none ∧ s.host = [.load 3 [1, 2, 3]] ∧ 3 + 3 ≤ s.params.maxInLen ∧
      s.descs[0]? = some ⟨⟨5, 2⟩, false⟩ ∧ s.descs[1]? = some ⟨⟨6, 1⟩, false⟩ ∧
      s.descs[2]? = some ⟨⟨4, 0⟩, false⟩ ∧ s.descs[3]? = some ⟨⟨0, 1⟩, true⟩ ∧
      see (step s) (fun t => t.descs) =
        some [⟨⟨5, 2⟩, true⟩, ⟨⟨6, 1⟩, false⟩, ⟨⟨4, 0⟩, false⟩, ⟨⟨0, 1⟩, true⟩] := by decide

/-- The last byte of a descriptor is overwritten by the last byte written. -/
theorem witness_stale :
    let s := { input [1, 2, 3] with host := [.load 0 [0, 0, 9], .deref 0], descs := [⟨⟨2, 1⟩, false⟩] }
    s.pending = none ∧ s.host = [.load 0 [0, 0, 9], .deref 0] ∧ 0 + 3 ≤ s.params.maxInLen ∧
      s.descs[0]? = some ⟨⟨2, 1⟩, false⟩ ∧ 2 ≤ 2 ∧ 2 < 2 + 1 ∧ 0 ≤ 2 ∧ 2 < 0 + 3 := by decide

theorem witness_deref :
    let s := { input [1, 2, 3] with host := [.deref 0], descs := [⟨⟨1, 2⟩, false⟩] }
    s.pending = none ∧ s.host = [.deref 0] ∧ s.descs[0]? = some ⟨⟨1, 2⟩, false⟩ ∧
      bytesAt s.mem 1 2 = some [2, 3] := by decide

/-- A set mark is kept by the next move, and read afterwards; a load next to a descriptor leaves it readable. -/
theorem witness_stale_later :
    let s := { input [1, 2, 3] with host := [.read 0x01, .deref 0], descs := [⟨⟨1, 2⟩, true⟩] }
    let t := { s with host := [.deref 0], seen := [.reg 0x01 0xF] }
    let u := { input [1, 2, 3] with host := [.load 3 [9], .deref 0], descs := [⟨⟨1, 2⟩, false⟩] }
    step s = .next t ∧ s.descs[0]? = some ⟨⟨1, 2⟩, true⟩ ∧ (∀ a bytes rest, s.host ≠ .load a bytes :: rest) ∧
      t.pending = none ∧ t.host = [.deref 0] ∧ t.descs[0]? = some ⟨⟨1, 2⟩, true⟩ ∧
      u.pending = none ∧ u.host = [.load 3 [9], .deref 0] ∧ 3 + 1 ≤ u.params.maxInLen ∧
      u.descs[0]? = some ⟨⟨1, 2⟩, false⟩ ∧ bytesAt u.mem 1 2 = some [2, 3] ∧
      ∀ x, 1 ≤ x → x < 1 + 2 → x < 3 ∨ 3 + 1 ≤ x :=
  ⟨rfl, rfl, fun _ _ _ h => by simp at h, rfl, rfl, rfl, rfl, rfl, by decide, rfl, by decide, fun x h1 h2 => by omega⟩

theorem witness_records :
    step (held 0x30 [.pop]) = .next { held 0x30 [] with evq := [], seen := [.record (.frm 0 1 .ping)] } ∧
      ∀ rest, (held 0x30 [.pop]).host ≠ .reset :: rest := by
  refine ⟨rfl, fun rest h => ?_⟩
  simp [held] at h

theorem witness_pop_between_commands :
    let s := { hostState [.pop] with evq := [.frm 0 1 .ping, .frm 1 2 .ping] }
    s.pending = none ∧ s.host = [.pop] ∧ s.evq = [.frm 0 1 .ping, .frm 1 2 .ping] := by decide

theorem witness_instances :
    stepInstance 0 [hostState [.write 0x07 1], hostState [.write 0x07 2]] =
        .next [{ State.reset with arg := 1 }, hostState [.write 0x07 2]] ∧
      stepInstance 1 [{ State.reset with arg := 1 }, hostState [.write 0x07 2]] =
        .next [{ State.reset with arg := 1 }, { State.reset with arg := 2 }] ∧ 0 ≠ 1 := ⟨rfl, rfl, by decide⟩

theorem witness_shortest :
    (2 ^ 62 - 1 : Nat) ≤ varIntMax := by decide

theorem witness_venc :
    (argument 0x3FFFFFFFFFFFFFFF).arg.toNat < 2 ^ 62 ∧ 2 ^ 62 ≤ (argument 0x4000000000000000).arg.toNat := by decide

theorem witness_vdec_whole :
    packetWindow (input [0x40, 0x25]) = true ∧ varIntAt (input [0x40, 0x25]).mem 0 = some (37, 2) ∧
      (input [0x40, 0x25]).cur.toNat + 2 ≤ (input [0x40, 0x25]).limit.toNat := by decide

theorem witness_vdec_cut :
    packetWindow (input [0x9D, 0x7F]) = true ∧ writtenFrom (input [0x9D, 0x7F]).mem 0 2 ∧
      ∀ b, (input [0x9D, 0x7F]).mem.read 0 = some b → 2 < 0 + 2 ^ (b.toNat / 64) := by
  refine ⟨by decide, fun x _ h => ?_, fun b h => ?_⟩
  · interval_cases x <;> decide
  · cases h; decide

theorem witness_bad_cursor :
    packetWindow badCursors = false ∧ frameWindow badCursors = false := by decide

theorem witness_varint_classes :
    valueAt (input [0x25]).mem 1 0 = some 0 ∧ 0 + 1 ≤ (input [0x25]).limit.toNat ∧
      valueAt (input [0x7B, 0xBD]).mem 1 1 = some 0xBD ∧ 0 + 2 ≤ (input [0x7B, 0xBD]).limit.toNat ∧
      valueAt (input [0x9D, 0x7F, 0x3E, 0x7D]).mem 1 3 = some 0x7F3E7D ∧
      0 + 4 ≤ (input [0x9D, 0x7F, 0x3E, 0x7D]).limit.toNat ∧
      valueAt (input [0xC2, 1, 2, 3, 4, 5, 6, 7]).mem 1 7 = some 0x01020304050607 ∧
      0 + 8 ≤ (input [0xC2, 1, 2, 3, 4, 5, 6, 7]).limit.toNat := by decide

theorem witness_first_byte :
    packetWindow (input [0x25]) = true ∧ (input [0x25]).cur.toNat < (input [0x25]).limit.toNat ∧
      (input [0x25]).mem.read (input [0x25]).cur.toNat = some 0x25 := by decide

theorem witness_decode_encoding :
    let s := input [0x80, 0x00, 0x40, 0x00]
    16384 ≤ varIntMax ∧ packetWindow s = true ∧
      valueAt s.mem s.cur.toNat (encodedSize 16384) = some (encWord 16384) ∧
      s.cur.toNat + encodedSize 16384 ≤ s.limit.toNat := by decide

theorem witness_peek_at_limit :
    packetWindow State.reset = true ∧ State.reset.cur = State.reset.limit := by decide

theorem witness_hdrl :
    let s := input [0xC1, 0x00, 0x00, 0x00, 0x01, 0x08, 0x83, 0x94, 0xC8, 0xF0, 0x3E, 0x51, 0x57, 0x08, 0x00]
    packetWindow s = true ∧ s.mem.read s.cur.toNat = some 0xC1 ∧ 128 ≤ (0xC1 : Byte).toNat ∧
      longHeaderAt s.mem s.cur.toNat 0xC1 = some (.long 0xC1 1 ⟨6, 8⟩ ⟨15, 0⟩) ∧
      fixedBitOkLong s 0xC1 1 = true ∧ s.cur.toNat + (7 + 8 + 0) ≤ s.limit.toNat := by decide

theorem witness_hdrs :
    let s := inputCtrl 0x0401 [0x41, 0x11, 0x22, 0x33, 0x44]
    packetWindow s = true ∧ s.mem.read s.cur.toNat = some 0x41 ∧ (0x41 : Byte).toNat < 128 ∧
      shortDcidLen s.ctrl ≤ 20 ∧ fixedBitOkShort s 0x41 = true ∧
      s.cur.toNat + (1 + shortDcidLen s.ctrl) ≤ s.limit.toNat := by decide

theorem witness_wrong_form :
    (input [0x7F]).mem.read (input [0x7F]).cur.toNat = some 0x7F ∧ (0x7F : Byte).toNat < 128 ∧
      (input [0x80]).mem.read (input [0x80]).cur.toNat = some 0x80 ∧ 128 ≤ (0x80 : Byte).toNat ∧
      shortDcidLen (input [0x80]).ctrl ≤ 20 := by decide

theorem witness_fixed_bit :
    let l := inputCtrl 1 [0x80, 0, 0, 0, 1]
    let s := inputCtrl 1 [0x01]
    packetWindow l = true ∧ l.mem.read l.cur.toNat = some 0x80 ∧ 128 ≤ (0x80 : Byte).toNat ∧ 1 ≠ 0 ∧
      l.cur.toNat < l.limit.toNat ∧ (0x01 : Byte).toNat < 128 ∧ l.ctrl.toNat % 2 = 1 ∧
      (0x80 : Byte).toNat / 64 % 2 = 0 ∧ valueAt l.mem (l.cur.toNat + 1) 4 = some 1 ∧
      l.cur.toNat + 5 ≤ l.limit.toNat ∧ packetWindow s = true ∧ s.cur.toNat < s.limit.toNat ∧
      s.mem.read s.cur.toNat = some 0x01 ∧ s.ctrl.toNat % 2 = 1 ∧ (0x01 : Byte).toNat / 64 % 2 = 0 ∧
      shortDcidLen s.ctrl ≤ 20 := by decide

/-- A long header that starts, of version 1 and with no enforced fixed bit. -/
theorem long_start {s : State} (h : packetWindow s = true ∧ s.mem.read s.cur.toNat = some 0xC0 ∧
    s.cur.toNat + 5 ≤ s.limit.toNat ∧ valueAt s.mem (s.cur.toNat + 1) 4 = some 1 ∧ fixedBitOkLong s 0xC0 1 = true) :
    longStart s 0xC0 := ⟨h.1, h.2.1, by decide, h.2.2.1, 1, h.2.2.2.1, h.2.2.2.2⟩

theorem witness_long_connection_id :
    let l := input [0xC0, 0, 0, 0, 1, 21]
    let m := input [0xC0, 0, 0, 0, 1, 2, 7, 7, 21]
    let s := inputCtrl 0x1500 [0x40]
    longStart l 0xC0 ∧ l.mem.read (l.cur.toNat + 5) = some 21 ∧ 20 < (21 : Byte).toNat ∧
      l.cur.toNat + 6 ≤ l.limit.toNat ∧ longStart m 0xC0 ∧ m.mem.read (m.cur.toNat + 5) = some 2 ∧
      m.mem.read (m.cur.toNat + 6 + 2) = some 21 ∧ m.cur.toNat + 7 + 2 ≤ m.limit.toNat ∧
      packetWindow s = true ∧ 20 < shortDcidLen s.ctrl ∧ s.mem.read s.cur.toNat = some 0x40 ∧
      (0x40 : Byte).toNat < 128 ∧ s.cur.toNat < s.limit.toNat := by
  refine ⟨long_start ?_, ?_, ?_, ?_, long_start ?_, ?_⟩ <;> decide

theorem witness_pndec :
    let s := { input [1, 2, 3, 4] with arg := 4 }
    packetWindow s = true ∧ 1 ≤ s.arg.toNat ∧ s.arg.toNat ≤ 4 ∧
      valueAt s.mem s.cur.toNat s.arg.toNat = some 0x01020304 ∧ s.cur.toNat + s.arg.toNat ≤ s.limit.toNat := by decide

theorem witness_pndec_fails :
    packetWindow (argument 0) = true ∧ (argument 0).arg.toNat < 1 ∧ packetWindow (argument 5) = true ∧
      4 < (argument 5).arg.toNat ∧ packetWindow (argument 1) = true ∧ 1 ≤ (argument 1).arg.toNat ∧
      (argument 1).arg.toNat ≤ 4 ∧ (argument 1).limit.toNat < (argument 1).cur.toNat + (argument 1).arg.toNat := by decide

theorem witness_pkt_runs :
    let l := input [0x80, 0, 0, 0, 0]
    packetWindow l = true ∧ l.cur.toNat < l.limit.toNat ∧ l.mem.read l.cur.toNat = some 0x80 ∧
      128 ≤ (0x80 : Byte).toNat ∧ l.cur.toNat + 5 ≤ l.limit.toNat ∧ valueAt l.mem (l.cur.toNat + 1) 4 = some 0 ∧
      (input [0x7F]).mem.read (input [0x7F]).cur.toNat = some 0x7F ∧ (0x7F : Byte).toNat < 128 := by decide

theorem witness_cut_version :
    let l := input [0x80, 0, 0, 0]
    packetWindow l = true ∧ l.mem.read l.cur.toNat = some 0x80 ∧ 128 ≤ (0x80 : Byte).toNat ∧
      l.cur.toNat < l.limit.toNat ∧ l.limit.toNat < l.cur.toNat + 5 ∧ State.reset.cur = State.reset.limit := by decide

/-- A long header cut at its DCID length, in its DCID, at its SCID length and in its SCID. -/
theorem witness_cut_long_header :
    let a := input [0xC0, 0, 0, 0, 1]
    let b := input [0xC0, 0, 0, 0, 1, 2, 7]
    let c := input [0xC0, 0, 0, 0, 1, 2, 7, 7]
    let d := input [0xC0, 0, 0, 0, 1, 2, 7, 7, 1]
    longStart a 0xC0 ∧ a.limit.toNat = a.cur.toNat + 5 ∧
      longStart b 0xC0 ∧ b.mem.read (b.cur.toNat + 5) = some 2 ∧ b.cur.toNat + 6 ≤ b.limit.toNat ∧
      b.limit.toNat < b.cur.toNat + 6 + 2 ∧
      longStart c 0xC0 ∧ c.mem.read (c.cur.toNat + 5) = some 2 ∧ c.limit.toNat = c.cur.toNat + 6 + 2 ∧
      longStart d 0xC0 ∧ d.mem.read (d.cur.toNat + 5) = some 2 ∧ d.mem.read (d.cur.toNat + 6 + 2) = some 1 ∧
      d.cur.toNat + 7 + 2 ≤ d.limit.toNat ∧ d.limit.toNat < d.cur.toNat + 7 + 2 + 1 := by
  refine ⟨long_start ?_, ?_, long_start ?_, ?_, ?_, ?_, long_start ?_, ?_, ?_, long_start ?_, ?_⟩ <;> decide

/-- A missing first byte, a short header's cut connection ID, and an Initial token longer than the bytes left. -/
theorem witness_cut_other_headers :
    let s := inputCtrl 0x0400 [0x40, 1, 2, 3]
    let i := input [0xC0, 0, 0, 0, 1, 0, 0, 2, 0xAA]
    packetWindow State.reset = true ∧ State.reset.cur = State.reset.limit ∧ shortDcidLen State.reset.ctrl ≤ 20 ∧
      packetWindow s = true ∧ s.mem.read s.cur.toNat = some 0x40 ∧ (0x40 : Byte).toNat < 128 ∧
      s.cur.toNat < s.limit.toNat ∧ shortDcidLen s.ctrl ≤ 20 ∧ fixedBitOkShort s 0x40 = true ∧
      s.limit.toNat < s.cur.toNat + 1 + shortDcidLen s.ctrl ∧
      packetWindow i = true ∧ encode (.pktInitial true 0 0) = 0xC0 ∧
      longHeaderAt i.mem i.cur.toNat 0xC0 = some (.long 0xC0 1 ⟨6, 0⟩ ⟨7, 0⟩) ∧ (1 : U32) ≠ 0 ∧
      fixedBitOkLong i 0xC0 1 = true ∧ varIntAt i.mem 7 = some (2, 1) ∧ 7 + 1 ≤ i.limit.toNat ∧
      i.limit.toNat < 7 + 1 + (2 : U62).toNat := by decide

theorem witness_version_negotiation :
    let s := input [0x80, 0x00, 0x00, 0x00, 0x00, 0x00, 0x00, 0x00, 0x00, 0x00, 0x01]
    packetWindow s = true ∧ encode (.pktVersionNegotiation 0) = 0x80 ∧
      longHeaderAt s.mem s.cur.toNat 0x80 = some (.long 0x80 0 ⟨6, 0⟩ ⟨7, 0⟩) ∧
      s.cur.toNat + (7 + 0 + 0) ≤ s.limit.toNat ∧ (s.limit.toNat - 7) % 4 = 0 ∧
      wordsAt s.mem 7 ((s.limit.toNat - 7) / 4) = some [1] := by decide

theorem witness_version_negotiation_cut :
    let s := input [0x80, 0x00, 0x00, 0x00, 0x00, 0x00, 0x00, 0x00, 0x00, 0x00]
    packetWindow s = true ∧ longHeaderAt s.mem s.cur.toNat 0x80 = some (.long 0x80 0 ⟨6, 0⟩ ⟨7, 0⟩) ∧
      (s.limit.toNat - 7) % 4 ≠ 0 := by decide

theorem witness_initial :
    let s := input [0xC3, 0x00, 0x00, 0x00, 0x01, 0x00, 0x00, 0x02, 0xAA, 0xBB, 0x05, 0x00, 0x00, 0x00, 0x07, 0x01]
    packetWindow s = true ∧ encode (.pktInitial true 0 3) = 0xC3 ∧
      longHeaderAt s.mem s.cur.toNat 0xC3 = some (.long 0xC3 1 ⟨6, 0⟩ ⟨7, 0⟩) ∧ (1 : U32) ≠ 0 ∧
      fixedBitOkLong s 0xC3 1 = true ∧ varIntAt s.mem 7 = some (2, 1) ∧
      framedAt s.params.lengthIncludesPn 4 s.mem (7 + 1 + 2) = some (⟨5, 7, 4, ⟨15, 1⟩⟩, 16) ∧ 16 ≤ s.limit.toNat := by decide

theorem witness_initial_without_token :
    let s := { input [0xC0, 0x00, 0x00, 0x00, 0x01, 0x00, 0x00, 0x00, 0x01, 0x07, 0x01] with
      params := { Params.default with lengthIncludesPn := false } }
    packetWindow s = true ∧ varIntAt s.mem 7 = some (0, 1) ∧
      framedAt s.params.lengthIncludesPn 1 s.mem (7 + 1 + 0) = some (⟨1, 7, 1, ⟨10, 1⟩⟩, 11) ∧ 11 ≤ s.limit.toNat := by decide

theorem witness_zero_rtt :
    let s := input [0xD0, 0x00, 0x00, 0x00, 0x01, 0x00, 0x00, 0x01, 0x07]
    packetWindow s = true ∧ encode (.pktZeroRtt true 0 0) = 0xD0 ∧
      longHeaderAt s.mem s.cur.toNat 0xD0 = some (.long 0xD0 1 ⟨6, 0⟩ ⟨7, 0⟩) ∧ fixedBitOkLong s 0xD0 1 = true ∧
      framedAt s.params.lengthIncludesPn 1 s.mem 7 = some (⟨1, 7, 1, ⟨9, 0⟩⟩, 9) ∧ 9 ≤ s.limit.toNat := by decide

theorem witness_handshake :
    let s := input [0xE0, 0x00, 0x00, 0x00, 0x01, 0x00, 0x00, 0x02, 0x07, 0x01]
    packetWindow s = true ∧ encode (.pktHandshake true 0 0) = 0xE0 ∧
      longHeaderAt s.mem s.cur.toNat 0xE0 = some (.long 0xE0 1 ⟨6, 0⟩ ⟨7, 0⟩) ∧ fixedBitOkLong s 0xE0 1 = true ∧
      framedAt s.params.lengthIncludesPn 1 s.mem 7 = some (⟨2, 7, 1, ⟨9, 1⟩⟩, 10) ∧ 10 ≤ s.limit.toNat := by decide

theorem witness_retry :
    let s := input [0xF0, 0x00, 0x00, 0x00, 0x01, 0x00, 0x00]
    packetWindow s = true ∧ encode (.pktRetry true 0) = 0xF0 ∧
      longHeaderAt s.mem s.cur.toNat 0xF0 = some (.long 0xF0 1 ⟨6, 0⟩ ⟨7, 0⟩) ∧ fixedBitOkLong s 0xF0 1 = true ∧
      s.cur.toNat + (7 + 0 + 0) ≤ s.limit.toNat := by decide

theorem witness_short :
    let s := input [0x40, 0x05]
    packetWindow s = true ∧ encode (.pktShort true false 0 false 0) = 0x40 ∧ shortDcidLen s.ctrl ≤ 20 ∧
      fixedBitOkShort s 0x40 = true ∧ valueAt s.mem 1 1 = some 5 ∧ 1 + 1 ≤ s.limit.toNat ∧
      s.mem.read s.cur.toNat = some 0x40 := by decide

theorem witness_short_cut :
    let s := input [0x41, 0x05]
    packetWindow s = true ∧ shortDcidLen s.ctrl ≤ 20 ∧ fixedBitOkShort s 0x41 = true ∧
      s.cur.toNat + (1 + shortDcidLen s.ctrl) ≤ s.limit.toNat ∧
      s.limit.toNat < s.cur.toNat + (1 + shortDcidLen s.ctrl) + ((1 : BitVec 2).toNat + 1) := by decide

theorem witness_bad_length :
    let s := input [0xE3, 0x00, 0x00, 0x00, 0x01, 0x00, 0x00, 0x03]
    let l := input [0xE3, 0x00, 0x00, 0x00, 0x01, 0x00, 0x00, 0x04, 0x01, 0x02, 0x03]
    packetWindow s = true ∧ s.params.lengthIncludesPn = true ∧ encode (.pktHandshake true 0 3) = 0xE3 ∧
      longHeaderAt s.mem s.cur.toNat 0xE3 = some (.long 0xE3 1 ⟨6, 0⟩ ⟨7, 0⟩) ∧ fixedBitOkLong s 0xE3 1 = true ∧
      varIntAt s.mem 7 = some (3, 1) ∧ 7 + 1 ≤ s.limit.toNat ∧ (3 : U62).toNat < 3 + 1 ∧ packetWindow l = true ∧
      longHeaderAt l.mem l.cur.toNat 0xE3 = some (.long 0xE3 1 ⟨6, 0⟩ ⟨7, 0⟩) ∧
      varIntAt l.mem 7 = some (4, 1) ∧ 3 + 1 ≤ (4 : U62).toNat ∧ l.limit.toNat < 7 + 1 + (4 : U62).toNat := by decide

/-- The same of an Initial packet, with a token of one byte, and of a ZeroRTT packet. -/
theorem witness_bad_length_initial :
    let i := input [0xC1, 0, 0, 0, 1, 0, 0, 1, 0xAA, 1]
    let j := input [0xC1, 0, 0, 0, 1, 0, 0, 1, 0xAA, 2, 7]
    let z := input [0xD1, 0, 0, 0, 1, 0, 0, 1]
    packetWindow i = true ∧ i.params.lengthIncludesPn = true ∧ encode (.pktInitial true 0 1) = 0xC1 ∧
      longHeaderAt i.mem i.cur.toNat 0xC1 = some (.long 0xC1 1 ⟨6, 0⟩ ⟨7, 0⟩) ∧ (1 : U32) ≠ 0 ∧
      fixedBitOkLong i 0xC1 1 = true ∧ varIntAt i.mem 7 = some (1, 1) ∧ 7 + 1 + (1 : U62).toNat ≤ i.limit.toNat ∧
      varIntAt i.mem 9 = some (1, 1) ∧ 9 + 1 ≤ i.limit.toNat ∧ (1 : U62).toNat < 1 + 1 ∧
      packetWindow j = true ∧ longHeaderAt j.mem j.cur.toNat 0xC1 = some (.long 0xC1 1 ⟨6, 0⟩ ⟨7, 0⟩) ∧
      varIntAt j.mem 7 = some (1, 1) ∧ varIntAt j.mem 9 = some (2, 1) ∧ 1 + 1 ≤ (2 : U62).toNat ∧
      j.limit.toNat < 9 + 1 + (2 : U62).toNat ∧
      packetWindow z = true ∧ encode (.pktZeroRtt true 0 1) = 0xD1 ∧
      longHeaderAt z.mem z.cur.toNat 0xD1 = some (.long 0xD1 1 ⟨6, 0⟩ ⟨7, 0⟩) ∧ fixedBitOkLong z 0xD1 1 = true ∧
      varIntAt z.mem 7 = some (1, 1) ∧ 7 + 1 ≤ z.limit.toNat := by decide

/-- Where the Length does not count the packet number: one cut in the packet number, one after it. -/
theorem witness_bad_length_without_pn :
    let params : Params := { Params.default with lengthIncludesPn := false }
    let a := { input [0xE1, 0, 0, 0, 1, 0, 0, 1, 7] with params := params }
    let b := { input [0xE1, 0, 0, 0, 1, 0, 0, 1, 7, 8] with params := params }
    packetWindow a = true ∧ a.params.lengthIncludesPn = false ∧ encode (.pktHandshake true 0 1) = 0xE1 ∧
      longHeaderAt a.mem a.cur.toNat 0xE1 = some (.long 0xE1 1 ⟨6, 0⟩ ⟨7, 0⟩) ∧ fixedBitOkLong a 0xE1 1 = true ∧
      varIntAt a.mem 7 = some (1, 1) ∧ 7 + 1 ≤ a.limit.toNat ∧ a.limit.toNat < 7 + 1 + ((1 : BitVec 2).toNat + 1) ∧
      packetWindow b = true ∧ b.params.lengthIncludesPn = false ∧
      longHeaderAt b.mem b.cur.toNat 0xE1 = some (.long 0xE1 1 ⟨6, 0⟩ ⟨7, 0⟩) ∧ fixedBitOkLong b 0xE1 1 = true ∧
      varIntAt b.mem 7 = some (1, 1) ∧ valueAt b.mem (7 + 1) 2 = some 0x0708 ∧ 7 + 1 + 2 ≤ b.limit.toNat ∧
      b.limit.toNat < 7 + 1 + 2 + (1 : U62).toNat := by decide

/-- A missing Length of a ZeroRTT and of a Handshake packet, one cut after its first byte, and an Initial packet whose
Token Length is missing, and one whose Length is, after a token of one byte. -/
theorem witness_cut_length :
    let cut (s : State) (a : Nat) : Prop := a ≤ s.limit.toNat ∧ writtenFrom s.mem a s.limit.toNat ∧
      ∀ v k, varIntAt s.mem a = some (v, k) → s.limit.toNat < a + k
    let z := input [0xD1, 0, 0, 0, 1, 0, 0]
    let h := input [0xE1, 0, 0, 0, 1, 0, 0, 0x40]
    let i := input [0xC1, 0, 0, 0, 1, 0, 0]
    let j := input [0xC1, 0, 0, 0, 1, 0, 0, 1, 0xAA]
    packetWindow z = true ∧ (1 : U32) ≠ 0 ∧ encode (.pktZeroRtt true 0 1) = 0xD1 ∧
      longHeaderAt z.mem z.cur.toNat 0xD1 = some (.long 0xD1 1 ⟨6, 0⟩ ⟨7, 0⟩) ∧ fixedBitOkLong z 0xD1 1 = true ∧
      cut z 7 ∧ packetWindow h = true ∧ encode (.pktHandshake true 0 1) = 0xE1 ∧
      longHeaderAt h.mem h.cur.toNat 0xE1 = some (.long 0xE1 1 ⟨6, 0⟩ ⟨7, 0⟩) ∧ fixedBitOkLong h 0xE1 1 = true ∧
      cut h 7 ∧ packetWindow i = true ∧ encode (.pktInitial true 0 1) = 0xC1 ∧
      longHeaderAt i.mem i.cur.toNat 0xC1 = some (.long 0xC1 1 ⟨6, 0⟩ ⟨7, 0⟩) ∧ fixedBitOkLong i 0xC1 1 = true ∧
      cut i 7 ∧ packetWindow j = true ∧
      longHeaderAt j.mem j.cur.toNat 0xC1 = some (.long 0xC1 1 ⟨6, 0⟩ ⟨7, 0⟩) ∧ fixedBitOkLong j 0xC1 1 = true ∧
      varIntAt j.mem 7 = some (1, 1) ∧ 7 + 1 + (1 : U62).toNat ≤ j.limit.toNat ∧ cut j 9 := by
  have none : ∀ {s : State} {a : Nat}, a ≤ s.limit.toNat → (∀ x < s.limit.toNat, a ≤ x → (s.mem.read x).isSome = true) →
      varIntAt s.mem a = none → a ≤ s.limit.toNat ∧ writtenFrom s.mem a s.limit.toNat ∧
        ∀ v k, varIntAt s.mem a = some (v, k) → s.limit.toNat < a + k :=
    fun h1 h2 h3 => ⟨h1, written h2, fun v k h => by rw [h3] at h; cases h⟩
  exact ⟨by decide, by decide, by decide, by decide, by decide, none (by decide) (by decide) (by decide), by decide,
    by decide, by decide, by decide, none (by decide) (by decide) (by decide), by decide, by decide, by decide,
    by decide, none (by decide) (by decide) (by decide), by decide, by decide, by decide, by decide, by decide,
    none (by decide) (by decide) (by decide)⟩

theorem witness_frm_runs :
    let s := input [0x1E]
    frameWindow s = true ∧ s.fcur.toNat < s.fend.toNat ∧ s.mem.read s.fcur.toNat = some 0x1E ∧
      decodeTag s.params.datagramEnabled 0x1E = .ok .frameHandshakeDone := by decide

theorem witness_empty_window :
    frameWindow State.reset = true ∧ State.reset.fcur = State.reset.fend := by decide

theorem witness_unknown_tag :
    let s := input [0x1F]
    let d := { input [0x31] with params := { Params.default with datagramEnabled := false } }
    frameWindow s = true ∧ s.fcur.toNat < s.fend.toNat ∧ s.mem.read s.fcur.toNat = some 0x1F ∧
      0x1E < (0x1F : Byte).toNat ∧ (0x1F : Byte).toNat ≠ 0x30 ∧ (0x1F : Byte).toNat ≠ 0x31 ∧ frameWindow d = true ∧
      d.mem.read d.fcur.toNat = some 0x31 ∧ d.params.datagramEnabled = false := by decide

theorem witness_fieldless :
    (input [0x00]).mem.read 0 = some 0x00 ∧ (input [0x01]).mem.read 0 = some 0x01 ∧ frameWindow (input [0x1E]) = true ∧
      (input [0x1E]).fcur.toNat < (input [0x1E]).fend.toNat ∧ (input [0x1E]).mem.read 0 = some 0x1E := by decide

theorem witness_varint_frames :
    let s := input [0x04, 0x04, 0x40, 0x64, 0x0A]
    frameWindow s = true ∧ varIntsAt s.mem (s.fcur.toNat + 1) 1 = some ([4], 2) ∧ 2 ≤ s.fend.toNat ∧
      varIntsAt s.mem (s.fcur.toNat + 1) 2 = some ([4, 100], 4) ∧ 4 ≤ s.fend.toNat ∧
      varIntsAt s.mem (s.fcur.toNat + 1) 3 = some ([4, 100, 10], 5) ∧ 5 ≤ s.fend.toNat := by decide

/-- The three lengths of frame, each cut at its last byte. -/
theorem witness_varint_frames_cut :
    let s := input [0x10, 0x44]
    frameWindow s = true ∧ s.fcur.toNat < s.fend.toNat ∧ writtenFrom s.mem (s.fcur.toNat + 1) s.fend.toNat ∧
      ∀ k, 0 < k → ∀ vs e, varIntsAt s.mem (s.fcur.toNat + 1) k = some (vs, e) → s.fend.toNat < e := by
  refine ⟨by decide, by decide, fun x h1 h2 => ?_, fun k hk vs e h => ?_⟩
  · have h1 : 1 ≤ x := h1
    have h2 : x < 2 := h2
    interval_cases x; decide
  · obtain ⟨k, rfl⟩ : ∃ j, k = j + 1 := ⟨k - 1, by omega⟩
    simp only [varIntsAt] at h
    rw [show varIntAt (input [0x10, 0x44]).mem ((input [0x10, 0x44]).fcur.toNat + 1) = none from by decide] at h
    cases h

theorem witness_ack :
    let s := input [0x03, 0x0A, 0x00, 0x01, 0x02, 0x03, 0x01, 0x01, 0x02, 0x03]
    frameWindow s = true ∧ varIntsAt s.mem (s.fcur.toNat + 1) 4 = some ([10, 0, 1, 2], 5) ∧
      varIntsAt s.mem 5 (2 * (1 : U62).toNat) = some ([3, 1], 7) ∧
      ([3, 1] : List U62) = [((3, 1) : U62 × U62)].flatMap (fun p => [p.1, p.2]) ∧ 7 ≤ s.fend.toNat ∧
      varIntsAt s.mem 7 3 = some ([1, 2, 3], 10) ∧ 10 ≤ s.fend.toNat := by decide

/-- An ACK whose one pair does not fit, and one cut in its ECN counts. -/
theorem witness_ack_cut :
    let fits (s : State) (ecn : Bool) : Prop := ∀ (largest delay k first : U62) (flat : List U62) (q r e : Nat),
      varIntsAt s.mem (s.fcur.toNat + 1) 4 = some ([largest, delay, k, first], q) →
      varIntsAt s.mem q (2 * k.toNat) = some (flat, r) →
      (if ecn then ∃ counts, varIntsAt s.mem r 3 = some (counts, e) else e = r) → s.fend.toNat < e
    let s := input [0x02, 0x0A, 0x00, 0x01, 0x02, 0x03]
    let c := input [0x03, 0x0A, 0x00, 0x00, 0x02, 0x01, 0x02]
    frameWindow s = true ∧ s.fcur.toNat < s.fend.toNat ∧ writtenFrom s.mem (s.fcur.toNat + 1) s.fend.toNat ∧
      fits s false ∧ frameWindow c = true ∧ c.fcur.toNat < c.fend.toNat ∧
      writtenFrom c.mem (c.fcur.toNat + 1) c.fend.toNat ∧ fits c true := by
  refine ⟨by decide, by decide, written (by decide), fun l d k f flat q r e h1 h2 _ => ?_, by decide, by decide,
    written (by decide), fun l d k f flat q r e h1 h2 h3 => ?_⟩
  · rw [show varIntsAt (input [0x02, 0x0A, 0x00, 0x01, 0x02, 0x03]).mem _ 4 = some ([10, 0, 1, 2], 5) from by decide] at h1
    cases h1
    rw [show varIntsAt (input [0x02, 0x0A, 0x00, 0x01, 0x02, 0x03]).mem 5 _ = none from by decide] at h2
    cases h2
  · rw [show varIntsAt (input [0x03, 0x0A, 0x00, 0x00, 0x02, 0x01, 0x02]).mem _ 4 = some ([10, 0, 0, 2], 5) from by
      decide] at h1
    cases h1
    cases h2
    obtain ⟨counts, h3⟩ := h3
    rw [show varIntsAt (input [0x03, 0x0A, 0x00, 0x00, 0x02, 0x01, 0x02]).mem 5 3 = none from by decide] at h3
    cases h3

theorem witness_crypto :
    let s := input [0x06, 0x00, 0x04, 0xDE, 0xAD, 0xBE, 0xEF]
    let c := input [0x06, 0x00, 0x05, 0xDE, 0xAD, 0xBE, 0xEF]
    frameWindow s = true ∧ varIntsAt s.mem (s.fcur.toNat + 1) 2 = some ([0, 4], 3) ∧ 3 ≤ s.fend.toNat ∧
      3 + (4 : U62).toNat ≤ s.fend.toNat ∧ frameWindow c = true ∧
      varIntsAt c.mem (c.fcur.toNat + 1) 2 = some ([0, 5], 3) ∧ c.fend.toNat < 3 + (5 : U62).toNat := by decide

theorem witness_new_token :
    let s := input [0x07, 0x03, 0xAA, 0xBB, 0xCC]
    let c := input [0x07, 0x04, 0xAA, 0xBB, 0xCC]
    frameWindow s = true ∧ varIntsAt s.mem (s.fcur.toNat + 1) 1 = some ([3], 2) ∧ 2 ≤ s.fend.toNat ∧
      2 + (3 : U62).toNat ≤ s.fend.toNat ∧ frameWindow c = true ∧
      varIntsAt c.mem (c.fcur.toNat + 1) 1 = some ([4], 2) ∧ c.fend.toNat < 2 + (4 : U62).toNat := by decide

/-- A CRYPTO frame cut in its length, and a NEW_TOKEN frame with none. -/
theorem witness_crypto_and_new_token_cut :
    let s := input [0x06, 0x00, 0x40]
    let t := input [0x07]
    frameWindow s = true ∧ s.fcur.toNat < s.fend.toNat ∧ writtenFrom s.mem (s.fcur.toNat + 1) s.fend.toNat ∧
      (∀ vs e, varIntsAt s.mem (s.fcur.toNat + 1) 2 = some (vs, e) → s.fend.toNat < e) ∧
      frameWindow t = true ∧ t.fcur.toNat < t.fend.toNat ∧ writtenFrom t.mem (t.fcur.toNat + 1) t.fend.toNat ∧
      ∀ vs e, varIntsAt t.mem (t.fcur.toNat + 1) 1 = some (vs, e) → t.fend.toNat < e :=
  ⟨by decide, by decide, written (by decide), not_there (by decide), by decide, by decide, written (by decide),
    not_there (by decide)⟩

theorem witness_stream :
    let s := input [0x0F, 0x04, 0x0A, 0x03, 0x61, 0x62, 0x63]
    frameWindow s = true ∧ varIntsAt s.mem (s.fcur.toNat + 1) 1 = some ([4], 2) ∧
      varIntsAt s.mem 2 1 = some ([10], 3) ∧ 3 ≤ s.fend.toNat ∧ varIntsAt s.mem 3 1 = some ([3], 4) ∧
      4 + (3 : U62).toNat ≤ s.fend.toNat ∧ 2 ≤ s.fend.toNat := by decide

/-- A STREAM frame without an offset, cut in its length, and one with a length greater than the byte left. -/
theorem witness_stream_cut :
    let s := input [0x0A, 0x04, 0x40]
    let c := input [0x0E, 0x04, 0x0A, 0x02, 0x61]
    frameWindow s = true ∧ s.fcur.toNat < s.fend.toNat ∧ writtenFrom s.mem (s.fcur.toNat + 1) s.fend.toNat ∧
      (∀ vs e, varIntsAt s.mem (s.fcur.toNat + 1) 2 = some (vs, e) → s.fend.toNat < e) ∧ frameWindow c = true ∧
      c.fcur.toNat < c.fend.toNat ∧ varIntsAt c.mem (c.fcur.toNat + 1) 3 = some ([4, 10] ++ [2], 4) ∧
      4 ≤ c.fend.toNat ∧ c.fend.toNat < 4 + (2 : U62).toNat :=
  ⟨by decide, by decide, written (by decide), not_there (by decide), by decide, by decide, by decide, by decide,
    by decide⟩

theorem witness_new_connection_id :
    let s := input ([0x18, 0x01, 0x00, 0x14] ++ List.replicate 36 0)
    let c := input [0x18, 0x01, 0x00, 0x15]
    frameWindow s = true ∧ varIntsAt s.mem (s.fcur.toNat + 1) 2 = some ([1, 0], 3) ∧ s.mem.read 3 = some 20 ∧
      (20 : Byte).toNat ≤ 20 ∧ 3 + 1 + (20 : Byte).toNat + 16 ≤ s.fend.toNat ∧ frameWindow c = true ∧
      varIntsAt c.mem (c.fcur.toNat + 1) 2 = some ([1, 0], 3) ∧ c.mem.read 3 = some 21 ∧
      20 < (21 : Byte).toNat ∧ 3 < c.fend.toNat := by decide

/-- A NEW_CONNECTION_ID cut in its VarInts, at its length byte, in its connection ID and in its token. -/
theorem witness_new_connection_id_cut :
    let a := input [0x18, 0x01, 0x40]
    let b := input [0x18, 0x01, 0x00]
    let c := input [0x18, 0x01, 0x00, 0x02, 0xAA]
    let d := input ([0x18, 0x01, 0x00, 0x02, 0xAA, 0xBB] ++ List.replicate 15 0)
    frameWindow a = true ∧ a.fcur.toNat < a.fend.toNat ∧ writtenFrom a.mem (a.fcur.toNat + 1) a.fend.toNat ∧
      (∀ vs e, varIntsAt a.mem (a.fcur.toNat + 1) 2 = some (vs, e) → a.fend.toNat < e) ∧
      frameWindow b = true ∧ varIntsAt b.mem (b.fcur.toNat + 1) 2 = some ([1, 0], 3) ∧ 3 = b.fend.toNat ∧
      frameWindow c = true ∧ varIntsAt c.mem (c.fcur.toNat + 1) 2 = some ([1, 0], 3) ∧ c.mem.read 3 = some 2 ∧
      (2 : Byte).toNat ≤ 20 ∧ 3 < c.fend.toNat ∧ c.fend.toNat < 3 + 1 + (2 : Byte).toNat ∧
      frameWindow d = true ∧ varIntsAt d.mem (d.fcur.toNat + 1) 2 = some ([1, 0], 3) ∧ d.mem.read 3 = some 2 ∧
      3 + 1 + (2 : Byte).toNat ≤ d.fend.toNat ∧ d.fend.toNat < 3 + 1 + (2 : Byte).toNat + 16 :=
  ⟨by decide, by decide, written (by decide), not_there (by decide), by decide, by decide, by decide, by decide,
    by decide, by decide, by decide, by decide, by decide, by decide, by decide, by decide, by decide, by decide⟩

theorem witness_path :
    let s := input [0x1A, 0x01, 0x02, 0x03, 0x04, 0x05, 0x06, 0x07, 0x08]
    let c := input [0x1B, 0x01, 0x02, 0x03, 0x04, 0x05, 0x06, 0x07]
    frameWindow s = true ∧ s.fcur.toNat < s.fend.toNat ∧ valueAt s.mem (s.fcur.toNat + 1) 8 = some 0x0102030405060708 ∧
      s.fcur.toNat + 1 + 8 ≤ s.fend.toNat ∧ frameWindow c = true ∧ c.fcur.toNat < c.fend.toNat ∧
      c.fend.toNat < c.fcur.toNat + 1 + 8 := by decide

theorem witness_connection_close :
    let s := input [0x1C, 0x0A, 0x06, 0x01, 0x68]
    let a := input [0x1D, 0x0A, 0x00]
    frameWindow s = true ∧ 4 + (1 : U62).toNat ≤ s.fend.toNat ∧
      varIntsAt s.mem (s.fcur.toNat + 1) 3 = some ([10, 6, 1], 4) ∧ frameWindow a = true ∧
      3 + (0 : U62).toNat ≤ a.fend.toNat ∧ varIntsAt a.mem (a.fcur.toNat + 1) 2 = some ([10, 0], 3) := by decide

/-- Cut in its length, and with a reason longer than the bytes left, for each of its two tags. -/
theorem witness_connection_close_cut :
    let s := input [0x1C, 0x0A, 0x06, 0x40]
    let a := input [0x1D, 0x0A]
    let c := input [0x1C, 0x0A, 0x06, 0x02, 0x68]
    let d := input [0x1D, 0x0A, 0x01]
    frameWindow s = true ∧ s.fcur.toNat < s.fend.toNat ∧ writtenFrom s.mem (s.fcur.toNat + 1) s.fend.toNat ∧
      (∀ vs e, varIntsAt s.mem (s.fcur.toNat + 1) 3 = some (vs, e) → s.fend.toNat < e) ∧
      frameWindow a = true ∧ a.fcur.toNat < a.fend.toNat ∧ writtenFrom a.mem (a.fcur.toNat + 1) a.fend.toNat ∧
      (∀ vs e, varIntsAt a.mem (a.fcur.toNat + 1) 2 = some (vs, e) → a.fend.toNat < e) ∧
      frameWindow c = true ∧ varIntsAt c.mem (c.fcur.toNat + 1) 3 = some ([10, 6] ++ [2], 4) ∧ 4 ≤ c.fend.toNat ∧
      c.fend.toNat < 4 + (2 : U62).toNat ∧
      frameWindow d = true ∧ varIntsAt d.mem (d.fcur.toNat + 1) 2 = some ([10] ++ [1], 3) ∧ 3 ≤ d.fend.toNat ∧
      d.fend.toNat < 3 + (1 : U62).toNat :=
  ⟨by decide, by decide, written (by decide), not_there (by decide), by decide, by decide, written (by decide),
    not_there (by decide), by decide, by decide, by decide, by decide, by decide, by decide, by decide, by decide⟩

theorem witness_datagram :
    let s := input [0x31, 0x02, 0x68, 0x69]
    let d := { input [0x30] with params := { Params.default with datagramEnabled := false } }
    frameWindow s = true ∧ s.fcur.toNat < s.fend.toNat ∧ s.params.datagramEnabled = true ∧
      varIntsAt s.mem (s.fcur.toNat + 1) 1 = some ([2], 2) ∧ 2 + (2 : U62).toNat ≤ s.fend.toNat ∧
      frameWindow d = true ∧ d.fcur.toNat < d.fend.toNat ∧ d.params.datagramEnabled = false := by decide

theorem witness_datagram_cut :
    let s := input [0x31, 0x40]
    let c := input [0x31, 0x03, 0x68, 0x69]
    frameWindow s = true ∧ s.fcur.toNat < s.fend.toNat ∧ s.params.datagramEnabled = true ∧
      writtenFrom s.mem (s.fcur.toNat + 1) s.fend.toNat ∧
      (∀ vs e, varIntsAt s.mem (s.fcur.toNat + 1) 1 = some (vs, e) → s.fend.toNat < e) ∧
      frameWindow c = true ∧ c.fcur.toNat < c.fend.toNat ∧ c.params.datagramEnabled = true ∧
      varIntsAt c.mem (c.fcur.toNat + 1) 1 = some ([3], 2) ∧ 2 ≤ c.fend.toNat ∧ c.fend.toNat < 2 + (3 : U62).toNat :=
  ⟨by decide, by decide, rfl, written (by decide), not_there (by decide), by decide, by decide, rfl, by decide,
    by decide, by decide⟩

/-- A failing and a completing run for each unit: what the frame statements are about. -/
theorem witness_runs :
    exec .nop State.reset = .next { State.reset with status := 0x0000 } ∧
      exec .vdec State.reset = .next { State.reset with status := 0x0101, errAt := 0 } ∧
      exec .venc State.reset = .next { State.reset with
        vi := { value := 0, len := 1, bytes := 0 }, valid := 0x07, status := 0x0200 } ∧
      exec .peek State.reset = .next { State.reset with status := 0x1001 } ∧
      exec .hdrl State.reset = .next { State.reset with status := 0x1101 } ∧
      exec .pndec (argument 0) = .next { State.reset with status := 0x1302 } ∧
      exec .pkt State.reset = .next { State.reset with status := 0x2001 } ∧
      exec .frm State.reset = .next { State.reset with status := 0x3004 } := ⟨rfl, rfl, rfl, rfl, rfl, rfl, rfl, rfl⟩

theorem witness_completes :
    opcodeFor (.varint1B 0) = 0x01 ∧ opcodeFor .framePing = 0x30 ∧ opcodeFor (.pktRetry true 0) = 0x20 ∧
      exec .framePing (input [0x01]) = .next { input [0x01] with
        frm := { kind := 1, tag := 1, start := 0, fin := 1, fields := {} }
        valid := 0x80, fcur := 1, status := 0x3000, evq := [.frm 0 1 .ping] } := ⟨rfl, rfl, rfl, rfl⟩

theorem witness_stops :
    exec .vdec { State.reset with limit := 1 } = .fault (.unwrittenInput 0) ∧
      ∀ a, a < ({ input [0x41] with params := { Params.default with maxInLen := 1 } } : State).params.maxInLen →
        (({ input [0x41] with params := { Params.default with maxInLen := 1 } } : State).mem.read a).isSome = true := by
  refine ⟨rfl, fun a h => ?_⟩
  have h : a < 1 := h
  interval_cases a; decide

theorem witness_invariants :
    let s := { input [0x41] with host := [.load 1 [0x42]], descs := [⟨⟨0, 1⟩, false⟩] }
    memoryInv s = true ∧ registerInv s = true ∧ reportInv s = true ∧
      step s = .next { s with host := [], mem := [(0, 0x41), (1, 0x42)] } := ⟨by decide, by decide, by decide, rfl⟩

theorem witness_encoding :
    (Instr.frameDatagram false).wf Params.default = true ∧
      decode (.frame Params.default.datagramEnabled) 0x31 = .ok (.frameDatagram true) := by decide

end Sys2Proof.Tests
end

section
/-! PROOFS. What every step keeps of the reports (10_state.md R42, R44; 20_memory.md R63): each descriptor and each
record names bytes of `IN` that exist, and a bounded `EVQ` stays within its depth. -/

namespace Sys2Proof.Machine

/-! ## The invariant, by what the block has reported -/

theorem sliceWithin_iff {n : Nat} {d : Slice} : sliceWithin n d = true ↔ d.Before n := decide_eq_true_iff

/-- The record of a packet or frame is within `IN` exactly if it covers a byte and ends in `IN`. -/
theorem eventWithin_pkt {n start fin : Nat} {p : Packet} :
    eventWithin n (.pkt start fin p) = true ↔ start < fin ∧ fin ≤ n := by simp [eventWithin]

theorem eventWithin_frm {n start fin : Nat} {f : Frame} :
    eventWithin n (.frm start fin f) = true ↔ start < fin ∧ fin ≤ n := by simp [eventWithin]

theorem reportInv_iff {s : State} :
    reportInv s = true ↔
      s.params.valid = true ∧
      (∀ d ∈ s.descs.map Descriptor.slice, Slice.Before s.params.maxInLen d) ∧
      (∀ e ∈ s.evq, eventWithin s.params.maxInLen e = true) ∧
      ∀ depth ∈ s.params.evqDepth, s.evq.length ≤ depth := by
  unfold reportInv
  cases s.params.evqDepth <;> simp [sliceWithin_iff, and_assoc]

/-- `EVQ` has room exactly if it is unbounded or holds fewer records than its depth (10_state.md R44). -/
theorem evqFull_eq_false {s : State} :
    evqFull s = false ↔ ∀ depth ∈ s.params.evqDepth, s.evq.length < depth := by
  unfold evqFull
  cases s.params.evqDepth <;> simp

/-- A command that appends a record starts only while `EVQ` has room (10_state.md R44). -/
theorem evqFull_of_not_holds {op : Byte} {s : State} (ha : appends op = true) (h : holds op s = false) :
    evqFull s = false := by simpa [holds, ha] using h

/-- A write of `IN` marks descriptors stale and moves none of them. -/
theorem markStale_slices (a n : Nat) (ds : List Descriptor) :
    (markStale a n ds).map Descriptor.slice = ds.map Descriptor.slice := by
  simp only [markStale, List.map_map, List.map_inj_left, Function.comp_apply]
  intro d _
  split <;> rfl

/-! ## What keeps it -/

/-- A state that reports nothing new: the same descriptors, stale or not, and no record but those queued before. -/
theorem reportInv_of_no_new_report {s t : State} (hi : reportInv s = true) (hp : t.params = s.params)
    (hd : t.descs.map Descriptor.slice = s.descs.map Descriptor.slice) (he : t.evq.Sublist s.evq) :
    reportInv t = true := by
  obtain ⟨hvalid, hdescs, hevq, hdepth⟩ := reportInv_iff.1 hi
  rw [reportInv_iff, hp, hd]
  exact ⟨hvalid, hdescs, fun e h => hevq e (he.subset h), fun k hk => he.length_le.trans (hdepth k hk)⟩

/-- A state with the parameters, the descriptors and the queue of another. -/
theorem reportInv_of_same_reports {s t : State} (hi : reportInv s = true) (hp : t.params = s.params)
    (hd : t.descs = s.descs) (he : t.evq = s.evq) : reportInv t = true :=
  reportInv_of_no_new_report hi hp (by rw [hd]) (by rw [he])

theorem report_keeps_reportInv {ds : List Slice} {s : State} (hi : reportInv s = true)
    (hds : ∀ d ∈ ds, Slice.Before s.params.maxInLen d) : reportInv (report ds s) = true := by
  obtain ⟨hvalid, hdescs, hevq, hdepth⟩ := reportInv_iff.1 hi
  refine reportInv_iff.2 ⟨hvalid, fun d hd => ?_, hevq, hdepth⟩
  have hmem : d ∈ s.descs.map Descriptor.slice ∨ d ∈ ds := by simpa using hd
  exact hmem.elim (hdescs d) (hds d)

theorem emit_keeps_reportInv {e : Event} {s : State} (hi : reportInv s = true) (hroom : evqFull s = false)
    (he : eventWithin s.params.maxInLen e = true) : reportInv (emit e s) = true := by
  obtain ⟨hvalid, hdescs, hevq, -⟩ := reportInv_iff.1 hi
  refine reportInv_iff.2 ⟨hvalid, hdescs, fun e' h => ?_, fun k hk => ?_⟩
  · rcases List.mem_append.1 h with h | h
    · exact hevq e' h
    · rwa [List.mem_singleton.1 h]
  · have := evqFull_eq_false.1 hroom k hk
    simpa using this

theorem Header.Within.slices_before {n lim : Nat} {h : Header} (hw : h.Within n lim) :
    ∀ d ∈ h.slices, Slice.Before lim d := by
  obtain ⟨hdcid, hscid, -, -⟩ := hw
  cases h with
  | long flags version dcid scid => simpa [Header.slices] using ⟨hdcid, hscid⟩
  | short flags dcid => simpa [Header.slices, Header.dcid] using hdcid

theorem writeHeader_keeps_reportInv {h : Header} {start n : Nat} {s : State} (hi : reportInv s = true)
    (hw : h.Within n s.params.maxInLen) : reportInv (writeHeader h start s) = true :=
  report_keeps_reportInv (reportInv_of_same_reports hi rfl rfl rfl) hw.slices_before

/-- Everything a command writes keeps the reports within `IN`, and appends to `EVQ` only what it has room for. -/
theorem Wrote.keeps_reportInv {s u : State} {op : Byte} (h : Wrote s op u) (hroom : holds op s = false)
    (hi : reportInv s = true) : reportInv u = true := by
  cases h with
  | nop => exact hi
  | vdec v n c _ _ => exact reportInv_of_same_reports hi rfl rfl rfl
  | venc _ => exact reportInv_of_same_reports hi rfl rfl rfl
  | vsize _ => exact reportInv_of_same_reports hi rfl rfl rfl
  | peek b => exact reportInv_of_same_reports hi rfl rfl rfl
  | pndec pn c _ => exact reportInv_of_same_reports hi rfl rfl rfl
  | hdrl h c hw | hdrs h c hw =>
    exact reportInv_of_same_reports (writeHeader_keeps_reportInv hi hw) rfl rfl rfl
  | packet h t c hh ht hs hc hl =>
    have hslices : ∀ d ∈ t.slices c, Slice.Before s.params.maxInLen d :=
      fun d hd => (PacketTail.slices_before ht hc d hd).mono hl
    have hheader := writeHeader_keeps_reportInv (start := s.cur.toNat) hi hh
    exact emit_keeps_reportInv
      (report_keeps_reportInv (reportInv_of_same_reports hheader rfl rfl rfl) hslices)
      (evqFull_of_not_holds rfl hroom) (eventWithin_pkt.2 ⟨hs, hc.trans hl⟩)
  | frame k tag x c hx hs hc =>
    exact emit_keeps_reportInv (report_keeps_reportInv (reportInv_of_same_reports hi rfl rfl rfl) hx)
      (evqFull_of_not_holds rfl hroom) (eventWithin_frm.2 ⟨hs, hc⟩)

theorem Outcome.keeps_reportInv {s t : State} {op : Byte} (h : Outcome s op t) (hroom : holds op s = false)
    (hi : reportInv s = true) : reportInv t = true := by
  cases h with
  | done u hu => exact reportInv_of_same_reports (hu.keeps_reportInv hroom hi) rfl rfl rfl
  | ended _ => exact reportInv_of_same_reports hi rfl rfl rfl
  | aborted e o => exact reportInv_of_same_reports hi rfl rfl rfl

/-- No move of the host reports anything: a load marks descriptors stale, a pop and a reset take records away. -/
theorem Moved.keeps_reportInv {s t : State} {m : HostMove} (h : Moved s m t) (hi : reportInv s = true) :
    reportInv t = true := by
  cases h with
  | load a bytes _ => exact reportInv_of_no_new_report hi rfl (markStale_slices _ _ _) (List.Sublist.refl _)
  | write r v =>
    rw [writeReg_eq]
    exact reportInv_of_same_reports hi rfl rfl rfl
  | read r => exact reportInv_of_same_reports hi rfl rfl rfl
  | pop e rest he =>
    exact reportInv_of_no_new_report hi rfl rfl (by rw [he]; exact List.sublist_cons_self e rest)
  | deref k d bytes => exact reportInv_of_same_reports hi rfl rfl rfl
  | reset => exact reportInv_of_no_new_report hi rfl rfl (List.nil_sublist _)

/-- Settles O55, by what a step can do: a command leaves one of its outcomes, which report only what lies before a
window's end, and was started with room in `EVQ`; a move of the host reports nothing. -/
theorem stepKeepsReportsWithinTheInput : Obligations.StepKeepsReportsWithinTheInput := by
  intro s t hi hstep
  cases step_stepped hstep with
  | idle _ => exact hi
  | move m rest _ _ hm => exact hm.keeps_reportInv (reportInv_of_same_reports hi rfl rfl rfl)
  | command op i _ hroom hdecode _ hexec =>
    have hout := exec_outcome hexec
    rw [opcodeFor_of_decode hdecode] at hout
    exact hout.keeps_reportInv hroom (reportInv_of_same_reports hi rfl rfl rfl)
  | bad op _ _ => exact reportInv_of_same_reports hi rfl rfl rfl

end Sys2Proof.Machine
end

section
/-! PROOFS. Words and masks: `STATUS` as a number, what a change of `VALID` leaves of the bits outside a mask, and the
ranges of the values that registers are written with. -/

namespace Sys2Proof.Machine

/-! ## Bits outside a mask -/

/-- A change of `VALID` within a mask leaves the bits outside the mask. -/
theorem setValid_outside {valid sets clears mask : Word} (hs : sets &&& ~~~mask = 0)
    (hc : clears &&& ~~~mask = 0) : setValid valid sets clears &&& ~~~mask = valid &&& ~~~mask := by
  refine BitVec.eq_of_getLsbD_eq fun i hi => ?_
  have hs := congrArg (·.getLsbD i) hs
  have hc := congrArg (·.getLsbD i) hc
  simp only [BitVec.getLsbD_and, BitVec.getLsbD_not, hi, decide_true, Bool.true_and, BitVec.ofNat_eq_ofNat,
    BitVec.getLsbD_zero, setValid, BitVec.getLsbD_or] at hs hc ⊢
  cases hm : mask.getLsbD i <;> simp_all

/-- What a masked write stores has no bit outside the mask. -/
theorem masked_outside (v mask : Word) : (v &&& mask) &&& ~~~mask = 0 := by
  rw [BitVec.and_assoc, BitVec.and_not_self]
  exact BitVec.and_zero

/-! ## `STATUS` (10_state.md R25) -/

/-- `STATUS` as a number: the opcode over the code. -/
theorem statusWord_eq (code : Code) (op : Byte) :
    statusWord code op = BitVec.ofNat 64 (op.toNat * 256 + (codeNumber code).toNat) := by
  revert op
  cases code <;> decide

theorem statusWord_code (code : Code) (op : Byte) :
    (statusWord code op).toNat % 16 = (codeNumber code).toNat := by
  revert op
  cases code <;> decide

/-- A `STATUS` word has no bit outside CODE and OP. -/
theorem statusWord_reserved (code : Code) (op : Byte) : statusWord code op &&& ~~~0xFF0F = 0 := by
  revert op
  cases code <;> decide

/-- The code of a failure is 1, 2 or 3 (60_exceptions.md R260). -/
theorem errCode_mem (e : Err) : (codeNumber (errCode e)).toNat ∈ [1, 2, 3] := by
  cases e <;> decide

/-! ## Ranges of register values -/

theorem w64_toNat_le {n m : Nat} (h : n ≤ m) : (w64 n).toNat ≤ m := by
  rw [w64, BitVec.toNat_ofNat]
  exact (Nat.mod_le _ _).trans h

theorem flagWord_toNat_le (b : Bool) : (flagWord b).toNat ≤ 1 := by cases b <;> decide

theorem zext8_toNat_lt (b : Byte) : (zext8 b).toNat < 2 ^ 8 := by
  have := b.isLt
  simp only [zext8, BitVec.toNat_setWidth]
  omega

theorem zext32_toNat_lt (v : U32) : (zext32 v).toNat < 2 ^ 32 := by
  have := v.isLt
  simp only [zext32, BitVec.toNat_setWidth]
  omega

theorem zext62_toNat_le (v : U62) : (zext62 v).toNat ≤ varIntMax := by
  have := v.isLt
  simp only [zext62, BitVec.toNat_setWidth, varIntMax]
  omega

theorem packetKindNumber_le (k : PacketKind) : packetKindNumber k ≤ 5 := by cases k <;> decide

theorem frameKindNumber_le (k : FrameKind) : frameKindNumber k ≤ 20 := by cases k <;> decide

theorem encodedSize_cases (v : Nat) :
    encodedSize v = 1 ∨ encodedSize v = 2 ∨ encodedSize v = 4 ∨ encodedSize v = 8 := by
  unfold encodedSize
  split_ifs <;> simp

/-- Every accessor register is written in its format (10_state.md R33). -/
theorem accessorFormat_accessor (applicable : Bool) (value : Byte) :
    accessorFormat (accessor applicable value) = true := by
  revert value
  cases applicable <;> decide

end Sys2Proof.Machine
end

section
/-! PROOFS. What the engine leaves unchanged (10_state.md R22, R45, R62), by unit: each next state is the old one but
for the fields of the command's unit. -/

namespace Sys2Proof.Machine

/-- `s` with the fields of `t` that a command of opcode `op` may change. -/
def unitChange (op : Byte) (s t : State) : State :=
  if op = opVenc ∨ op = opVsize then
    { s with vi := t.vi, valid := t.valid, status := t.status, errAt := t.errAt }
  else if op = opVdec then
    { s with vi := { t.vi with bytes := s.vi.bytes }, valid := t.valid, status := t.status, errAt := t.errAt,
             cur := t.cur }
  else if op = opPeek then
    { s with formPeek := t.formPeek, valid := t.valid, status := t.status, errAt := t.errAt }
  else if op = opHdrl ∨ op = opHdrs then
    { s with hdr := t.hdr, valid := t.valid, status := t.status, errAt := t.errAt, cur := t.cur, descs := t.descs }
  else if op = opPndec then
    { s with pn := t.pn, valid := t.valid, status := t.status, errAt := t.errAt, cur := t.cur }
  else if op = opPkt then
    { s with hdr := t.hdr, pkt := t.pkt, pn := t.pn, valid := t.valid, status := t.status, errAt := t.errAt,
             cur := t.cur, fcur := t.fcur, fend := t.fend, evq := t.evq, descs := t.descs }
  else if op = opFrm then
    { s with frm := t.frm, valid := t.valid, status := t.status, errAt := t.errAt, fcur := t.fcur, evq := t.evq,
             descs := t.descs }
  else { s with valid := t.valid, status := t.status, errAt := t.errAt }

/-- Whatever the opcode, `VALID`, `STATUS` and `ERR_AT` are among what may change. -/
theorem unitChange_self (op : Byte) (s : State) (valid status errAt : Word) :
    unitChange op s { s with valid := valid, status := status, errAt := errAt } =
      { s with valid := valid, status := status, errAt := errAt } := by
  unfold unitChange
  split_ifs <;> rfl

/-- No command changes `IN`, the parameters, or what the host has seen. -/
theorem unitChange_mem (op : Byte) (s t : State) : (unitChange op s t).mem = s.mem := by
  unfold unitChange
  split_ifs <;> rfl

theorem unitChange_params (op : Byte) (s t : State) : (unitChange op s t).params = s.params := by
  unfold unitChange
  split_ifs <;> rfl

theorem unitChange_seen (op : Byte) (s t : State) : (unitChange op s t).seen = s.seen := by
  unfold unitChange
  split_ifs <;> rfl

/-- What a command writes, with its `STATUS`, is in its unit. -/
theorem Wrote.eq_unitChange {s u : State} {op : Byte} (h : Wrote s op u) (status : Word) :
    { u with status := status } = unitChange op s { u with status := status } := by
  cases h <;> rfl

theorem Outcome.eq_unitChange {s t : State} {op : Byte} (h : Outcome s op t) : t = unitChange op s t := by
  cases h with
  | done u hu => exact hu.eq_unitChange _
  | ended _ => exact (unitChange_self op s _ _ s.errAt).symm
  | aborted e o => exact (unitChange_self op s _ _ _).symm

theorem Outcome.mem_eq {s t : State} {op : Byte} (h : Outcome s op t) : t.mem = s.mem := by
  rw [h.eq_unitChange, unitChange_mem]

theorem Outcome.params_eq {s t : State} {op : Byte} (h : Outcome s op t) : t.params = s.params := by
  rw [h.eq_unitChange, unitChange_params]

theorem Outcome.seen_eq {s t : State} {op : Byte} (h : Outcome s op t) : t.seen = s.seen := by
  rw [h.eq_unitChange, unitChange_seen]

/-- Settles O50, by the fields of each unit. -/
theorem codecAndHeaderCommandsKeepTheRest : Obligations.CodecAndHeaderCommandsKeepTheRest := by
  refine fun s t => ⟨fun i hi h => ?_, fun i hi h => ?_, fun h => (exec_outcome h).eq_unitChange, fun i hi h => ?_,
    fun h => (exec_outcome h).eq_unitChange⟩
  · have ht := (exec_outcome h).eq_unitChange
    rcases List.mem_pair.1 hi with rfl | rfl <;> exact ht
  · have ht := (exec_outcome h).eq_unitChange
    rw [hi] at ht
    exact ht
  · have ht := (exec_outcome h).eq_unitChange
    rcases List.mem_pair.1 hi with rfl | rfl <;> exact ht

end Sys2Proof.Machine
end

section
/-! PROOFS. What every step keeps of `IN` (10_state.md R40, R41; 20_memory.md R67): its canonical form, within
`MAX_IN_LEN`. -/

namespace Sys2Proof.Machine

theorem memoryInv_iff {s : State} :
    memoryInv s = true ↔ Memory.wf s.mem = true ∧ Memory.below s.params.maxInLen s.mem = true := by
  simp [memoryInv]

/-- A state with the parameters and the bytes of another. -/
theorem memoryInv_congr {s t : State} (hm : t.mem = s.mem) (hp : t.params = s.params) : memoryInv t = memoryInv s := by
  rw [memoryInv, hm, hp, memoryInv]

/-- Of the host's moves only a load writes `IN`, where it has room for the bytes, and a reset empties it. -/
theorem Moved.keeps_memoryInv {s t : State} {m : HostMove} (h : Moved s m t) (hi : memoryInv s = true) :
    memoryInv t = true := by
  cases h with
  | load a bytes hroom =>
    obtain ⟨hwf, hbelow⟩ := memoryInv_iff.1 hi
    exact memoryInv_iff.2 ⟨Memory.wf_writeAll bytes s.mem a hwf, Memory.below_writeAll bytes s.mem hroom hbelow⟩
  | write r v => rwa [writeReg_eq]
  | read r => exact hi
  | pop e rest _ => exact hi
  | deref k d bytes => exact hi
  | reset => rfl

/-- Settles O53, by what a step can do: a command leaves `IN` as it is, and a load keeps it canonical. -/
theorem stepKeepsTheInputCanonical : Obligations.StepKeepsTheInputCanonical := by
  intro s t hi hstep
  cases step_stepped hstep with
  | idle _ => exact hi
  | move m rest _ _ hm => exact hm.keeps_memoryInv hi
  | command op i _ _ _ _ hexec =>
    have hout := exec_outcome hexec
    rwa [memoryInv_congr hout.mem_eq hout.params_eq]
  | bad op _ _ => exact hi

end Sys2Proof.Machine
end

section
/-! PROOFS. What every step keeps of the registers (10_state.md R23 to R36): reserved bits read 0, and every field is in
its range. -/

namespace Sys2Proof.Machine

/-! ## The formats, by register group -/

/-- The VarInt registers' ranges (10_state.md R30). -/
structure VarIntRegs.InFormat (r : VarIntRegs) : Prop where
  value : r.value.toNat ≤ varIntMax
  len : r.len = 0 ∨ r.len = 1 ∨ r.len = 2 ∨ r.len = 4 ∨ r.len = 8

/-- The header registers' ranges and the accessors' format (10_state.md R32, R33). -/
structure HeaderRegs.InFormat (r : HeaderRegs) : Prop where
  form : r.form.toNat ≤ 1
  flags : r.flags.toNat < 2 ^ 8
  version : r.version.toNat < 2 ^ 32
  dcidLen : r.dcidLen.toNat ≤ 20
  scidLen : r.scidLen.toNat ≤ 20
  aPktType : accessorFormat r.aPktType = true
  aPnLen : accessorFormat r.aPnLen = true
  aIsVn : accessorFormat r.aIsVn = true
  aSpin : accessorFormat r.aSpin = true
  aKeyPhase : accessorFormat r.aKeyPhase = true
  aFixed : accessorFormat r.aFixed = true

/-- The packet registers' ranges (10_state.md R34). -/
structure PacketRegs.InFormat (r : PacketRegs) : Prop where
  kind : r.kind.toNat ≤ 5
  tokenPresent : r.tokenPresent.toNat ≤ 1
  length : r.length.toNat ≤ varIntMax

/-- The packet-number registers' ranges (10_state.md R35). -/
structure PnRegs.InFormat (r : PnRegs) : Prop where
  pn : r.pn.toNat < 2 ^ 32
  nbytes : r.nbytes.toNat ≤ 4

/-- The frame registers' ranges (10_state.md R36). -/
structure FrameRegs.InFormat (r : FrameRegs) : Prop where
  kind : r.kind.toNat ≤ 20
  tag : r.tag.toNat < 2 ^ 8

/-- `registerInv`, by register group. -/
structure RegistersInFormat (s : State) : Prop where
  ctrl : s.ctrl &&& ~~~0x1F01 = 0
  status : s.status &&& ~~~0xFF0F = 0
  valid : s.valid &&& ~~~0xFF = 0
  vi : s.vi.InFormat
  formPeek : s.formPeek.toNat ≤ 1
  hdr : s.hdr.InFormat
  pkt : s.pkt.InFormat
  pn : s.pn.InFormat
  frm : s.frm.InFormat

theorem registerInv_iff {s : State} : registerInv s = true ↔ RegistersInFormat s := by
  simp only [registerInv, Bool.and_eq_true, Bool.or_eq_true, beq_iff_eq, decide_eq_true_eq, or_assoc, and_assoc]
  constructor
  · rintro ⟨ctrl, status, valid, viValue, viLen, formPeek, form, flags, version, dcidLen, scidLen, aPktType, aPnLen,
      aIsVn, aSpin, aKeyPhase, aFixed, kind, tokenPresent, length, pn, nbytes, frKind, frTag⟩
    exact ⟨ctrl, status, valid, ⟨viValue, viLen⟩, formPeek, ⟨form, flags, version, dcidLen, scidLen, aPktType,
      aPnLen, aIsVn, aSpin, aKeyPhase, aFixed⟩, ⟨kind, tokenPresent, length⟩, ⟨pn, nbytes⟩, ⟨frKind, frTag⟩⟩
  · rintro ⟨ctrl, status, valid, vi, formPeek, hdr, pkt, pn, frm⟩
    simp only [ctrl, status, valid, vi.value, vi.len, formPeek, hdr.form, hdr.flags, hdr.version, hdr.dcidLen,
      hdr.scidLen, hdr.aPktType, hdr.aPnLen, hdr.aIsVn, hdr.aSpin, hdr.aKeyPhase, hdr.aFixed, pkt.kind,
      pkt.tokenPresent, pkt.length, pn.pn, pn.nbytes, frm.kind, frm.tag, and_self]

/-! ## What a command writes into each group -/

/-- A length of 1, 2, 4 or 8 in `VI_LEN`. -/
theorem viLen_inFormat {n : Nat} (h : n = 1 ∨ n = 2 ∨ n = 4 ∨ n = 8) :
    w64 n = 0 ∨ w64 n = 1 ∨ w64 n = 2 ∨ w64 n = 4 ∨ w64 n = 8 := by
  rcases h with rfl | rfl | rfl | rfl <;> decide

theorem headerRegs_inFormat {h : Header} {lim : Nat} (hw : h.Within 20 lim) (start : Nat) :
    (headerRegs h start).InFormat := by
  obtain ⟨-, -, hdcid, hscid⟩ := hw
  exact ⟨flagWord_toNat_le _, zext8_toNat_lt _, zext32_toNat_lt _, w64_toNat_le hdcid, w64_toNat_le hscid,
    accessorFormat_accessor _ _, accessorFormat_accessor _ _, accessorFormat_accessor _ _,
    accessorFormat_accessor _ _, accessorFormat_accessor _ _, accessorFormat_accessor _ _⟩

theorem packetRegs_inFormat (start c : Nat) (t : PacketTail) : (packetRegs start c t).InFormat :=
  ⟨w64_toNat_le (packetKindNumber_le _), flagWord_toNat_le _, zext62_toNat_le _⟩

/-- The packet number read, of at most 4 bytes, or the old registers. -/
theorem packetPnRegs_inFormat {t : PacketTail} {lim : Nat} {old : PnRegs} (ht : t.Within lim) (hold : old.InFormat) :
    (packetPnRegs t old).InFormat := by
  obtain ⟨-, -, hwidth⟩ := ht
  unfold packetPnRegs
  cases hpn : t.pn with
  | none => exact hold
  | some p => exact ⟨zext32_toNat_lt _, w64_toNat_le (hwidth p hpn)⟩

theorem frameRegs_inFormat (k : FrameKind) (tag : Byte) (start c : Nat) (fields : FieldRegs) :
    (frameRegs k tag start c fields).InFormat :=
  ⟨w64_toNat_le (frameKindNumber_le _), zext8_toNat_lt _⟩

/-- A change of the defined bits of `VALID` keeps its reserved bits 0. -/
theorem setValid_reserved {valid sets clears : Word} (h : valid &&& ~~~0xFF = 0) (hs : sets &&& ~~~0xFF = 0)
    (hc : clears &&& ~~~0xFF = 0) : setValid valid sets clears &&& ~~~0xFF = 0 :=
  (setValid_outside hs hc).trans h

theorem packetValid_reserved {t : PacketTail} {valid : Word} (h : valid &&& ~~~0xFF = 0) :
    packetValid t valid &&& ~~~0xFF = 0 := by
  unfold packetValid
  split
  · exact setValid_reserved h (by decide) (by decide)
  · exact setValid_reserved h (by decide) (by decide)

theorem clearsOf_reserved (op : Byte) : clearsOf op &&& ~~~0xFF = 0 := by
  unfold clearsOf
  split_ifs <;> decide

/-! ## What keeps them -/

theorem RegistersInFormat.withStatus {s : State} (hi : RegistersInFormat s) (code : Code) (op : Byte) :
    RegistersInFormat { s with status := statusWord code op } := { hi with status := statusWord_reserved _ _ }

theorem commitHeader_inFormat {h : Header} {s : State} {start c lim : Nat} (hi : RegistersInFormat s)
    (hw : h.Within 20 lim) : RegistersInFormat (commitHeader h start c s) :=
  { hi with
    hdr := headerRegs_inFormat hw _
    valid := setValid_reserved hi.valid (by decide) (by decide) }

/-- Every value a command writes is in its register's format. -/
theorem Wrote.inFormat {s u : State} {op : Byte} (h : Wrote s op u) (hi : RegistersInFormat s) :
    RegistersInFormat u := by
  cases h with
  | nop => exact hi
  | vdec v n c hn _ =>
    exact { hi with
      vi := ⟨zext62_toNat_le v, viLen_inFormat hn⟩
      valid := setValid_reserved hi.valid (by decide) (by decide) }
  | venc harg =>
    exact { hi with
      vi := ⟨harg, viLen_inFormat (encodedSize_cases _)⟩
      valid := setValid_reserved hi.valid (by decide) (by decide) }
  | vsize harg =>
    exact { hi with
      vi := ⟨harg, viLen_inFormat (encodedSize_cases _)⟩
      valid := setValid_reserved hi.valid (by decide) (by decide) }
  | peek b =>
    exact { hi with
      formPeek := flagWord_toNat_le _
      valid := setValid_reserved hi.valid (by decide) (by decide) }
  | hdrl h c hw | hdrs h c hw => exact commitHeader_inFormat hi hw
  | pndec pn c harg =>
    exact { hi with
      pn := ⟨zext32_toNat_lt pn, w64_toNat_le harg.2⟩
      valid := setValid_reserved hi.valid (by decide) (by decide) }
  | packet h t c hh ht _ _ _ =>
    exact { hi with
      hdr := headerRegs_inFormat hh _
      pkt := packetRegs_inFormat _ _ t
      pn := packetPnRegs_inFormat ht hi.pn
      valid := packetValid_reserved hi.valid }
  | frame k tag x c _ _ _ =>
    exact { hi with
      frm := frameRegs_inFormat k tag _ _ _
      valid := setValid_reserved hi.valid (by decide) (by decide) }

theorem Outcome.inFormat {s t : State} {op : Byte} (h : Outcome s op t) (hi : RegistersInFormat s) :
    RegistersInFormat t := by
  cases h with
  | done u hu => exact (hu.inFormat hi).withStatus _ _
  | ended _ =>
    exact { hi with
      status := statusWord_reserved _ _
      valid := setValid_reserved hi.valid (by decide) (by decide) }
  | aborted e o =>
    exact { hi with
      status := statusWord_reserved _ _
      valid := setValid_reserved hi.valid (by decide) (clearsOf_reserved op) }

theorem State.reset_registerInv : registerInv State.reset = true := by decide

/-- The host writes no result register; of the registers it writes, `CTRL` alone has a format, and a write stores its
defined bits only (10_state.md R24). (`{ hi with }` is the same formats of the same registers, in another state.) -/
theorem Moved.inFormat {s t : State} {m : HostMove} (h : Moved s m t) (hi : RegistersInFormat s) :
    RegistersInFormat t := by
  cases h with
  | load a bytes _ => exact { hi with }
  | write r v =>
    rw [writeReg_eq]
    refine { hi with ctrl := ?_ }
    show (if r = 0x02 then v &&& ctrlMask else s.ctrl) &&& ~~~0x1F01 = 0
    split
    · exact masked_outside v _
    · exact hi.ctrl
  | read r => exact { hi with }
  | pop e rest _ => exact { hi with }
  | deref k d bytes => exact { hi with }
  | reset => exact { registerInv_iff.1 State.reset_registerInv with }

/-- Settles O54, by what a step can do: a command and a host move keep each register group in its format. -/
theorem stepKeepsTheRegisterFormats : Obligations.StepKeepsTheRegisterFormats := by
  intro s t hi hstep
  rw [registerInv_iff] at hi ⊢
  cases step_stepped hstep with
  | idle _ => exact hi
  | move m rest _ _ hm => exact hm.inFormat { hi with }
  | command op i _ _ _ _ hexec => exact (exec_outcome hexec).inFormat { hi with }
  | bad op _ _ => exact { hi with status := statusWord_reserved _ _ }

/-- Settles O56, by evaluation of the reset state. -/
theorem resetMeetsTheInvariants : Obligations.ResetMeetsTheInvariants :=
  ⟨rfl, State.reset_registerInv, by decide⟩

end Sys2Proof.Machine
end

section
/-! PROOFS. What every command reports (10_state.md R25, R29; 60_exceptions.md R261, R262): its opcode in `STATUS`, and
no VALID bit outside its groups. -/

namespace Sys2Proof.Machine

/-- The groups of an instruction are those its opcode clears. -/
theorem clearsOf_opcodeFor (i : Instr) : clearsOf (opcodeFor i) = groupsOf i := by cases i <;> rfl

theorem packetValid_outside (t : PacketTail) (valid : Word) :
    packetValid t valid &&& ~~~(clearsOf opPkt) = valid &&& ~~~(clearsOf opPkt) := by
  unfold packetValid
  split
  · exact setValid_outside (by decide) (by decide)
  · exact setValid_outside (by decide) (by decide)

/-- A command that completes sets and clears VALID bits of its own groups only. -/
theorem Wrote.valid_outside {s u : State} {op : Byte} (h : Wrote s op u) :
    u.valid &&& ~~~(clearsOf op) = s.valid &&& ~~~(clearsOf op) := by
  cases h with
  | nop => rfl
  | packet h t c _ _ _ _ _ => exact packetValid_outside t s.valid
  | _ => exact setValid_outside (by decide) (by decide)

theorem Outcome.valid_outside {s t : State} {op : Byte} (h : Outcome s op t) :
    t.valid &&& ~~~(clearsOf op) = s.valid &&& ~~~(clearsOf op) := by
  cases h with
  | done u hu => exact hu.valid_outside
  | ended h =>
    subst h
    exact setValid_outside (by decide) (by decide)
  | aborted e o => exact setValid_outside BitVec.zero_and (BitVec.and_not_self _)

/-- A command's code is OK, a failure, or END. -/
theorem Outcome.status_eq {s t : State} {op : Byte} (h : Outcome s op t) :
    ∃ code, (codeNumber code).toNat ≤ 4 ∧ t.status = statusWord code op := by
  cases h with
  | done u _ => exact ⟨.ok, by decide, rfl⟩
  | ended h => exact ⟨.endOfWindow, by decide, by rw [h]; rfl⟩
  | aborted e o => exact ⟨errCode e, by cases e <;> decide, rfl⟩

theorem Wrote.errAt_eq {s u : State} {op : Byte} (h : Wrote s op u) : u.errAt = s.errAt := by
  cases h <;> rfl

/-- Only a failure records an offset (60_exceptions.md R261). -/
theorem Outcome.errAt_eq {s t : State} {op : Byte} (h : Outcome s op t) (hcode : t.status.toNat % 16 ∉ [1, 2, 3]) :
    t.errAt = s.errAt := by
  cases h with
  | done u hu => exact hu.errAt_eq
  | ended _ => rfl
  | aborted e o =>
    rw [abort_status, statusWord_code] at hcode
    exact absurd (errCode_mem e) hcode

/-- Settles O48, by a command's outcomes. -/
theorem everyCommandReportsItsOpcode : Obligations.EveryCommandReportsItsOpcode := by
  intro i s t h
  have hout := exec_outcome h
  obtain ⟨code, hle, hstatus⟩ := hout.status_eq
  refine ⟨⟨(codeNumber code).toNat, hle, hstatus.trans (statusWord_eq code _)⟩, ?_, hout.errAt_eq⟩
  rw [← clearsOf_opcodeFor]
  exact hout.valid_outside

end Sys2Proof.Machine
end

section
/-! PROOFS. Where a command stops (10_state.md R41): only at a byte of `IN` that was not written. -/

namespace Sys2Proof.Machine

/-- What is read through the packet window faults only at an unwritten byte of `IN`. -/
theorem beginPacket_bind_faults {α : Type} {s : State} {g : Window × Nat → Except Stop α} {f : Fault}
    (hg : ∀ w c, FaultsOnlyUnwritten w (g (w, c))) (h : (beginPacket s >>= g) = .error (.fault f)) :
    ∃ a, f = .unwrittenInput a ∧ a < s.params.maxInLen ∧ s.mem.read a = none := by
  rcases bind_eq_error.1 h with hbegin | ⟨⟨w, c⟩, hbegin, hread⟩
  · unfold beginPacket at hbegin
    split at hbegin <;> simp at hbegin
  · obtain ⟨hwindow, rfl, rfl⟩ := beginPacket_eq_ok.1 hbegin
    obtain ⟨a, ha, hlt, hnone⟩ := hg _ _ f hread
    exact ⟨a, ha, lt_of_lt_of_le hlt hwindow.2, hnone⟩

theorem beginFrame_ne_fault {s : State} {f : Fault} : beginFrame s ≠ .error (.fault f) := by
  unfold beginFrame
  split <;> simp

/-- VENC and VSIZE read no byte. -/
theorem argCommand_stops (op : Byte) (s u : State) :
    StopsOnlyUnwritten s (runCommand op s (if varIntMax < s.arg.toNat then raise .outOfRange 0 else .ok u)) := by
  refine .run fun f hf => ?_
  split at hf <;> simp at hf

theorem execPeek_stops (s : State) : StopsOnlyUnwritten s (execPeek s) :=
  .packet fun _ _ => (peekByte_faults _ _).bind fun _ _ => .ok _ _

theorem execHdrl_stops (s : State) : StopsOnlyUnwritten s (execHdrl s) :=
  .packet fun _ _ => (decodeLong_faults _ _ _).bind fun _ _ => .ok _ _

theorem execHdrs_stops (s : State) : StopsOnlyUnwritten s (execHdrs s) :=
  .packet fun _ _ => (decodeShort_faults _ _ _).bind fun _ _ => .ok _ _

theorem execPndec_stops (s : State) : StopsOnlyUnwritten s (execPndec s) :=
  .packet fun _ _ => .ite (fun _ => .raise _ _ _) fun _ => (readPn_faults _ _ _).bind fun _ _ => .ok _ _

theorem execPktShort_stops (fixed spin : Bool) (reserved : BitVec 2) (keyPhase : Bool) (pnl : BitVec 2) (s : State) :
    StopsOnlyUnwritten s (execPktShort fixed spin reserved keyPhase pnl s) :=
  .packet fun _ _ => (need_faults _ _ _).bind fun _ _ => (checkShortDcidLen_faults _ _ _).bind fun _ _ =>
    (shortFields_faults _ _ _ _ _).bind fun _ _ => (shortTail_faults _ _ _).bind fun _ _ => .ok _ _

/-- Every instruction but the three commands that choose a class by what they read: VDEC, PKT and FRM. -/
theorem exec_stops_of_not_choosing {i : Instr} (hi : i ∉ [Instr.vdec, .pkt, .frm]) (s : State) :
    StopsOnlyUnwritten s (exec i s) := by
  cases i with
  | vdec | pkt | frm => simp at hi
  | nop => exact .next _ _
  | venc | vsize => exact argCommand_stops _ s _
  | peek => exact execPeek_stops s
  | hdrl => exact execHdrl_stops s
  | hdrs => exact execHdrs_stops s
  | pndec => exact execPndec_stops s
  | varint1B high | varint2B high | varint4B high | varint8B high => exact vdecClass_stops _ _ s
  | pktVersionNegotiation low => exact pktLong_stops _ _ s vnTail_faults
  | pktInitial fixed reserved pnl => exact pktLong_stops _ _ s (initialTail_faults _ _)
  | pktZeroRtt fixed reserved pnl => exact pktLong_stops _ _ s (zeroRttTail_faults _ _)
  | pktHandshake fixed reserved pnl => exact pktLong_stops _ _ s (handshakeTail_faults _ _)
  | pktRetry fixed unused => exact pktLong_stops _ _ s retryTail_faults
  | pktShort fixed spin reserved keyPhase pnl => exact execPktShort_stops _ _ _ _ _ s
  | framePadding | framePing | frameHandshakeDone => exact frmClass_stops _ _ _ s (extractNone_faults _)
  | frameAck ecn => exact frmClass_stops _ _ _ s (extractAck_faults _)
  | frameResetStream => exact frmClass_stops _ _ _ s extractResetStream_faults
  | frameStopSending => exact frmClass_stops _ _ _ s extractStopSending_faults
  | frameCrypto => exact frmClass_stops _ _ _ s extractCrypto_faults
  | frameNewToken => exact frmClass_stops _ _ _ s extractNewToken_faults
  | frameStream off len fin => exact frmClass_stops _ _ _ s (extractStream_faults _ _ _)
  | frameMaxData => exact frmClass_stops _ _ _ s extractMaxData_faults
  | frameMaxStreamData => exact frmClass_stops _ _ _ s extractMaxStreamData_faults
  | frameMaxStreams uni => exact frmClass_stops _ _ _ s (extractMaxStreams_faults _)
  | frameDataBlocked => exact frmClass_stops _ _ _ s extractDataBlocked_faults
  | frameStreamDataBlocked => exact frmClass_stops _ _ _ s extractStreamDataBlocked_faults
  | frameStreamsBlocked uni => exact frmClass_stops _ _ _ s (extractStreamsBlocked_faults _)
  | frameNewConnectionId => exact frmClass_stops _ _ _ s extractNewConnectionId_faults
  | frameRetireConnectionId => exact frmClass_stops _ _ _ s extractRetireConnectionId_faults
  | framePathChallenge => exact frmClass_stops _ _ _ s extractPathChallenge_faults
  | framePathResponse => exact frmClass_stops _ _ _ s extractPathResponse_faults
  | frameConnectionClose app => exact frmClass_stops _ _ _ s (extractConnectionClose_faults _)
  | frameDatagram len => exact frmClass_stops _ _ _ s (extractDatagram_faults _)

/-! ## The commands that choose a class: the choice reads written bytes, and the class stops as it does on its own -/

theorem decodeVarIntFirst_not_choosing (b : Byte) : decodeVarIntFirst b ∉ [Instr.vdec, .pkt, .frm] := by
  revert b
  decide

theorem decodePacketFirst_not_choosing (vn : Bool) (b : Byte) :
    decodePacketFirst vn b ∉ [Instr.vdec, .pkt, .frm] := by
  unfold decodePacketFirst
  cases packetKind vn b <;> simp

theorem frameClass_not_choosing (k : FrameKind) (tag : Byte) : frameClass k tag ∉ [Instr.vdec, .pkt, .frm] := by
  cases k <;> simp [frameClass]

theorem execVdec_stops (s : State) : StopsOnlyUnwritten s (execVdec s) := by
  unfold execVdec
  split
  · rename_i e hfirst
    refine .run fun f hf => ?_
    cases hf
    exact beginPacket_bind_faults (fun _ _ => peekByte_faults _ _) hfirst
  · rename_i b _
    rw [← exec_decodeVarIntFirst]
    exact exec_stops_of_not_choosing (decodeVarIntFirst_not_choosing b) s

theorem execPkt_stops (s : State) : StopsOnlyUnwritten s (execPkt s) := by
  unfold execPkt
  split
  · rename_i e hfirst
    refine .run fun f hf => ?_
    cases hf
    exact beginPacket_bind_faults (fun _ _ => (peekByte_faults _ _).bind fun _ _ =>
      .ite (fun _ => (readN_faults _ _ _).bind fun _ _ => .ok _ _) fun _ => .ok _ _) hfirst
  · rename_i vn b _
    rw [← exec_decodePacketFirst]
    exact exec_stops_of_not_choosing (decodePacketFirst_not_choosing vn b) s

theorem execFrm_stops (s : State) : StopsOnlyUnwritten s (execFrm s) := by
  unfold execFrm
  split
  · rename_i e hbegin
    refine .run fun f hf => ?_
    cases hf
    exact absurd hbegin beginFrame_ne_fault
  · rename_i w c hbegin
    obtain ⟨hwindow, rfl, rfl⟩ := beginFrame_eq_ok.1 hbegin
    split
    · exact .next _ _
    · split
      · rename_i e hpeek
        refine .run fun f hf => ?_
        cases hf
        obtain ⟨a, ha, hlt, hnone⟩ := peekByte_faults _ _ f hpeek
        exact ⟨a, ha, lt_of_lt_of_le hlt hwindow.2, hnone⟩
      · split
        · exact .run (by simp)
        · rename_i k _
          rw [← exec_frameClass]
          exact exec_stops_of_not_choosing (frameClass_not_choosing k _) s

/-- Where an instruction stops, said once. -/
theorem exec_stops (i : Instr) (s : State) : StopsOnlyUnwritten s (exec i s) := by
  by_cases hi : i ∈ [Instr.vdec, .pkt, .frm]
  · rcases List.mem_cons.1 hi with rfl | hi
    · exact execVdec_stops s
    rcases List.mem_pair.1 hi with rfl | rfl
    · exact execPkt_stops s
    · exact execFrm_stops s
  · exact exec_stops_of_not_choosing hi s

/-- Settles O52: with every byte of `IN` written a command has nowhere to stop. -/
theorem commandsStopOnlyAtUnwrittenInput : Obligations.CommandsStopOnlyAtUnwrittenInput := by
  intro i s
  obtain ⟨hrefused, hfault⟩ := exec_stops i s
  refine ⟨hrefused, hfault, fun hwritten => ?_⟩
  cases hexec : exec i s with
  | next t => exact ⟨t, rfl⟩
  | refused r => exact absurd hexec (hrefused r)
  | fault f =>
    obtain ⟨a, -, hlt, hnone⟩ := hfault f hexec
    simpa [hnone] using hwritten a hlt

end Sys2Proof.Machine
end

section
/-! PROOFS. A cursor out of range (10_state.md R26, R27; 60_exceptions.md R260). -/

namespace Sys2Proof.Machine

/-- A command whose packet window is not sound fails at `CUR` before it reads anything. -/
theorem runCommand_badPacketWindow {op : Byte} {s : State} {g : Window × Nat → Except Stop State}
    (h : packetWindow s = false) :
    runCommand op s (beginPacket s >>= g) =
      .next (failed s (statusWord .outOfRange op) (clearsOf op) s.cur.toNat) := by
  rw [beginPacket_bad h, raise_bind, runCommand_raise, abort_eq_failed]
  rfl

theorem execPkt_badPacketWindow {s : State} (h : packetWindow s = false) :
    execPkt s = .next (failed s (statusWord .outOfRange opPkt) (clearsOf opPkt) s.cur.toNat) := by
  have hfirst : packetFirstAt s = raise .outOfRange s.cur.toNat := by
    rw [packetFirstAt, beginPacket_bad h, raise_bind]
  rw [execPkt, hfirst]
  exact congrArg _ (abort_eq_failed _ _ _ _)

theorem execFrm_badFrameWindow {s : State} (h : frameWindow s = false) :
    execFrm s = .next (failed s (statusWord .outOfRange opFrm) (clearsOf opFrm) s.fcur.toNat) := by
  rw [execFrm, beginFrame_bad h]
  exact congrArg _ (abort_eq_failed _ _ _ _)

/-- Settles O25, by the check of the window that each of the four commands begins with. -/
theorem badCursorIsOutOfRange : Obligations.BadCursorIsOutOfRange :=
  fun _ => ⟨fun h => ⟨runCommand_badPacketWindow h, runCommand_badPacketWindow h, execPkt_badPacketWindow h⟩,
    execFrm_badFrameWindow⟩

end Sys2Proof.Machine
end

section
/-! PROOFS. The step's equations (10_state.md R20; 20_memory.md R69), and what a load, a pop and a write of `CMD` do. -/

namespace Sys2Proof.Machine

/-- Between commands the host makes its next move. -/
theorem step_hostMove {s : State} {m : HostMove} {rest : List HostMove} (hp : s.pending = none)
    (hh : s.host = m :: rest) : step s = hostMove m { s with host := rest } := by
  simp only [step, hp, hostTurn, hh]

/-- Without a command and without a move the block is idle (70_reset_and_hazards.md R291). -/
theorem step_idle {s : State} (hp : s.pending = none) (hh : s.host = []) : step s = .next s := by
  simp only [step, hp, hostTurn, hh]

/-- A command that was given and does not hold runs. -/
theorem step_command {s : State} {op : Byte} {i : Instr} (hp : s.pending = some op) (hh : holds op s = false)
    (hi : decodeCommand op = .ok i) : step s = exec i { s with pending := none } := by
  simp only [step, hp, hh, Bool.false_eq_true, if_false, runOpcode, hi]

theorem hostLoad_room {s : State} {a : Nat} {bytes : List Byte} (h : a + bytes.length ≤ s.params.maxInLen) :
    hostLoad a bytes s =
      .next { s with mem := s.mem.writeAll a bytes, descs := markStale a bytes.length s.descs } := if_pos h

theorem hostPop_cons {s : State} {e : Event} {q : List Event} (h : s.evq = e :: q) :
    hostPop s = .next (see (.record e) { s with evq := q }) := by
  simp only [hostPop, h]

theorem opcodeOf_eq (v : Word) : opcodeOf v = BitVec.ofNat 8 (v.toNat % 256) :=
  BitVec.eq_of_toNat_eq (by simp [opcodeOf])

/-- Settles O2, by the step's equations and the opcode's bits in the word written. -/
theorem stepRunsTheDecodedCommand : Obligations.StepRunsTheDecodedCommand := by
  refine ⟨fun s v rest hp hh => ?_, fun s op i hp hh hi => step_command hp hh hi, fun s hp hh => step_idle hp hh⟩
  rw [step_hostMove hp hh, ← opcodeOf_eq]
  rfl

/-- Settles O7, by the reads after a write of several bytes and the marks of the descriptors it meets. -/
theorem loadWritesExactlyItsBytes : Obligations.LoadWritesExactlyItsBytes := by
  intro s a bytes rest hp hh hroom
  refine ⟨_, (step_hostMove hp hh).trans (hostLoad_room hroom), rfl,
    fun k hk => Memory.read_writeAll_inside bytes s.mem hk,
    fun x hx => Memory.read_writeAll_outside bytes s.mem hx, markStale_slices _ _ _, fun k d d' hd hd' => ?_⟩
  have hmark : (markStale a bytes.length s.descs)[k]? = some d' := hd'
  rw [markStale_getElem?, hd] at hmark
  cases hmark
  simp only [Bool.or_eq_true, overlaps_iff]

/-! ## Records (10_state.md R42) -/

/-- A command appends at most one record. -/
theorem Outcome.evq_append {s t : State} {op : Byte} (h : Outcome s op t) :
    ∃ l : List Event, l.length ≤ 1 ∧ t.evq = s.evq ++ l := by
  cases h with
  | done u hu =>
    cases hu with
    | packet h t c _ _ _ _ _ => exact ⟨[_], Nat.le_refl _, rfl⟩
    | frame k tag x c _ _ _ => exact ⟨[_], Nat.le_refl _, rfl⟩
    | _ => exact ⟨[], Nat.zero_le _, (List.append_nil _).symm⟩
  | ended _ => exact ⟨[], Nat.zero_le _, (List.append_nil _).symm⟩
  | aborted e o => exact ⟨[], Nat.zero_le _, (List.append_nil _).symm⟩

/-- The records popped, followed by those queued (70_reset_and_hazards.md R301). -/
def records (s : State) : List Event := popped s ++ s.evq

/-- The popped records are those the host has seen. -/
theorem records_congr {s t : State} (hs : t.seen = s.seen) (he : t.evq = s.evq) : records t = records s := by
  rw [records, records, popped, popped, hs, he]

theorem Outcome.records_append {s t : State} {op : Byte} (h : Outcome s op t) :
    ∃ l : List Event, l.length ≤ 1 ∧ records t = records s ++ l := by
  obtain ⟨l, hl, he⟩ := h.evq_append
  exact ⟨l, hl, by rw [records, records, popped, popped, h.seen_eq, he, List.append_assoc]⟩

/-- A move of the host but a reset appends no record: a pop moves the head to the popped ones. -/
theorem Moved.records_eq {s t : State} {m : HostMove} (h : Moved s m t) (hm : m ≠ .reset) :
    records t = records s := by
  cases h with
  | load a bytes _ => rfl
  | write r v => rw [writeReg_eq]; rfl
  | read r => simp [records, popped]
  | pop e rest he => simp [records, popped, he]
  | deref k d bytes => simp [records, popped]
  | reset => exact absurd rfl hm

/-- Settles O9, by what a step can do: a command appends at most one record, a pop moves the head of the queue. -/
theorem recordsAreQueuedAndPoppedInOrder : Obligations.RecordsAreQueuedAndPoppedInOrder := by
  refine ⟨fun s t hstep hreset => ?_, fun s e q rest hp hh hq => ?_⟩
  · show ∃ l : List Event, l.length ≤ 1 ∧ records t = records s ++ l
    cases step_stepped hstep with
    | idle _ => exact ⟨[], Nat.zero_le _, (List.append_nil _).symm⟩
    | move m rest hh _ hm =>
      have hne : m ≠ .reset := fun h => hreset rest (h ▸ hh)
      exact ⟨[], Nat.zero_le _, (hm.records_eq hne).trans (List.append_nil _).symm⟩
    | command op i _ _ _ _ hexec => exact (exec_outcome hexec).records_append
    | bad op _ _ => exact ⟨[], Nat.zero_le _, (List.append_nil _).symm⟩
  · rw [step_hostMove hp hh]
    exact hostPop_cons hq

end Sys2Proof.Machine
end

section
/-! PROOFS. Several blocks side by side (10_state.md R47): each steps on its own entry of the list. -/

namespace Sys2Proof.Machine

/-- A number that names no block makes no step. -/
theorem stepInstance_none {k : Nat} {m : Instances} (h : m[k]? = none) : stepInstance k m = .next m := by
  simp only [stepInstance, h]

/-- What a step of one block does: nothing, or a step of its own entry. -/
theorem stepInstance_eq_next {k : Nat} {m n : Instances} :
    stepInstance k m = .next n ↔
      (m[k]? = none ∧ n = m) ∨ ∃ s t, m[k]? = some s ∧ step s = .next t ∧ n = m.set k t := by
  unfold stepInstance
  cases m[k]? with
  | none => simp [eq_comm]
  | some s => cases h : step s <;> simp [h, eq_comm]

/-- A step of one block leaves every other entry. -/
theorem stepInstance_other {j k : Nat} {m n : Instances} (hne : j ≠ k) (h : stepInstance j m = .next n) :
    n[k]? = m[k]? := by
  rcases stepInstance_eq_next.1 h with ⟨-, rfl⟩ | ⟨s, t, -, -, rfl⟩
  · rfl
  · exact List.getElem?_set_ne hne

/-- A step of one block can be made before another's as well. -/
theorem stepInstance_comm {j k : Nat} {m m1 m2 : Instances} (hne : j ≠ k) (h1 : stepInstance j m = .next m1)
    (h2 : stepInstance k m1 = .next m2) : ∃ m3, stepInstance k m = .next m3 ∧ stepInstance j m3 = .next m2 := by
  have hk : m1[k]? = m[k]? := stepInstance_other hne h1
  rcases stepInstance_eq_next.1 h2 with ⟨hnone, rfl⟩ | ⟨s', t', hs', ht', rfl⟩
  · exact ⟨m, stepInstance_none (hk ▸ hnone), h1⟩
  refine ⟨m.set k t', stepInstance_eq_next.2 (.inr ⟨s', t', hk ▸ hs', ht', rfl⟩), stepInstance_eq_next.2 ?_⟩
  have hj : (m.set k t')[j]? = m[j]? := List.getElem?_set_ne hne.symm
  rcases stepInstance_eq_next.1 h1 with ⟨hnone, rfl⟩ | ⟨s, t, hs, ht, rfl⟩
  · exact .inl ⟨hj.trans hnone, rfl⟩
  · exact .inr ⟨s, t, hj.trans hs, ht, List.set_comm _ _ hne⟩

/-- Settles O10: a step reads and writes its own entry only. -/
theorem instancesDoNotInterfere : Obligations.InstancesDoNotInterfere :=
  ⟨fun _ _ _ _ => stepInstance_other, fun _ _ _ _ _ => stepInstance_comm⟩

end Sys2Proof.Machine
end

section
/-! PROOFS. Who writes what (20_memory.md R62, R66): the engine leaves `IN` and everything on the host's side, a host
write of a register other than `CMD` stores, and a host read gives a value and leaves the block as it was. -/

namespace Sys2Proof.Machine

/-! ## The engine (20_memory.md R62) -/

/-- The registers that only the host writes (10_state.md R23), its coming moves, and the command it gives, with their
number: the same in two states. -/
structure SameHostWritten (s t : State) : Prop where
  cmd : t.cmd = s.cmd
  ctrl : t.ctrl = s.ctrl
  limit : t.limit = s.limit
  arg : t.arg = s.arg
  host : t.host = s.host
  pending : t.pending = s.pending
  freeCount : t.freeCount = s.freeCount

/-- What the host writes is in no unit. -/
theorem unitChange_sameHostWritten (op : Byte) (s t : State) : SameHostWritten s (unitChange op s t) := by
  unfold unitChange
  split_ifs <;> exact ⟨rfl, rfl, rfl, rfl, rfl, rfl, rfl⟩

theorem Outcome.sameHostWritten {s t : State} {op : Byte} (h : Outcome s op t) : SameHostWritten s t := by
  rw [h.eq_unitChange]
  exact unitChange_sameHostWritten op s t

/-- Settles O49: whatever the outcome of a command, it changes the fields of its unit only. -/
theorem engineWritesOnlyItsRegistersAndQueue : Obligations.EngineWritesOnlyItsRegistersAndQueue := by
  intro i s t h
  have hout := exec_outcome h
  obtain ⟨hcmd, hctrl, hlimit, harg, hhost, hpending, hcount⟩ := hout.sameHostWritten
  exact ⟨fun a => by rw [hout.mem_eq], hout.mem_eq, hcmd, hctrl, hlimit, harg, hout.params_eq, hhost, hout.seen_eq,
    hpending, hcount⟩

/-! ## Host writes (20_memory.md R66) -/

/-- A host write of a register that is not `CMD` gives the engine no command. -/
theorem writeReg_not_cmd {r : BitVec 6} (hr : r ≠ 0x00) (v : Word) (s : State) :
    writeReg r v s = { s with
      ctrl := if r = 0x02 then v &&& ctrlMask else s.ctrl
      cur := if r = 0x03 then v else s.cur
      limit := if r = 0x04 then v else s.limit
      fcur := if r = 0x05 then v else s.fcur
      fend := if r = 0x06 then v else s.fend
      arg := if r = 0x07 then v else s.arg } := by
  simp only [writeReg_eq, if_neg hr]

/-- Settles O5, by the fields that a write of a register other than `CMD` leaves. -/
theorem hostWritesOnlyStore : Obligations.HostWritesOnlyStore := by
  intro s r v rest hp hh hr
  rw [step_hostMove hp hh]
  exact congrArg _ (writeReg_not_cmd hr v _)

/-! ## Host reads (20_memory.md R66) -/

/-- The bit the machine tests is that of R29's group. -/
theorem regHasValue_eq (r : BitVec 6) (s : State) : regHasValue r s = holdsValue s.valid r.toNat := by
  simp only [regHasValue, regGroup, holdsValue]
  split_ifs <;> rfl

/-- What a read gives depends neither on the moves to come nor on what the host has seen. -/
theorem readValue_congr (r : BitVec 6) (s : State) (host : List HostMove) (seen : List Seen) :
    readValue r { s with host := host, seen := seen } = readValue r s := rfl

theorem step_read {s : State} {r : BitVec 6} {rest : List HostMove} (hp : s.pending = none)
    (hh : s.host = .read r :: rest) (hv : holdsValue s.valid r.toNat = true) :
    step s = .next { s with host := rest, seen := s.seen ++ [.reg r (readValue r s)] } :=
  (step_hostMove hp hh).trans (if_pos ((regHasValue_eq r _).trans hv))

theorem step_read_invalid {s : State} {r : BitVec 6} {rest : List HostMove} (hp : s.pending = none)
    (hh : s.host = .read r :: rest) (hv : holdsValue s.valid r.toNat = false) :
    step s = .fault (.invalidResult r) := by
  rw [step_hostMove hp hh]
  refine if_neg ?_
  rw [regHasValue_eq, hv]
  exact Bool.false_ne_true

/-- Settles O6: a read adds one entry to what the host has seen, on which no register's value depends. The register map
is `regValue`, evaluated at each number. -/
theorem hostReadHasNoSideEffect : Obligations.HostReadHasNoSideEffect := by
  refine ⟨fun s r rest hp hh => ⟨fun hv hmeaning => ?_, fun hv => ?_, step_read_invalid hp hh⟩, fun s => rfl⟩
  · rw [step_read hp hh hv, readValue_eq hmeaning]
  · refine ⟨readValue r s, _, rfl, step_read hp hh hv, fun rest' hrest => ?_⟩
    have hagain := step_read (s := { s with host := rest, seen := s.seen ++ [.reg r (readValue r s)] }) hp hrest hv
    rwa [readValue_congr] at hagain

end Sys2Proof.Machine
end

section
/-! PROOFS. The four encoding spaces (30_encoding.md): the fields of a first byte are those it was put together from and
put it together again, the decoder undoes the encoder on every instruction that exists and the encoder the decoder on
every byte, and an opcode outside the table only writes `STATUS`. -/

namespace Sys2Proof.Machine

/-! ## The fields of a byte put together from fields (30_encoding.md R83, R84, R88) -/

@[simp] theorem formBit_vnFlags (low : BitVec 7) : formBit (vnFlags low) = true := by
  revert low; decide

@[simp] theorem bits_vnFlags (low : BitVec 7) : bits (vnFlags low) 0 7 = low := by
  revert low; decide

@[simp] theorem formBit_longFlags (fixed : Bool) (type reserved pnl : BitVec 2) :
    formBit (longFlags fixed type reserved pnl) = true := by
  revert fixed type reserved pnl; decide

@[simp] theorem longType_longFlags (fixed : Bool) (type reserved pnl : BitVec 2) :
    longType (longFlags fixed type reserved pnl) = type := by
  revert fixed type reserved pnl; decide

@[simp] theorem reserved_longFlags (fixed : Bool) (type reserved pnl : BitVec 2) :
    bits (longFlags fixed type reserved pnl) 2 2 = reserved := by
  revert fixed type reserved pnl; decide

@[simp] theorem pnlBits_longFlags (fixed : Bool) (type reserved pnl : BitVec 2) :
    pnlBits (longFlags fixed type reserved pnl) = pnl := by
  revert fixed type reserved pnl; decide

@[simp] theorem formBit_retryFlags (fixed : Bool) (unused : BitVec 4) : formBit (retryFlags fixed unused) = true := by
  revert fixed unused; decide

@[simp] theorem fixedBit_retryFlags (fixed : Bool) (unused : BitVec 4) :
    fixedBit (retryFlags fixed unused) = fixed := by
  revert fixed unused; decide

@[simp] theorem longType_retryFlags (fixed : Bool) (unused : BitVec 4) : longType (retryFlags fixed unused) = 3 := by
  revert fixed unused; decide

@[simp] theorem unused_retryFlags (fixed : Bool) (unused : BitVec 4) : bits (retryFlags fixed unused) 0 4 = unused := by
  revert fixed unused; decide

@[simp] theorem varIntClass_varIntFirst (cls : BitVec 2) (high : BitVec 6) :
    varIntClass (varIntFirst cls high) = cls := by
  revert cls high; decide

@[simp] theorem varIntHigh_varIntFirst (cls : BitVec 2) (high : BitVec 6) :
    varIntHigh (varIntFirst cls high) = high := by
  revert cls high; decide

/-! ## A byte is put together from its own fields -/

theorem vnFlags_fields {b : Byte} (h : formBit b = true) : vnFlags (bits b 0 7) = b := by
  revert b; decide

theorem longFlags_fields {b : Byte} (h : formBit b = true) :
    longFlags (fixedBit b) (longType b) (bits b 2 2) (pnlBits b) = b := by
  revert b; decide

/-- A long byte of type 3 is a Retry's: its low four bits are one field. -/
theorem retryFlags_fields {b : Byte} (h : formBit b = true) (ht : longType b = 3) :
    retryFlags (fixedBit b) (bits b 0 4) = b := by
  revert b; decide

theorem shortFlags_fields {b : Byte} (h : formBit b = false) :
    shortFlags (fixedBit b) (spinBit b) (bits b 3 2) (keyPhaseBit b) (pnlBits b) = b := by
  revert b; decide

theorem varIntFirst_fields (b : Byte) : varIntFirst (varIntClass b) (varIntHigh b) = b := by
  revert b; decide

/-! ## The decoder on what the encoder writes -/

theorem decodePacketFirst_shortFlags (fixed spin : Bool) (reserved : BitVec 2) (keyPhase : Bool) (pnl : BitVec 2) :
    decodePacketFirst false (shortFlags fixed spin reserved keyPhase pnl) =
      .pktShort fixed spin reserved keyPhase pnl := by
  revert fixed spin reserved keyPhase pnl; decide

/-- Settles O57, by the four spaces: an opcode is the table's, a first byte's fields select its class and are its
operands, and a tag's low bits are the frame's; only the DATAGRAM tags need well-formedness. -/
theorem decodeOfEncodeIsTheInstruction : Obligations.DecodeOfEncodeIsTheInstruction := by
  intro p i hwf
  cases i with
  | nop | vdec | venc | vsize | peek | hdrl | hdrs | pndec | pkt | frm => rfl
  | pktVersionNegotiation low | pktInitial fixed reserved pnl | pktZeroRtt fixed reserved pnl
  | pktHandshake fixed reserved pnl | pktRetry fixed unused =>
    simp [spaceOf, encode, decode, decodePacketFirst, packetKind, longKind, fixed_longFlags]
  | pktShort fixed spin reserved keyPhase pnl =>
    exact congrArg Except.ok (decodePacketFirst_shortFlags fixed spin reserved keyPhase pnl)
  | varint1B high | varint2B high | varint4B high | varint8B high =>
    simp [spaceOf, encode, decode, decodeVarIntFirst]
  | framePadding | framePing | frameResetStream | frameStopSending | frameCrypto | frameNewToken | frameMaxData
  | frameMaxStreamData | frameDataBlocked | frameStreamDataBlocked | frameNewConnectionId | frameRetireConnectionId
  | framePathChallenge | framePathResponse | frameHandshakeDone => rfl
  | frameAck low | frameMaxStreams low | frameStreamsBlocked low | frameConnectionClose low => cases low <;> rfl
  | frameStream off len fin => cases off <;> cases len <;> cases fin <;> rfl
  | frameDatagram len =>
    have hdatagram : p.datagramEnabled = true := hwf
    simp only [spaceOf, hdatagram]
    cases len <;> rfl

/-! ## The encoder on what the decoder reads -/

/-- The four values of a type or class field. -/
theorem bitVec2_cases (v : BitVec 2) : v = 0 ∨ v = 1 ∨ v = 2 ∨ v = 3 := by
  revert v; decide

theorem wf_and_encode_of_decodeCommand {p : Params} {op : Byte} {i : Instr} (h : decodeCommand op = .ok i) :
    i.wf p = true ∧ encode i = op := by
  unfold decodeCommand at h
  split_ifs at h <;> cases h <;> subst op <;> exact ⟨rfl, rfl⟩

theorem encode_decodeVarIntFirst (b : Byte) : encode (decodeVarIntFirst b) = b := by
  have hfields := varIntFirst_fields b
  unfold decodeVarIntFirst
  rcases bitVec2_cases (varIntClass b) with h | h | h | h <;> rw [h] at hfields ⊢ <;> exact hfields

theorem encode_decodePacketFirst (vn : Bool) (b : Byte) : encode (decodePacketFirst vn b) = b := by
  unfold decodePacketFirst packetKind
  cases hform : formBit b with
  | false => exact shortFlags_fields hform
  | true =>
    cases vn with
    | true => exact vnFlags_fields hform
    | false =>
      have hfields := longFlags_fields hform
      simp only [if_true, longKind, Bool.false_eq_true, if_false]
      rcases bitVec2_cases (longType b) with h | h | h | h <;> rw [h] at hfields ⊢
      iterate 3 exact hfields
      exact retryFlags_fields hform h

theorem encode_frameClass {datagram : Bool} {tag : Byte} {k : FrameKind} (h : frameKind datagram tag = some k) :
    encode (frameClass k tag) = tag := by
  have hall : ∀ (datagram : Bool) (tag : Byte), ∀ k ∈ frameKind datagram tag, encode (frameClass k tag) = tag := by
    decide
  exact hall datagram tag k h

/-- The kind of a tag is DATAGRAM only if `DATAGRAM_ENABLED = 1` (43_frame_dispatch.md R191). -/
theorem datagram_of_frameKind {datagram : Bool} {tag : Byte} (h : frameKind datagram tag = some .datagram) :
    datagram = true := by
  cases datagram with
  | true => rfl
  | false => exact absurd h (by revert tag; decide)

theorem wf_frameClass {p : Params} {tag : Byte} {k : FrameKind} (h : frameKind p.datagramEnabled tag = some k) :
    (frameClass k tag).wf p = true := by
  cases k with
  | datagram => exact datagram_of_frameKind h
  | _ => rfl

theorem wf_decodeVarIntFirst (p : Params) (b : Byte) : (decodeVarIntFirst b).wf p = true := by
  unfold decodeVarIntFirst
  rcases bitVec2_cases (varIntClass b) with h | h | h | h <;> rw [h] <;> rfl

theorem wf_decodePacketFirst (p : Params) (vn : Bool) (b : Byte) : (decodePacketFirst vn b).wf p = true := by
  unfold decodePacketFirst
  cases packetKind vn b <;> rfl

theorem decodeTag_eq_ok {datagram : Bool} {tag : Byte} {i : Instr} :
    decodeTag datagram tag = .ok i ↔ ∃ k, frameKind datagram tag = some k ∧ frameClass k tag = i := by
  unfold decodeTag
  cases frameKind datagram tag <;> simp

/-- Settles O58, by the spaces: a command's opcode, a first byte's fields and a tag's kind with its low bits each give
the byte back, and a DATAGRAM kind is one the block was built with. -/
theorem encodeOfDecodeIsTheByte : Obligations.EncodeOfDecodeIsTheByte := by
  intro p sp b i hsp h
  rcases hsp with rfl | rfl | rfl | rfl | rfl
  · exact wf_and_encode_of_decodeCommand h
  · cases h; exact ⟨wf_decodeVarIntFirst p b, encode_decodeVarIntFirst b⟩
  · cases h; exact ⟨wf_decodePacketFirst p true b, encode_decodePacketFirst true b⟩
  · cases h; exact ⟨wf_decodePacketFirst p false b, encode_decodePacketFirst false b⟩
  · obtain ⟨k, hk, rfl⟩ := decodeTag_eq_ok.1 h
    exact ⟨wf_frameClass hk, encode_frameClass hk⟩

/-! ## An opcode outside the table (30_encoding.md R82) -/

theorem decodeCommand_unassigned {op : Byte}
    (h : op ∉ [0x00, 0x01, 0x02, 0x03, 0x10, 0x11, 0x12, 0x13, 0x20, 0x30]) :
    decodeCommand op = .error (.unassignedOpcode op) := by
  simp only [List.mem_cons, List.not_mem_nil, or_false, not_or] at h
  simp only [decodeCommand, opNop, opVdec, opVenc, opVsize, opPeek, opHdrl, opHdrs, opPndec, opPkt, opFrm, h, if_false]

/-- A command that is neither PKT nor FRM never holds (70_reset_and_hazards.md R297). -/
theorem holds_of_not_appending {op : Byte} (hpkt : op ≠ opPkt) (hfrm : op ≠ opFrm) (s : State) :
    holds op s = false := by
  rw [holds, appends, beq_false_of_ne hpkt, beq_false_of_ne hfrm]
  rfl

/-- A command that decodes to nothing and does not hold is answered at once. -/
theorem step_badCommand {s : State} {op : Byte} {e : DecodeError} (hp : s.pending = some op) (hh : holds op s = false)
    (he : decodeCommand op = .error e) : step s = .next (badCommand op { s with pending := none }) := by
  simp only [step, hp, hh, Bool.false_eq_true, if_false, runOpcode, he]

/-- Settles O3: the opcode does not hold, decodes to nothing, and the step is the write of `STATUS` alone. -/
theorem unassignedOpcodeIsBadCommand : Obligations.UnassignedOpcodeIsBadCommand := by
  intro s op hp hop
  have hholds : holds op s = false :=
    holds_of_not_appending (fun h => hop (by simp [h, opPkt])) (fun h => hop (by simp [h, opFrm])) s
  rw [step_badCommand hp hholds (decodeCommand_unassigned hop), badCommand, statusWord_eq]
  rfl

/-- Settles O59: closed bytes, by evaluation. -/
theorem sampleBytesDecode : Obligations.SampleBytesDecode := by
  unfold Obligations.SampleBytesDecode
  decide

end Sys2Proof.Machine
end

section
/-! PROOFS. The VarInt codec (40_varint.md): the encoding is the shortest one, VENC and VSIZE write it or its size,
and VDEC reads one VarInt at `CUR`, back to the value it encodes. -/

namespace Sys2Proof.Machine

/-! ## The encoding (40_varint.md R113) -/

/-- A length holds a VarInt value exactly if it is no shorter than the encoded size. -/
theorem encodedSize_le_iff {v n : Nat} (hv : v ≤ varIntMax) (hn : n ∈ [1, 2, 4, 8]) :
    encodedSize v ≤ n ↔ v < 2 ^ (8 * n - 2) := by
  rw [varIntMax] at hv
  simp only [List.mem_cons, List.not_mem_nil, or_false] at hn
  unfold encodedSize
  rcases hn with rfl | rfl | rfl | rfl <;> split_ifs <;> omega

theorem encodedSize_mem (v : Nat) : encodedSize v ∈ [1, 2, 4, 8] := by
  simpa using encodedSize_cases v

/-- A VarInt value fits the value bits of its encoding. -/
theorem lt_of_encodedSize {v : Nat} (hv : v ≤ varIntMax) : v < 2 ^ (8 * encodedSize v - 2) :=
  (encodedSize_le_iff hv (encodedSize_mem v)).1 le_rfl

theorem two_pow_sizeClass (v : Nat) : 2 ^ sizeClass (encodedSize v) = encodedSize v := by
  rcases encodedSize_cases v with h | h | h | h <;> rw [h] <;> rfl

/-- The class and the value of an encoding have no bit in common. -/
theorem encWord_eq {v : Nat} (hv : v ≤ varIntMax) :
    encWord v = sizeClass (encodedSize v) * 2 ^ (8 * encodedSize v - 2) + v := by
  rw [encWord, ← Nat.shiftLeft_add_eq_or_of_lt (lt_of_encodedSize hv), Nat.shiftLeft_eq]

theorem encWord_lt {v : Nat} (hv : v ≤ varIntMax) : encWord v < 2 ^ (8 * encodedSize v) := by
  have hfit := lt_of_encodedSize hv
  rw [encWord_eq hv]
  rcases encodedSize_cases v with h | h | h | h <;> rw [h] at hfit ⊢ <;> simp [sizeClass] <;> omega

/-- Settles O11: the encoded size is the least length that holds the value, so the class stands above it. -/
theorem encodingIsTheShortest : Obligations.EncodingIsTheShortest := fun v hv =>
  ⟨encodedSize_mem v, lt_of_encodedSize hv, fun _ hn hfit => (encodedSize_le_iff hv hn).2 hfit,
    sizeClass (encodedSize v), two_pow_sizeClass v, encWord_eq hv, encWord_lt hv⟩

/-! ## VENC and VSIZE (40_varint.md R114, R115) -/

/-- VENC and VSIZE at a value of the VarInt range. -/
theorem argCommand_ok {s : State} (h : s.arg.toNat < 2 ^ 62) (op : Byte) (u : State) :
    runCommand op s (if varIntMax < s.arg.toNat then raise .outOfRange 0 else .ok u) =
      .next { u with status := statusWord .ok op } := by
  rw [if_neg (by rw [varIntMax]; omega), runCommand_ok]

/-- VENC and VSIZE past the VarInt range: OUT_OF_RANGE at 0. -/
theorem argCommand_outOfRange {s : State} (h : 2 ^ 62 ≤ s.arg.toNat) (op : Byte) (u : State) :
    runCommand op s (if varIntMax < s.arg.toNat then raise .outOfRange 0 else .ok u) =
      .next (failed s (statusWord .outOfRange op) (clearsOf op) 0) := by
  rw [if_pos (by rw [varIntMax]; omega), runCommand_raise, abort_eq_failed]
  rfl

theorem w64_encodedSize (v : Nat) :
    w64 (encodedSize v) = if v < 64 then 1 else if v < 16384 then 2 else if v < 1073741824 then 4 else 8 := by
  simp only [w64, encodedSize, apply_ite (BitVec.ofNat 64)]
  rfl

/-- Settles O12, by the range check. -/
theorem vencEncodes : Obligations.VencEncodes := by
  refine fun s => ⟨fun h => (argCommand_ok h opVenc _).trans ?_, fun h => argCommand_outOfRange h opVenc _⟩
  rw [setValid_set]
  rfl

/-- Settles O13, by the range check. -/
theorem vsizeSizes : Obligations.VsizeSizes := by
  refine fun s => ⟨fun h => (argCommand_ok h opVsize _).trans ?_, fun h => argCommand_outOfRange h opVsize _⟩
  rw [w64_encodedSize]
  rfl

/-! ## VDEC and its classes (40_varint.md R111, R112) -/

/-- The state VDEC leaves after a VarInt of `n` bytes and the value `v` at `CUR`. -/
def afterVarInt (v n : Nat) (s : State) : State :=
  { s with
    vi := { value := BitVec.ofNat 64 v, len := BitVec.ofNat 64 n, bytes := s.vi.bytes }
    valid := s.valid &&& ~~~0x04 ||| 0x03
    cur := BitVec.ofNat 64 (s.cur.toNat + n)
    status := 0x0100 }

theorem runCommand_commitVarInt (v : U62) (n : Nat) (s : State) :
    runCommand opVdec s (.ok (commitVarInt v n (s.cur.toNat + n) s)) = .next (afterVarInt v.toNat n s) := by
  rw [runCommand_ok, commitVarInt, zext62_eq]
  rfl

/-- A failed VDEC. -/
theorem runCommand_vdec_raise (s : State) (e : Err) (o : Nat) :
    runCommand opVdec s (raise e o) = .next (failed s (statusWord (errCode e) opVdec) 0x07 o) := by
  rw [runCommand_raise, abort_eq_failed]
  rfl

/-- The first byte's six bits and the bytes after it make a value of 62 bits at most. -/
theorem classValue_lt (cls : BitVec 2) (high : BitVec 6) {x : Nat} (hx : x < 256 ^ (varIntLen cls - 1)) :
    high.toNat * 256 ^ (varIntLen cls - 1) + x < 2 ^ 62 := by
  have hhigh := high.isLt
  rcases varIntLen_cases cls with h | h | h | h <;> rw [h] at hx ⊢ <;> omega

/-- A VarInt class whose bytes are there. -/
theorem vdecClass_ok {cls : BitVec 2} {high : BitVec 6} {s : State} {x : Nat} (hw : packetWindow s = true)
    (hx : valueAt s.mem (s.cur.toNat + 1) (varIntLen cls - 1) = some x)
    (hl : s.cur.toNat + varIntLen cls ≤ s.limit.toNat) :
    vdecClass cls high s =
      .next (afterVarInt (high.toNat * 256 ^ (varIntLen cls - 1) + x) (varIntLen cls) s) := by
  have hpos := varIntLen_pos cls
  have hneed : need ⟨s.mem, s.limit.toNat⟩ s.cur.toNat 1 = .ok () := need_ok (by simp only; omega)
  have hmore := (varIntMore_eq_ok (w := ⟨s.mem, s.limit.toNat⟩) (v := high.toNat)).2
    ⟨.inr (by simp only; omega), rfl, x, hx, rfl⟩
  have hcur : s.cur.toNat + 1 + (varIntLen cls - 1) = s.cur.toNat + varIntLen cls := by omega
  simp only [vdecClass, beginPacket_ok hw, ok_bind, hneed, varIntTail, hmore, hcur, runCommand_commitVarInt]
  rw [BitVec.toNat_ofNat, Nat.mod_eq_of_lt (classValue_lt cls high (valueAt_lt hx))]

/-- Settles O15: the four classes are one reader at four lengths. -/
theorem varIntClassesDecode : Obligations.VarIntClassesDecode := fun _ _ _ hw =>
  ⟨fun ⟨hx, hl⟩ => vdecClass_ok (cls := 0) hw hx hl, fun ⟨hx, hl⟩ => vdecClass_ok (cls := 1) hw hx hl,
    fun ⟨hx, hl⟩ => vdecClass_ok (cls := 2) hw hx hl, fun ⟨hx, hl⟩ => vdecClass_ok (cls := 3) hw hx hl⟩

theorem execVarIntFirst_eq (b : Byte) (s : State) :
    execVarIntFirst b s = vdecClass (varIntClass b) (varIntHigh b) s := by
  unfold execVarIntFirst
  rcases bitVec2_cases (varIntClass b) with h | h | h | h <;> rw [h] <;> rfl

/-- Settles O16: the byte VDEC looks at is the one that stands at `CUR`. -/
theorem vdecRunsTheClassItMeets : Obligations.VdecRunsTheClassItMeets := by
  intro s b hw hlt hb
  have hpeek := (peekByte_eq_ok (w := ⟨s.mem, s.limit.toNat⟩)).2 ⟨hlt, hb⟩
  have hfirst : varIntFirstAt s = .ok b := by simp only [varIntFirstAt, beginPacket_ok hw, ok_bind, hpeek]
  rw [exec_decodeVarIntFirst, exec, execVdec, hfirst]

/-- VDEC is `ReadVarInt()` in the packet window: looking at the first byte to choose the class reads no other byte and
fails no other check. -/
theorem execVdec_eq_readVarInt (s : State) :
    execVdec s = runCommand opVdec s (do
      let (w, c) ← beginPacket s
      let ((v, n), c) ← readVarInt w c
      .ok (commitVarInt v n c s)) := by
  unfold execVdec varIntFirstAt
  rcases hbegin : beginPacket s with e | ⟨w, c⟩
  · rfl
  simp only [ok_bind, readVarInt, readByte, peekByte]
  rcases hneed : need w c 1 with e | u
  · rfl
  rcases hbyte : memByte w c with e | b
  · rfl
  simp only [ok_bind, execVarIntFirst_eq, vdecClass, hbegin, hneed]

theorem execVdec_of_readVarInt {s : State} (hw : packetWindow s = true) :
    execVdec s = runCommand opVdec s (do
      let ((v, n), c) ← readVarInt ⟨s.mem, s.limit.toNat⟩ s.cur.toNat
      .ok (commitVarInt v n c s)) := by
  rw [execVdec_eq_readVarInt, beginPacket_ok hw, ok_bind]

/-- VDEC at a VarInt that ends before `LIMIT`. -/
theorem execVdec_whole {s : State} {v : U62} {n : Nat} (hw : packetWindow s = true)
    (hv : varIntAt s.mem s.cur.toNat = some (v, n)) (hl : s.cur.toNat + n ≤ s.limit.toNat) :
    execVdec s = .next (afterVarInt v.toNat n s) := by
  have hread := (readVarInt_eq_ok (w := ⟨s.mem, s.limit.toNat⟩)).2 ⟨hv, hl, rfl⟩
  rw [execVdec_of_readVarInt hw, hread, ok_bind, runCommand_commitVarInt]

/-- VDEC at a VarInt that `LIMIT` cuts, in written input. -/
theorem execVdec_cut {s : State} (hw : packetWindow s = true) (hwritten : writtenFrom s.mem s.cur.toNat s.limit.toNat)
    (h : ∀ v n, varIntAt s.mem s.cur.toNat = some (v, n) → s.limit.toNat < s.cur.toNat + n) :
    execVdec s = .next (failed s 0x0101 0x07 s.limit.toNat) := by
  obtain ⟨⟨hle, -⟩, -⟩ := beginPacket_eq_ok.1 (beginPacket_ok hw)
  rw [execVdec_of_readVarInt hw, readVarInt_cut hle hwritten h, raise_bind, runCommand_vdec_raise]
  rfl

theorem execVdec_badCursor {s : State} (hw : packetWindow s = false) :
    execVdec s = .next (failed s 0x0102 0x07 s.cur.toNat) := by
  rw [execVdec_eq_readVarInt, beginPacket_bad hw, raise_bind, runCommand_vdec_raise]
  rfl

/-- A VarInt stands where its first byte does, with the bytes that its class counts after it. -/
theorem varIntAt_iff {m : Memory} {a n : Nat} {v : U62} :
    varIntAt m a = some (v, n) ↔
      ∃ b x, m.read a = some b ∧ n = 2 ^ (b.toNat / 64) ∧ valueAt m (a + 1) (n - 1) = some x ∧
        v = BitVec.ofNat 62 (b.toNat % 64 * 256 ^ (n - 1) + x) := by
  unfold varIntAt
  cases m.read a with
  | none => simp
  | some b =>
    simp only [Option.map_eq_some_iff, Prod.mk.injEq, Option.some.injEq]
    constructor
    · rintro ⟨x, hx, rfl, rfl⟩
      exact ⟨b, x, rfl, rfl, hx, rfl⟩
    · rintro ⟨_, x, rfl, rfl, hx, rfl⟩
      exact ⟨x, hx, rfl, rfl⟩

/-- Settles O14, by what `ReadVarInt()` answers: the VarInt, TRUNCATED at `LIMIT`, or no sound window to read in. -/
theorem vdecDecodes : Obligations.VdecDecodes := by
  refine fun s => ⟨fun _ _ hw hv hl => execVdec_whole hw hv hl, fun hw hwritten hcut => ?_,
    fun hw => execVdec_badCursor hw⟩
  refine execVdec_cut hw hwritten fun v n hv => ?_
  obtain ⟨b, x, hb, rfl, -, -⟩ := varIntAt_iff.1 hv
  rcases Nat.lt_or_ge s.cur.toNat s.limit.toNat with hlt | hge
  · exact hcut b hlt hb
  · have := varIntAt_pos hv
    omega

/-! ## Decoding an encoding (40_varint.md R116) -/

/-- The first byte and the bytes after it, as the class and the value they hold: a word has one such pair. -/
theorem class_and_value_of_word {b cls v x k : Nat} (hx : x < 256 ^ k) (hv : v < 64 * 256 ^ k)
    (h : b * 256 ^ k + x = cls * (64 * 256 ^ k) + v) : b / 64 = cls ∧ b % 64 * 256 ^ k + x = v := by
  have hpos : 0 < 64 * 256 ^ k := by positivity
  have hlow : b % 64 * 256 ^ k + x < 64 * 256 ^ k :=
    calc b % 64 * 256 ^ k + x < (b % 64 + 1) * 256 ^ k := by rw [Nat.succ_mul]; omega
      _ ≤ 64 * 256 ^ k := Nat.mul_le_mul_right _ (Nat.mod_lt b (by decide))
  have hsplit : b % 64 * 256 ^ k + x + 64 * 256 ^ k * (b / 64) = v + 64 * 256 ^ k * cls :=
    calc _ = (b % 64 + 64 * (b / 64)) * 256 ^ k + x := by ring
      _ = cls * (64 * 256 ^ k) + v := by rw [Nat.mod_add_div, h]
      _ = v + 64 * 256 ^ k * cls := by ring
  obtain ⟨hdiv, hmod⟩ := (Nat.div_mod_unique hpos).2 ⟨hsplit, hlow⟩
  obtain ⟨hdiv', hmod'⟩ := (Nat.div_mod_unique hpos).2 ⟨rfl, hv⟩
  exact ⟨hdiv.symm.trans hdiv', hmod.symm.trans hmod'⟩

/-- The value bits of `k + 1` bytes: six in the first byte, all of the others. -/
theorem valueBits_succ (k : Nat) : 2 ^ (8 * (k + 1) - 2) = 64 * 256 ^ k := by
  rw [show 8 * (k + 1) - 2 = 6 + 8 * k by omega, pow_add, pow_mul]
  norm_num

/-- Where the bytes of `Enc(v)` stand, the VarInt `v` stands. -/
theorem varIntAt_of_encWord {m : Memory} {a v : Nat} (hv : v ≤ varIntMax)
    (h : valueAt m a (encodedSize v) = some (encWord v)) :
    varIntAt m a = some (BitVec.ofNat 62 v, encodedSize v) := by
  have hfit := lt_of_encodedSize hv
  have hclass := two_pow_sizeClass v
  rw [encWord_eq hv] at h
  have hpos : encodedSize v ≠ 0 := by have := encodedSize_cases v; omega
  obtain ⟨k, hk⟩ := Nat.exists_eq_succ_of_ne_zero hpos
  rw [Nat.succ_eq_add_one] at hk
  rw [hk] at h hfit hclass ⊢
  rw [valueBits_succ] at h hfit
  obtain ⟨b, x, hb, hx, hword⟩ := valueAt_cons_iff.1 h
  obtain ⟨hcls, hval⟩ := class_and_value_of_word (valueAt_lt hx) hfit hword.symm
  exact varIntAt_iff.2 ⟨b, x, hb, by rw [hcls, hclass], hx, by rw [← hval]; rfl⟩

/-- Settles O17: the encoding is a VarInt that stands at `CUR`, and VDEC reads it. -/
theorem decodingAnEncodingGivesItBack : Obligations.DecodingAnEncodingGivesItBack := by
  intro s v hv hw henc hl
  refine ⟨_, execVdec_whole hw (varIntAt_of_encWord hv henc) hl, ?_, ?_⟩
  · rw [varIntMax] at hv
    simp only [afterVarInt, BitVec.toNat_ofNat]
    omega
  · have := encodedSize_cases v
    simp only [afterVarInt, BitVec.toNat_ofNat]
    omega

end Sys2Proof.Machine
end

section
/-! PROOFS. The header parser (41_header.md): NOP, PEEK, HDRL, HDRS and PNDEC, and PKT where a header fails. -/

namespace Sys2Proof.Machine

/-! ## A failure in a sound packet window (60_exceptions.md R262) -/

/-- A command that fails in a sound packet window. -/
theorem runCommand_packet_raise {op : Byte} {s : State} {g : Window × Nat → Except Stop State} {e : Err} {o : Nat}
    (hw : packetWindow s = true) (h : g (⟨s.mem, s.limit.toNat⟩, s.cur.toNat) = raise e o) :
    runCommand op s (beginPacket s >>= g) =
      .next (failed s (statusWord (errCode e) op) (clearsOf op) o) := by
  rw [beginPacket_ok hw, ok_bind, h, runCommand_raise, abort_eq_failed]

/-! ## NOP and PEEK (41_header.md R130, R131) -/

/-- Settles O18: NOP's body is empty, and OK with opcode 0 is the word 0. -/
theorem nopWritesStatusOnly : Obligations.NopWritesStatusOnly := fun s => runCommand_ok opNop s s

theorem flagWord_formBit (b : Byte) : flagWord (formBit b) = BitVec.ofNat 64 (b.toNat / 128) := by
  revert b; decide

/-- Settles O19, by what `PeekByte()` answers: the byte, TRUNCATED at the limit, or no sound window to look in. -/
theorem peekShowsTheForm : Obligations.PeekShowsTheForm := by
  refine fun s => ⟨fun b hw hlt hb => ?_, fun hw hlim => ?_, runCommand_badPacketWindow⟩
  · have hpeek := (peekByte_eq_ok (w := ⟨s.mem, s.limit.toNat⟩)).2 ⟨hlt, hb⟩
    simp only [exec, execPeek, beginPacket_ok hw, ok_bind, hpeek, runCommand_ok, flagWord_formBit, setValid_set]
    rfl
  · have hcut : s.limit.toNat < s.cur.toNat + 1 := by rw [hlim]; exact Nat.lt_succ_self _
    refine runCommand_packet_raise (e := .truncated) hw ?_
    simp only [peekByte_cut (w := ⟨s.mem, s.limit.toNat⟩) hcut, raise_bind]

/-! ## PNDEC (41_header.md R147) -/

/-- A field of at most 4 bytes fits the packet number's 32 bits. -/
theorem zext32_of_valueAt {m : Memory} {a n v : Nat} (h : valueAt m a n = some v) (hn : n ≤ 4) :
    zext32 (BitVec.ofNat 32 v) = BitVec.ofNat 64 v := by
  have hv : v < 2 ^ 32 := (valueAt_lt h).trans_le (Nat.pow_le_pow_right (by decide) hn)
  rw [zext32_eq, BitVec.toNat_ofNat, Nat.mod_eq_of_lt hv]

/-- Settles O24, by the check of the width and then by what `ReadPN()` answers. -/
theorem pndecReadsTheGivenWidth : Obligations.PndecReadsTheGivenWidth := by
  refine fun s => ⟨fun v hw hone hfour hv hl => ?_, fun hw hwidth => ?_, fun hw hone hfour hcut => ?_,
    runCommand_badPacketWindow⟩
  · have hread := (readPn_eq_ok (w := ⟨s.mem, s.limit.toNat⟩)).2 ⟨v, hv, rfl, hl, rfl⟩
    have hwidth : ¬ (s.arg.toNat < 1 ∨ 4 < s.arg.toNat) := by omega
    simp only [exec, execPndec, beginPacket_ok hw, ok_bind, if_neg hwidth, hread, runCommand_ok,
      zext32_of_valueAt hv hfour, w64_toNat]
    rfl
  · exact runCommand_packet_raise (e := .outOfRange) hw (if_pos hwidth)
  · have hwidth : ¬ (s.arg.toNat < 1 ∨ 4 < s.arg.toNat) := by omega
    refine runCommand_packet_raise (e := .truncated) hw ?_
    simp only [if_neg hwidth, readPn, readN_cut (w := ⟨s.mem, s.limit.toNat⟩) hcut, raise_bind]

/-! ## `DecodeLong()` and `DecodeShort()` by the first byte (41_header.md R133, R136) -/

theorem formBit_of_ge {b : Byte} (h : 128 ≤ b.toNat) : formBit b = true := by rw [formBit_eq, decide_eq_true h]

theorem formBit_of_lt {b : Byte} (h : b.toNat < 128) : formBit b = false := by
  rw [formBit_eq, decide_eq_false (by omega)]

theorem decodeLong_eq {w : Window} {c : Nat} {flags : Byte} (hl : c + 1 ≤ w.lim) (hb : w.mem.read c = some flags)
    (enforce : Bool) :
    decodeLong enforce w c =
      if formBit flags then longFields enforce flags c w (c + 1) else raise .malformedTag c := by
  rw [decodeLong, readByte_eq_ok.2 ⟨hl, hb, rfl⟩, ok_bind]

/-- A configured length above 20 is refused before anything is read. -/
theorem checkShortDcidLen_long {ctrl : Word} (h : 20 < shortDcidLen ctrl) (start : Nat) :
    checkShortDcidLen ctrl start = raise .outOfRange start := if_pos h

theorem decodeShort_eq {ctrl : Word} {w : Window} {c : Nat} {flags : Byte} (hlen : shortDcidLen ctrl ≤ 20)
    (hl : c + 1 ≤ w.lim) (hb : w.mem.read c = some flags) :
    decodeShort ctrl w c =
      if formBit flags then raise .malformedTag c else shortFields ctrl flags c w (c + 1) := by
  rw [decodeShort, checkShortDcidLen_ok hlen, ok_bind, readByte_eq_ok.2 ⟨hl, hb, rfl⟩, ok_bind]

/-! ## A whole header (41_header.md R138, R139) -/

/-- What HDRL and HDRS write, with their `STATUS`, in the terms statements use. -/
theorem commitHeader_eq_afterHeader (h : Header) (start c : Nat) (s : State) (status : Word) :
    { commitHeader h start c s with status := status } =
      afterHeader s status (headerRegs h start) h.slices c := rfl

/-- Settles O20: the fields read are those of the header that stands at `CUR`, and its registers are their
arithmetic. -/
theorem hdrlDecodesALongHeader : Obligations.HdrlDecodesALongHeader := by
  intro s flags version dcid scid hw hb hform hhdr hfixed hl
  have hfirst : s.cur.toNat + 1 ≤ s.limit.toNat := by omega
  have hread : decodeLong (enforceFixedBit s.ctrl) ⟨s.mem, s.limit.toNat⟩ s.cur.toNat =
      .ok (.long flags version dcid scid, s.cur.toNat + (7 + dcid.len + scid.len)) := by
    rw [decodeLong_eq hfirst hb, formBit_of_ge hform, if_pos rfl, longFields_ok hhdr hfixed hl]
  simp only [exec, execHdrl, beginPacket_ok hw, ok_bind, hread, runCommand_ok, commitHeader_eq_afterHeader,
    headerRegs_long]
  rfl

/-- Settles O21: the fields read are the first byte and a connection ID of the configured length. -/
theorem hdrsDecodesAShortHeader : Obligations.HdrsDecodesAShortHeader := by
  intro s flags hw hb hform hlen hfixed hl
  have hfirst : s.cur.toNat + 1 ≤ s.limit.toNat := by omega
  have hend : s.cur.toNat + 1 + shortDcidLen s.ctrl ≤ s.limit.toNat := by omega
  have hread : decodeShort s.ctrl ⟨s.mem, s.limit.toNat⟩ s.cur.toNat =
      .ok (.short flags ⟨s.cur.toNat + 1, shortDcidLen s.ctrl⟩, s.cur.toNat + 1 + shortDcidLen s.ctrl) := by
    rw [decodeShort_eq hlen hfirst hb, formBit_of_lt hform, if_neg Bool.false_ne_true, shortFields_ok hfixed hend]
  simp only [exec, execHdrs, beginPacket_ok hw, ok_bind, hread, runCommand_ok, commitHeader_eq_afterHeader,
    headerRegs_short, Nat.add_assoc]
  rfl

/-! ## A header that fails (60_exceptions.md R264) -/

theorem execHdrl_decodeLong_raise {s : State} {e : Err} {o : Nat} (hw : packetWindow s = true)
    (h : decodeLong (enforceFixedBit s.ctrl) ⟨s.mem, s.limit.toNat⟩ s.cur.toNat = raise e o) :
    execHdrl s = .next (failed s (statusWord (errCode e) opHdrl) (clearsOf opHdrl) o) :=
  runCommand_packet_raise hw (by simp only [h, raise_bind])

theorem execHdrs_decodeShort_raise {s : State} {e : Err} {o : Nat} (hw : packetWindow s = true)
    (h : decodeShort s.ctrl ⟨s.mem, s.limit.toNat⟩ s.cur.toNat = raise e o) :
    execHdrs s = .next (failed s (statusWord (errCode e) opHdrs) (clearsOf opHdrs) o) :=
  runCommand_packet_raise hw (by simp only [h, raise_bind])

/-- PKT at a short header that fails its check of the configured length or in its fields (42_packet.md R160). -/
theorem execPkt_short_raise {s : State} {b : Byte} {e : Err} {o : Nat} (hw : packetWindow s = true)
    (hlt : s.cur.toNat < s.limit.toNat) (hb : s.mem.read s.cur.toNat = some b) (hf : formBit b = false)
    (h : (checkShortDcidLen s.ctrl s.cur.toNat >>= fun _ =>
      shortFields s.ctrl b s.cur.toNat ⟨s.mem, s.limit.toNat⟩ (s.cur.toNat + 1)) = raise e o) :
    execPkt s = .next (failed s (statusWord (errCode e) opPkt) (clearsOf opPkt) o) := by
  have hneed : need ⟨s.mem, s.limit.toNat⟩ s.cur.toNat 1 = .ok () := need_ok hlt
  rw [execPkt_short hw hlt hb hf]
  refine runCommand_packet_raise hw ?_
  simp only [hneed, ok_bind]
  rw [← bind_assoc, h, raise_bind]

/-- HDRL and PKT fail alike in the fields of a long header. -/
theorem longHeader_raise {s : State} {flags : Byte} {v : Nat} {e : Err} {o : Nat} (hw : packetWindow s = true)
    (hb : s.mem.read s.cur.toNat = some flags) (hform : 128 ≤ flags.toNat) (hl : s.cur.toNat + 5 ≤ s.limit.toNat)
    (hv : valueAt s.mem (s.cur.toNat + 1) 4 = some v)
    (h : longFields (enforceFixedBit s.ctrl) flags s.cur.toNat ⟨s.mem, s.limit.toNat⟩ (s.cur.toNat + 1) = raise e o) :
    execHdrl s = .next (failed s (statusWord (errCode e) opHdrl) (clearsOf opHdrl) o) ∧
      execPkt s = .next (failed s (statusWord (errCode e) opPkt) (clearsOf opPkt) o) :=
  ⟨execHdrl_raise hw hb (formBit_of_ge hform) (by omega) h, execPkt_raise hw hb (formBit_of_ge hform) hl hv h⟩

/-- HDRL and PKT where a long header begins and one of its connection IDs fails. -/
theorem longStart_raise {s : State} {flags : Byte} {e : Err} {o : Nat} (hs : longStart s flags)
    (h : longFields (enforceFixedBit s.ctrl) flags s.cur.toNat ⟨s.mem, s.limit.toNat⟩ (s.cur.toNat + 1) = raise e o) :
    execHdrl s = .next (failed s (statusWord (errCode e) opHdrl) (clearsOf opHdrl) o) ∧
      execPkt s = .next (failed s (statusWord (errCode e) opPkt) (clearsOf opPkt) o) := by
  obtain ⟨hw, hb, hform, hl, v, hv, -⟩ := hs
  exact longHeader_raise hw hb hform hl hv h

/-! ## An enforced fixed bit that is clear (41_header.md R134, R135) -/

theorem fixedBit_clear {b : Byte} (h : b.toNat / 64 % 2 = 0) : fixedBit b = false := by
  rw [fixedBit_eq, decide_eq_false (by omega)]

theorem enforceFixedBit_set {ctrl : Word} (h : ctrl.toNat % 2 = 1) : enforceFixedBit ctrl = true := by
  rw [enforceFixedBit_eq, decide_eq_true h]

/-- The four bytes of a version hold 0 only for version 0. -/
theorem version_ne_zero {m : Memory} {a v : Nat} (h : valueAt m a 4 = some v) (hv : v ≠ 0) :
    (BitVec.ofNat 32 v : U32) ≠ 0 := by
  have hlt : v < 2 ^ 32 := valueAt_lt h
  intro hzero
  have hmod : v % 2 ^ 32 = 0 := by simpa using congrArg BitVec.toNat hzero
  exact hv (by rwa [Nat.mod_eq_of_lt hlt] at hmod)

theorem longFields_fixedBit_clear {ctrl : Word} {flags : Byte} {start c v : Nat} {w : Window}
    (he : ctrl.toNat % 2 = 1) (hclear : flags.toNat / 64 % 2 = 0) (hl : c + 4 ≤ w.lim)
    (hv : valueAt w.mem c 4 = some v) (hne : v ≠ 0) :
    longFields (enforceFixedBit ctrl) flags start w c = raise .malformedTag start := by
  rw [longFields, readN_eq_ok.2 ⟨hl, hv, rfl⟩]
  simp only [ok_bind, fixedBitCheckLong, enforceFixedBit_set he, fixedBit_clear hclear,
    bne_iff_ne.2 (version_ne_zero hv hne), Bool.not_false, Bool.and_self, if_true, raise_bind]

theorem shortFields_fixedBit_clear {ctrl : Word} {flags : Byte} (he : ctrl.toNat % 2 = 1)
    (hclear : flags.toNat / 64 % 2 = 0) (start c : Nat) (w : Window) :
    shortFields ctrl flags start w c = raise .malformedTag start := by
  simp only [shortFields, fixedBitCheckShort, enforceFixedBit_set he, fixedBit_clear hclear, Bool.not_false,
    Bool.and_self, if_true, raise_bind]

/-- Settles O22: the form bit is checked before any field, the fixed bit of a long header once its version is read. -/
theorem wrongFirstByteIsMalformed : Obligations.WrongFirstByteIsMalformed := by
  intro s flags hw hlt hb
  have hfirst : s.cur.toNat + 1 ≤ s.limit.toNat := hlt
  refine ⟨fun hform => ?_, fun hform hlen => ?_, fun v hform he hclear hv hne hl => ?_,
    fun hform he hclear hlen => ⟨?_, ?_⟩⟩
  · refine execHdrl_decodeLong_raise (e := .malformedTag) hw ?_
    rw [decodeLong_eq hfirst hb, formBit_of_lt hform, if_neg Bool.false_ne_true]
  · refine execHdrs_decodeShort_raise (e := .malformedTag) hw ?_
    rw [decodeShort_eq hlen hfirst hb, formBit_of_ge hform, if_pos rfl]
  · have hversion : s.cur.toNat + 1 + 4 ≤ s.limit.toNat := hl
    exact longHeader_raise hw hb hform hl hv (longFields_fixedBit_clear he hclear hversion hv hne)
  · refine execHdrs_decodeShort_raise (e := .malformedTag) hw ?_
    rw [decodeShort_eq hlen hfirst hb, formBit_of_lt hform, if_neg Bool.false_ne_true,
      shortFields_fixedBit_clear he hclear]
  · refine execPkt_short_raise (e := .malformedTag) hw hlt hb (formBit_of_lt hform) ?_
    rw [checkShortDcidLen_ok hlen, ok_bind, shortFields_fixedBit_clear he hclear]

/-! ## A connection ID that is too long (41_header.md R132, R136) -/

/-- Settles O23, by where `ReadCID()` meets the length, and by the check of the configured length. -/
theorem longConnectionIdIsOutOfRange : Obligations.LongConnectionIdIsOutOfRange := by
  refine fun s => ⟨fun flags n hs hn hlong hl => ?_, fun flags dl n hs hdl hle hn hlong hl => ?_, fun hw hlong =>
    ⟨?_, fun flags hb hform hlt => ?_⟩⟩
  · exact longStart_raise hs (longFields_dcid_raise hs (readCid_long hn hlong hl))
  · have hend : s.cur.toNat + 6 + dl.toNat + 1 ≤ s.limit.toNat := by omega
    exact longStart_raise hs (longFields_scid_raise hs hdl hle (by omega) (readCid_long hn hlong hend))
  · refine execHdrs_decodeShort_raise (e := .outOfRange) hw ?_
    rw [decodeShort, checkShortDcidLen_long hlong, raise_bind]
  · refine execPkt_short_raise (e := .outOfRange) hw hlt hb (formBit_of_lt hform) ?_
    rw [checkShortDcidLen_long hlong, raise_bind]

end Sys2Proof.Machine
end

section
/-! PROOFS. What the packet and frame commands leave unchanged (10_state.md R42; 42_packet.md R160; 43_frame_dispatch.md
R190): the other units, and all but the end of the queue. -/

namespace Sys2Proof.Machine

/-- What PKT and FRM write ends with their record. -/
theorem Wrote.evq_snoc {s u : State} {op : Byte} (h : Wrote s op u) (hop : op = opPkt ∨ op = opFrm) :
    ∃ e : Event, u.evq = s.evq ++ [e] := by
  cases h with
  | packet h t c _ _ _ _ _ => exact ⟨_, rfl⟩
  | frame k tag x c _ _ _ => exact ⟨_, rfl⟩
  | _ => exact absurd hop (by decide)

/-- PKT and FRM append one record if their code is OK, and none otherwise (10_state.md R42). -/
theorem Outcome.evq_append_of_code {s t : State} {op : Byte} (h : Outcome s op t) (hop : op = opPkt ∨ op = opFrm) :
    ∃ l : List Event, t.evq = s.evq ++ l ∧ l.length = if t.status.toNat % 16 = 0 then 1 else 0 := by
  cases h with
  | done u hu =>
    obtain ⟨e, he⟩ := hu.evq_snoc hop
    exact ⟨[e], he, (if_pos (statusWord_code .ok op)).symm⟩
  | ended _ =>
    have hcode : (statusWord .endOfWindow opFrm).toNat % 16 ≠ 0 := by decide
    exact ⟨[], (List.append_nil _).symm, (if_neg hcode).symm⟩
  | aborted e o =>
    have hcode : (abort op e o s).status.toNat % 16 ≠ 0 := by
      rw [abort_status, statusWord_code]
      cases e <;> decide
    exact ⟨[], (List.append_nil _).symm, (if_neg hcode).symm⟩

/-- Settles O51, by the fields of each unit and by the records of a command's outcomes. -/
theorem packetAndFrameCommandsKeepTheRest : Obligations.PacketAndFrameCommandsKeepTheRest := by
  intro i s t h
  have hout := exec_outcome h
  have hunit := hout.eq_unitChange
  refine ⟨fun hpkt => ?_, fun hfrm => ?_, hout.evq_append_of_code⟩
  · rw [hpkt] at hunit
    exact hunit
  · rw [hfrm] at hunit
    exact hunit

end Sys2Proof.Machine
end

section
/-! PROOFS. The packet reader (42_packet.md): PKT's choice of class, and the six classes on packets that are there and
on packets that are cut. -/

namespace Sys2Proof.Machine

/-! ## PKT's choice of class (42_packet.md R160, R161) -/

/-- Settles O26: the peeked byte, and behind a long one the version, are what the decoder goes by. -/
theorem pktRunsTheClassItMeets : Obligations.PktRunsTheClassItMeets := by
  refine fun s b hw hlt hb => ⟨fun hform => ?_, fun v hform hl hv => ?_⟩
  · rw [exec_decodePacketFirst]
    simp only [exec, execPkt, packetFirstAt_short hw hlt hb (formBit_of_lt hform)]
  · rw [exec_decodePacketFirst]
    simp only [exec, execPkt, packetFirstAt_long hw hb (formBit_of_ge hform) hl hv]

/-! ## What PKT writes, in the terms statements use (42_packet.md R172) -/

/-- The packet-number registers of a tail, if its kind has a packet number. -/
def PacketTail.pnRegs (t : PacketTail) : Option PnRegs :=
  t.pn.map fun p => { pn := zext32 p.1, nbytes := w64 p.2 }

theorem commitPacket_eq_afterPacket (h : Header) (t : PacketTail) (c : Nat) (s : State) :
    { commitPacket s.cur.toNat h t c s with status := statusWord .ok opPkt } =
      afterPacket s (headerRegs h s.cur.toNat) (packetRegs s.cur.toNat c t) t.pnRegs (t.record h)
        (h.slices ++ t.slices c) c := by
  simp only [commitPacket, emit, report, writeHeader, afterPacket, fresh, List.map_append, List.append_assoc]
  cases t <;> rfl

/-- A tail whose fields end with what the Length field frames. -/
def PacketTail.EndsWith (t : PacketTail) (body : Framed) : Prop :=
  t.length = body.length ∧ (∀ e, t.payload e = body.payload) ∧ t.vn = (0, 0) ∧ t.pn = some (body.pn, body.pnLen)

/-! ## The long classes, by their tails (42_packet.md R160) -/

section
variable {s : State} {flags : Byte} {version : U32} {dcid scid : Slice}
  {tail : Window → Nat → Except Stop (PacketTail × Nat)} (hw : packetWindow s = true)
  (hhdr : longHeaderAt s.mem s.cur.toNat flags = some (.long flags version dcid scid))
  (hfixed : fixedBitOkLong s flags version = true)
  (hl : s.cur.toNat + (7 + dcid.len + scid.len) ≤ s.limit.toNat)
include hw hhdr hfixed hl

/-- PKT at a long header that is there goes on with the tail. -/
theorem pktLong_of_header :
    pktLong flags tail s = runCommand opPkt s
      (tail ⟨s.mem, s.limit.toNat⟩ (s.cur.toNat + (7 + dcid.len + scid.len)) >>= fun r =>
        .ok (commitPacket s.cur.toNat (.long flags version dcid scid) r.1 r.2 s)) := by
  have hneed : need ⟨s.mem, s.limit.toNat⟩ s.cur.toNat 1 = .ok () := need_ok (by simp only; omega)
  simp only [pktLong, beginPacket_ok hw, ok_bind, hneed, longFields_ok hhdr hfixed hl]

theorem pktLong_ok {t : PacketTail} {e : Nat}
    (h : tail ⟨s.mem, s.limit.toNat⟩ (s.cur.toNat + (7 + dcid.len + scid.len)) = .ok (t, e)) :
    pktLong flags tail s = .next (afterPacket s (longRegs flags version dcid scid s.cur)
      (packetRegs s.cur.toNat e t) t.pnRegs (t.record (.long flags version dcid scid))
      ([dcid, scid] ++ t.slices e) e) := by
  rw [pktLong_of_header hw hhdr hfixed hl, h, ok_bind, runCommand_ok, commitPacket_eq_afterPacket, headerRegs_long]
  rfl

theorem pktLong_raise {e : Err} {o : Nat}
    (h : tail ⟨s.mem, s.limit.toNat⟩ (s.cur.toNat + (7 + dcid.len + scid.len)) = raise e o) :
    pktLong flags tail s = .next (failed s (statusWord (errCode e) opPkt) (clearsOf opPkt) o) := by
  rw [pktLong_of_header hw hhdr hfixed hl, h, raise_bind, runCommand_raise, abort_eq_failed]

/-- A long packet whose fields end with what the Length field frames. -/
theorem pktLong_framed {t : PacketTail} {body : Framed} {p : Bool} {n a e : Nat}
    (hbody : framedAt p n s.mem a = some (body, e)) (ht : t.EndsWith body)
    (h : tail ⟨s.mem, s.limit.toNat⟩ (s.cur.toNat + (7 + dcid.len + scid.len)) = .ok (t, e)) :
    pktLong flags tail s = .next (afterPacket s (longRegs flags version dcid scid s.cur)
      { kind := w64 (packetKindNumber t.kind)
        tokenPresent := flagWord t.token.isSome
        tokenOff := w64 (t.token.getD ⟨0, 0⟩).off, tokenLen := w64 (t.token.getD ⟨0, 0⟩).len
        length := BitVec.ofNat 64 body.length.toNat
        payOff := BitVec.ofNat 64 body.payload.off, payEnd := BitVec.ofNat 64 e
        vnOff := 0, vnCount := 0, start := s.cur, fin := BitVec.ofNat 64 e }
      (some { pn := BitVec.ofNat 64 body.pn.toNat, nbytes := BitVec.ofNat 64 n })
      (t.record (.long flags version dcid scid)) ([dcid, scid] ++ (t.token.toList ++ [body.payload])) e) := by
  obtain ⟨hlen, hpay, hvn, hpn⟩ := ht
  obtain ⟨hend, hwidth, -⟩ := framedAt_end hbody
  rw [pktLong_ok hw hhdr hfixed hl h, packetRegs, PacketTail.pnRegs, PacketTail.slices, hlen, hpay, hvn, hpn, hend,
    hwidth, w64_toNat, zext62_eq, Option.map_some, zext32_eq]
  rfl

end

/-! ## VERSION_NEGOTIATION and RETRY (42_packet.md R163, R168) -/

/-- Settles O28: the words are read up to `LIMIT`, and a partial one is refused before any is. -/
theorem versionNegotiationIsRead : Obligations.VersionNegotiationIsRead := by
  intro s low dcid scid hw flags hdr q hhdr hl
  have hfixed : fixedBitOkLong s flags 0 = true := by simp [fixedBitOkLong]
  refine ⟨fun versions hwhole hwords => ?_, fun hpartial => ?_⟩
  · have hend : q + 4 * ((s.limit.toNat - q) / 4) = s.limit.toNat := by omega
    have htail : vnTail ⟨s.mem, s.limit.toNat⟩ q = .ok (.versionNegotiation versions q, s.limit.toNat) := by
      have hread := (readWords_eq_ok (w := ⟨s.mem, s.limit.toNat⟩)).2 ⟨.inr hend.le, hwords, hend.symm⟩
      simp only [vnTail, hwhole, ne_eq, not_true_eq_false, if_false, hread, ok_bind]
    refine (pktLong_ok hw hhdr hfixed hl htail).trans ?_
    simp only [packetRegs, PacketTail.payload, PacketTail.vn, wordsAt_length hwords, w64_toNat, Nat.add_zero]
    rfl
  · exact pktLong_raise (e := .truncated) hw hhdr hfixed hl (if_pos hpartial)

/-- Settles O31: the tail reads nothing, and its token is the rest of the window. -/
theorem retryIsRead : Obligations.RetryIsRead := by
  intro s fixed unused version dcid scid hw flags hdr q hhdr _ hfixed hl token
  refine (pktLong_ok hw hhdr hfixed hl (t := .retry token) rfl).trans ?_
  simp only [packetRegs, PacketTail.payload, w64_toNat, Nat.add_zero]
  rfl

/-! ## INITIAL, ZERO_RTT and HANDSHAKE (42_packet.md R164, R165, R167) -/

/-- An Initial's tail, past a token that is there, is what the Length field frames. -/
theorem initialTail_of_token {p : Bool} {pnl : BitVec 2} {w : Window} {q k : Nat} {tl : U62}
    (htl : varIntAt w.mem q = some (tl, k)) (hl : q + k + tl.toNat ≤ w.lim) :
    initialTail p pnl w q = lengthFramed p pnl w (q + k + tl.toNat) >>= fun r =>
      .ok (.initial (if tl = 0 then none else some ⟨q + k, tl.toNat⟩) r.1, r.2) := by
  have hlen := (readVarInt_eq_ok (w := w) (c := q)).2 ⟨htl, by omega, rfl⟩
  have htok := (readSlice_eq_ok (w := w) (c := q + k)).2 ⟨hl, rfl, rfl⟩
  simp only [initialTail, hlen, htok, ok_bind]

/-- Settles O29: past the token, the tail is what the Length field frames. -/
theorem initialIsRead : Obligations.InitialIsRead := by
  intro s fixed reserved pnl version dcid scid tl k body e hw flags hdr q hhdr _ hfixed htl hbody he
  obtain ⟨hend, -, hoff⟩ := framedAt_end hbody
  have htok : q + k + tl.toNat ≤ s.limit.toNat := by omega
  have htail : initialTail s.params.lengthIncludesPn pnl ⟨s.mem, s.limit.toNat⟩ q =
      .ok (.initial (if tl = 0 then none else some ⟨q + k, tl.toNat⟩) body, e) := by
    rw [initialTail_of_token htl htok, lengthFramed_ok hbody he, ok_bind]
  refine (pktLong_framed hw hhdr hfixed (by omega) hbody ⟨rfl, fun _ => rfl, rfl, rfl⟩ htail).trans ?_
  by_cases hzero : tl = 0
  · subst hzero
    rfl
  · simp only [PacketTail.token, PacketTail.record, if_neg hzero]
    rfl

/-- Settles O30: after the header both are what the Length field frames. -/
theorem zeroRttAndHandshakeAreRead : Obligations.ZeroRttAndHandshakeAreRead := by
  intro s fixed reserved pnl version dcid scid body e hw _ q fits after zero hand
  refine ⟨fun ⟨hhdr, hfixed, hbody, he⟩ => ?_, fun ⟨hhdr, hfixed, hbody, he⟩ => ?_⟩
  all_goals
    obtain ⟨hend, -, hoff⟩ := framedAt_end hbody
    have hl : q ≤ s.limit.toNat := by omega
    have hread := lengthFramed_ok (w := ⟨s.mem, s.limit.toNat⟩) hbody he
  · exact pktLong_framed hw hhdr hfixed hl hbody (t := .zeroRtt body) ⟨rfl, fun _ => rfl, rfl, rfl⟩
      (by rw [zeroRttTail, hread, ok_bind])
  · exact pktLong_framed hw hhdr hfixed hl hbody (t := .handshake body) ⟨rfl, fun _ => rfl, rfl, rfl⟩
      (by rw [handshakeTail, hread, ok_bind])

/-- Settles O34: each class fails as `LengthFramed()` does at its Length field, and INITIAL before that as its Token
Length does. -/
theorem badLengthFieldFails : Obligations.BadLengthFieldFails := by
  intro s fixed reserved pnl version dcid scid hw _ n q header cut fails initial zeroRtt handshake
  have hfails {i : Instr} {a : Nat} (h : ∀ {e o}, a ≤ s.limit.toNat →
      lengthFramed s.params.lengthIncludesPn pnl ⟨s.mem, s.limit.toNat⟩ a = raise e o →
      exec i s = .next (failed s (statusWord (errCode e) opPkt) (clearsOf opPkt) o)) : fails i a := by
    refine ⟨fun hle hwritten hcut => h (e := .truncated) hle (lengthFramed_cutLength hle hwritten hcut),
      fun length k hv hk => ?_⟩
    have hle : a ≤ s.limit.toNat := by omega
    refine ⟨fun hp => ⟨fun hlt => ?_, fun hge hcut => ?_⟩, fun hp => ⟨fun hcut => ?_, fun v hpn hl hcut => ?_⟩⟩
    all_goals rw [hp] at h
    · exact h (e := .outOfRange) hle (lengthFramed_below hv hk hlt)
    · exact h (e := .truncated) hle (lengthFramed_cut hv hk hge hcut)
    · exact h (e := .truncated) hle (lengthFramed_cutPn hv hk hcut)
    · exact h (e := .truncated) hle (lengthFramed_cutBody hv hpn hl hcut)
  refine ⟨fun ⟨hhdr, hfixed⟩ hle hwritten hcut => ?_, fun ⟨hhdr, hfixed⟩ tl j htl htok => hfails fun _ hbody => ?_,
    fun ⟨hhdr, hfixed⟩ => hfails fun hle hbody => ?_, fun ⟨hhdr, hfixed⟩ => hfails fun hle hbody => ?_⟩
  · refine pktLong_raise (e := .truncated) hw hhdr hfixed hle ?_
    rw [initialTail, readVarInt_cut hle hwritten hcut, raise_bind]
  · refine pktLong_raise hw hhdr hfixed (by omega) ?_
    rw [initialTail_of_token htl htok, hbody, raise_bind]
  · refine pktLong_raise hw hhdr hfixed hle ?_
    rw [zeroRttTail, hbody, raise_bind]
  · refine pktLong_raise hw hhdr hfixed hle ?_
    rw [handshakeTail, hbody, raise_bind]

/-! ## SHORT (42_packet.md R169) -/

section
variable {s : State} {fixed spin : Bool} {reserved : BitVec 2} {keyPhase : Bool} {pnl : BitVec 2}
  (hw : packetWindow s = true) (hlen : shortDcidLen s.ctrl ≤ 20)
  (hfixed : fixedBitOkShort s (shortFlags fixed spin reserved keyPhase pnl) = true)
  (hl : s.cur.toNat + (1 + shortDcidLen s.ctrl) ≤ s.limit.toNat)
include hw hlen hfixed hl

/-- PKT at a short header that is there goes on with the packet number and the payload. -/
theorem execPktShort_of_header :
    execPktShort fixed spin reserved keyPhase pnl s = runCommand opPkt s
      (shortTail pnl ⟨s.mem, s.limit.toNat⟩ (s.cur.toNat + (1 + shortDcidLen s.ctrl)) >>= fun r =>
        .ok (commitPacket s.cur.toNat (.short (shortFlags fixed spin reserved keyPhase pnl)
          ⟨s.cur.toNat + 1, shortDcidLen s.ctrl⟩) r.1 r.2 s)) := by
  have hend : s.cur.toNat + 1 + shortDcidLen s.ctrl ≤ s.limit.toNat := by omega
  have hneed : need ⟨s.mem, s.limit.toNat⟩ s.cur.toNat 1 = .ok () := need_ok (by simp only; omega)
  simp only [execPktShort, beginPacket_ok hw, ok_bind, hneed, checkShortDcidLen_ok hlen, shortFields_ok hfixed hend,
    Nat.add_assoc]

theorem execPktShort_ok {t : PacketTail} {e : Nat}
    (h : shortTail pnl ⟨s.mem, s.limit.toNat⟩ (s.cur.toNat + (1 + shortDcidLen s.ctrl)) = .ok (t, e)) :
    execPktShort fixed spin reserved keyPhase pnl s =
      let flags := shortFlags fixed spin reserved keyPhase pnl
      let dcid : Slice := ⟨s.cur.toNat + 1, shortDcidLen s.ctrl⟩
      .next (afterPacket s (shortRegs flags dcid s.cur) (packetRegs s.cur.toNat e t) t.pnRegs
        (t.record (.short flags dcid)) (dcid :: t.slices e) e) := by
  rw [execPktShort_of_header hw hlen hfixed hl, h, ok_bind, runCommand_ok, commitPacket_eq_afterPacket,
    headerRegs_short]
  rfl

end

theorem execPkt_of_shortFlags {s : State} {fixed spin : Bool} {reserved : BitVec 2} {keyPhase : Bool}
    {pnl : BitVec 2} (hw : packetWindow s = true) (hlt : s.cur.toNat < s.limit.toNat)
    (hb : s.mem.read s.cur.toNat = some (shortFlags fixed spin reserved keyPhase pnl)) :
    execPkt s = execPktShort fixed spin reserved keyPhase pnl s := by
  rw [execPkt, packetFirstAt_short hw hlt hb (form_shortFlags ..)]
  exact packetFirst_shortFlags fixed spin reserved keyPhase pnl s

/-- Settles O32: the class reads the packet number and takes the rest, and PKT runs it at its first byte. -/
theorem shortPacketIsRead : Obligations.ShortPacketIsRead := by
  intro s fixed spin reserved keyPhase pnl v hw i flags dcid hdr q n hlen hfixed hv hl payload after
  have htail : shortTail pnl ⟨s.mem, s.limit.toNat⟩ q =
      .ok (.short (BitVec.ofNat 32 v) n payload, s.limit.toNat) := by
    rw [shortTail, (readPn_eq_ok (w := ⟨s.mem, s.limit.toNat⟩) (n := declaredPnLen pnl)).2 ⟨v, hv, rfl, hl, rfl⟩]
    rfl
  have hpay : q + n + (s.limit.toNat - (q + n)) = s.limit.toNat := by omega
  have hclass : exec i s = .next after := by
    refine (execPktShort_ok hw hlen hfixed (by omega) htail).trans ?_
    simp only [packetRegs, PacketTail.pnRegs, PacketTail.pn, PacketTail.payload, Option.map_some, w64_toNat,
      zext32_of_valueAt hv pnl.isLt, payload, hpay]
    rfl
  exact ⟨hclass, fun hb => (execPkt_of_shortFlags hw (by omega) hb).trans hclass⟩

/-- Settles O33: the tail begins with the packet number. -/
theorem cutPacketNumberIsTruncated : Obligations.CutPacketNumberIsTruncated := by
  intro s fixed spin reserved keyPhase pnl hw i q hlen hfixed hl hcut
  have htail : shortTail pnl ⟨s.mem, s.limit.toNat⟩ q = raise .truncated q := by
    rw [shortTail, readPn, readN_cut (n := declaredPnLen pnl) hcut, raise_bind, raise_bind]
  refine (execPktShort_of_header hw hlen hfixed hl).trans ?_
  rw [htail, raise_bind, runCommand_raise, abort_eq_failed]
  rfl

end Sys2Proof.Machine
end

section
/-! PROOFS. FRM's choice at the byte it peeks (43_frame_dispatch.md R190, R191, R196): END on an empty window, the class
of an admitted tag, and MALFORMED_TAG for any other. -/

namespace Sys2Proof.Machine

/-! ## Admitted tags (43_frame_dispatch.md R191) -/

theorem admitted_iff {datagram : Bool} {tag : Byte} :
    admitted datagram tag = true ↔
      tag.toNat ≤ 0x1E ∨ datagram = true ∧ (tag.toNat = 0x30 ∨ tag.toNat = 0x31) := by
  simp [admitted, ← BitVec.toNat_inj]

/-- A tag has a kind exactly if it is admitted: the table of kinds leaves out no admitted tag. -/
theorem isSome_frameKind (datagram : Bool) (tag : Byte) :
    (frameKind datagram tag).isSome = admitted datagram tag := by
  unfold frameKind
  split
  · rename_i hadmitted
    rw [hadmitted]
    split <;> rfl
  · rename_i hnot
    exact (Bool.eq_false_of_not_eq_true hnot).symm

theorem frameKind_eq_none {datagram : Bool} {tag : Byte} :
    frameKind datagram tag = none ↔ admitted datagram tag = false := by
  rw [← isSome_frameKind, Option.isSome_eq_false_iff, Option.isNone_iff_eq_none]

/-- A tag is a frame class exactly if it is admitted. -/
theorem decodeTag_ok_iff_admitted {datagram : Bool} {tag : Byte} :
    (∃ i, decodeTag datagram tag = .ok i) ↔ admitted datagram tag = true := by
  simp only [decodeTag_eq_ok, ← isSome_frameKind, Option.isSome_iff_exists]
  exact ⟨fun ⟨_, k, hk, _⟩ => ⟨k, hk⟩, fun ⟨k, hk⟩ => ⟨_, k, hk, rfl⟩⟩

/-! ## FRM's three answers to what it meets -/

/-- FRM at a tag that is not admitted fails at the tag. -/
theorem execFrm_notAdmitted {s : State} {tag : Byte} (hw : frameWindow s = true) (hlt : s.fcur.toNat < s.fend.toNat)
    (hb : s.mem.read s.fcur.toNat = some tag) (ha : admitted s.params.datagramEnabled tag = false) :
    execFrm s = .next (failed s (statusWord .malformedTag opFrm) (clearsOf opFrm) s.fcur.toNat) := by
  rw [execFrm_tag hw hlt hb, frameKind_eq_none.2 ha]
  exact congrArg _ (abort_eq_failed ..)

/-- FRM at the tag of a kind runs the class of that kind and tag. -/
theorem execFrm_kind {s : State} {tag : Byte} {k : FrameKind} (hw : frameWindow s = true)
    (hlt : s.fcur.toNat < s.fend.toNat) (hb : s.mem.read s.fcur.toNat = some tag)
    (hk : frameKind s.params.datagramEnabled tag = some k) : execFrm s = exec (frameClass k tag) s := by
  rw [execFrm_tag hw hlt hb, hk, exec_frameClass]

/-- FRM on an empty window peeks no byte. -/
theorem execFrm_empty {s : State} (hw : frameWindow s = true) (hempty : s.fcur = s.fend) :
    execFrm s = .next (endOfWindow s) := by
  simp only [execFrm, beginFrame_ok hw]
  exact if_pos (congrArg _ hempty)

/-- Settles O37: a tag is a frame class exactly if it has a kind, which is if it is admitted, and FRM fails at a tag
without one. -/
theorem unknownTagIsMalformed : Obligations.UnknownTagIsMalformed := by
  refine ⟨fun _ _ => decodeTag_ok_iff_admitted.trans admitted_iff, fun s tag hw hlt hb hlarge hother => ?_⟩
  have hnot : ¬ admitted s.params.datagramEnabled tag = true := by
    rw [admitted_iff]
    rintro (hsmall | ⟨hon, htag⟩)
    · omega
    · rcases hother with ⟨h30, h31⟩ | hoff
      · exact htag.elim h30 h31
      · exact Bool.false_ne_true (hoff.symm.trans hon)
  exact execFrm_notAdmitted hw hlt hb (Bool.eq_false_of_not_eq_true hnot)

/-- Settles O35: the class a tag decodes to is the class of its kind, which FRM runs. -/
theorem frmRunsTheClassOfItsTag : Obligations.FrmRunsTheClassOfItsTag := by
  intro s tag i hw hlt hb hdecode
  obtain ⟨k, hk, rfl⟩ := decodeTag_eq_ok.1 hdecode
  exact execFrm_kind hw hlt hb hk

/-- Settles O36: END is the write of `STATUS` and of VALID bit 7. -/
theorem emptyWindowEndsTheFrames : Obligations.EmptyWindowEndsTheFrames := by
  intro s hw hempty
  refine (execFrm_empty hw hempty).trans ?_
  rw [endOfWindow, setValid_clear]
  rfl

end Sys2Proof.Machine
end

section
/-! PROOFS. The frame classes (44_frames.md): what each extractor answers on fields that are there and on fields that
are cut, and from it the state each class leaves. -/

namespace Sys2Proof.Machine

/-! ## Runs of VarInts under a reader (44_frames.md R210) -/

/-- The VarInts `vs` stand one after another from `c` and end at `e`, not past the limit. -/
structure Window.Holds (w : Window) (c : Nat) (vs : List U62) (e : Nat) : Prop where
  run : varIntsAt w.mem c vs.length = some (vs, e)
  le : e ≤ w.lim

/-- `k` VarInts stand from `c`, the last of which is `n`, and end at `e`, not past the limit. -/
def Window.HoldsUpTo (w : Window) (c k : Nat) (n : U62) (e : Nat) : Prop :=
  ∃ vs, varIntsAt w.mem c k = some (vs ++ [n], e) ∧ e ≤ w.lim

/-- Input is written from `c` up to the limit, and `k` VarInts from `c` that fit before the limit meet `Q` with where
they end. -/
structure Window.FitsOnly (w : Window) (c k : Nat) (Q : List U62 → Nat → Prop) : Prop where
  le : c ≤ w.lim
  written : writtenFrom w.mem c w.lim
  fits : ∀ vs e, varIntsAt w.mem c k = some (vs, e) → e ≤ w.lim → Q vs e

/-- The limit cuts the `k` VarInts from `c`, in written input. -/
def Window.Cut (w : Window) (c k : Nat) : Prop := w.FitsOnly c k fun _ _ => False

/-- A sequence raises what its first part raises. -/
theorem bind_of_raise {α β : Type} {x : Except Stop α} {f : α → Except Stop β} {e : Err} {o : Nat}
    (h : x = raise e o) : (x >>= f) = raise e o := by rw [h, raise_bind]

/-- A sequence goes on from what its first part answers. -/
theorem bind_of_ok {α β : Type} {x : Except Stop α} {a : α} {f : α → Except Stop β} {r : Except Stop β}
    (h : x = .ok a) (hf : f a = r) : (x >>= f) = r := by rw [h, ok_bind, hf]

section
variable {w : Window} {c k e : Nat} {v n : U62} {vs : List U62} {Q : List U62 → Nat → Prop} {α : Type}
  {f : U62 × Nat → Except Stop α} {r : Except Stop α}

/-- The last VarInt of a run is read to the run's end. -/
theorem Window.Holds.readVi (h : w.Holds c [v] e) : readVi w c = .ok (v, e) := readVi_of_last h.run h.le

/-- A reader of a run goes on from its first VarInt with the rest of the run. -/
theorem Window.Holds.bind (h : w.Holds c (v :: vs) e) (hf : ∀ c', w.Holds c' vs e → f (v, c') = r) :
    (Machine.readVi w c >>= f) = r := by
  obtain ⟨c', hread, hrest, -⟩ := readVi_of_run h.run h.le
  exact bind_of_ok hread (hf c' ⟨hrest, h.le⟩)

theorem Window.Holds.bind_last (h : w.Holds c [v] e) (hf : f (v, e) = r) : (Machine.readVi w c >>= f) = r :=
  bind_of_ok h.readVi hf

/-- A run of one VarInt is its last one. -/
theorem Window.HoldsUpTo.holds (h : w.HoldsUpTo c 1 n e) : w.Holds c [n] e := by
  obtain ⟨vs, hrun, he⟩ := h
  obtain ⟨v, _, rest, -, hrest, hvs⟩ := varIntsAt_succ_iff.1 hrun
  cases hrest
  cases vs with
  | nil => exact ⟨hrun, he⟩
  | cons _ front => simp at hvs

/-- A reader of a run of at least two VarInts goes on from its first one with the rest of the run. -/
theorem Window.HoldsUpTo.bind (h : w.HoldsUpTo c (k + 2) n e)
    (hf : ∀ v c', w.HoldsUpTo c' (k + 1) n e → f (v, c') = r) : (Machine.readVi w c >>= f) = r := by
  obtain ⟨vs, hrun, he⟩ := h
  obtain ⟨v, rest, c', hvs, hread, hrest⟩ := readVi_of_run_cons hrun he
  rw [hread, ok_bind]
  obtain ⟨v', _, rest', -, -, rfl⟩ := varIntsAt_succ_iff.1 hrest
  obtain ⟨front, hfront⟩ : ∃ front, v' :: rest' = front ++ [n] := by
    cases vs with
    | nil => simp at hvs
    | cons _ front => exact ⟨front, (List.cons.inj hvs).2.symm⟩
  exact hf v c' ⟨front, hfront ▸ hrest, he⟩

theorem Window.FitsOnly.zero (h : w.FitsOnly c 0 Q) : Q [] c := h.fits [] c rfl h.le

/-- A reader of VarInts that the limit may cut is TRUNCATED at the limit if it is wherever it goes on from the first
of them. -/
theorem Window.FitsOnly.bind (h : w.FitsOnly c (k + 1) Q)
    (hf : ∀ v c', w.FitsOnly c' k (fun vs => Q (v :: vs)) → f (v, c') = raise .truncated w.lim) :
    (readVi w c >>= f) = raise .truncated w.lim := by
  obtain ⟨hc, hwritten, hfits⟩ := h
  rcases readVi_or_cut hc hwritten with hcut | ⟨v, n, hread, hv, hn, hrest⟩
  · rw [hcut, raise_bind]
  · rw [hread, ok_bind]
    exact hf v _ ⟨hn, hrest, fun vs e hrun => hfits _ e (varIntsAt_succ_iff.2 ⟨v, n, vs, hv, hrun, rfl⟩)⟩

/-- The limit cuts a run that ends past it wherever it ends. -/
theorem Window.Cut.of_lt (hc : c ≤ w.lim) (hwritten : writtenFrom w.mem c w.lim)
    (h : ∀ vs e, varIntsAt w.mem c k = some (vs, e) → w.lim < e) : w.Cut c k :=
  ⟨hc, hwritten, fun vs e hrun he => absurd (h vs e hrun) (Nat.not_lt.2 he)⟩

theorem Window.Cut.bind (h : w.Cut c (k + 1)) (hf : ∀ v c', w.Cut c' k → f (v, c') = raise .truncated w.lim) :
    (readVi w c >>= f) = raise .truncated w.lim := FitsOnly.bind h hf

theorem Window.Cut.bind_last (h : w.Cut c 1) : (readVi w c >>= f) = raise .truncated w.lim :=
  h.bind fun _ _ h => h.zero.elim

end

/-! ## Optional fields and data with a length (44_frames.md R218, R229, R231) -/

section
variable {w : Window} {p : Bool} {c k e : Nat} {n : U62} {α : Type} {r : Except Stop α}

theorem readOptional_true (w : Window) (c : Nat) :
    readOptional true w c = readVi w c >>= fun x => .ok (some x.1, x.2) := rfl

theorem readOptional_false (w : Window) (c : Nat) : readOptional false w c = .ok (none, c) := rfl

/-- An optional VarInt that is there if it is to be is read. -/
theorem readOptional_ok {o : Option U62}
    (h : if p then ∃ v, o = some v ∧ varIntsAt w.mem c 1 = some ([v], e) else o = none ∧ e = c)
    (he : e ≤ w.lim) :
    c ≤ e ∧ readOptional p w c = .ok (o, e) := by
  cases p with
  | false =>
    obtain ⟨rfl, rfl⟩ := h
    exact ⟨Nat.le_refl _, readOptional_false w _⟩
  | true =>
    obtain ⟨v, rfl, hrun⟩ := h
    have := varIntsAt_le hrun
    exact ⟨by omega, bind_of_ok (readVi_of_last hrun he) rfl⟩

/-- A reader of an optional VarInt and a run after it goes on with that run; so do the next two, for a run by its
last VarInt and for one that the limit cuts. -/
theorem Window.Holds.bind_optional {f : Option U62 × Nat → Except Stop α} {o : Option U62} {vs : List U62}
    (h : w.Holds c (o.toList ++ vs) e) (hp : p = o.isSome) (hf : ∀ c', w.Holds c' vs e → f (o, c') = r) :
    (readOptional p w c >>= f) = r := by
  subst hp
  cases o with
  | none => exact hf c h
  | some v =>
    rw [Option.isSome_some, readOptional_true, bind_assoc]
    exact Holds.bind h hf

theorem Window.HoldsUpTo.bind_optional {f : Option U62 × Nat → Except Stop α}
    (h : w.HoldsUpTo c (k + (if p then 1 else 0) + 1) n e)
    (hf : ∀ o c', w.HoldsUpTo c' (k + 1) n e → f (o, c') = r) : (readOptional p w c >>= f) = r := by
  cases p with
  | false => exact hf none c h
  | true =>
    rw [readOptional_true, bind_assoc]
    exact HoldsUpTo.bind h fun v c' h' => hf (some v) c' h'

theorem Window.Cut.bind_optional {f : Option U62 × Nat → Except Stop α} (h : w.Cut c (k + if p then 1 else 0))
    (hf : ∀ o c', w.Cut c' k → f (o, c') = raise .truncated w.lim) :
    (readOptional p w c >>= f) = raise .truncated w.lim := by
  cases p with
  | false => exact hf none c h
  | true =>
    rw [readOptional_true, bind_assoc]
    exact Cut.bind h fun v c' h' => hf (some v) c' h'

/-- Data whose length is there and fits is read. -/
theorem readData_holds (h : w.Holds c [n] e) (hl : e + n.toNat ≤ w.lim) :
    readData true w c = .ok (⟨e, n.toNat⟩, e + n.toNat) :=
  h.bind_last (readSlice_eq_ok.2 ⟨hl, rfl, rfl⟩)

/-- Data that is shorter than its length is TRUNCATED at its start. -/
theorem readData_long (h : w.Holds c [n] e) (hl : w.lim < e + n.toNat) :
    readData true w c = raise .truncated e :=
  h.bind_last (readSlice_cut hl)

theorem Window.Cut.readData (h : w.Cut c (if p then 1 else 0)) : readData p w c = raise .truncated w.lim := by
  cases p with
  | false => exact h.zero.elim
  | true => exact Cut.bind_last h

end

/-! ## A frame class by its extractor (43_frame_dispatch.md R190) -/

theorem admitted_of_le {datagram : Bool} {tag : Byte} (h : tag.toNat ≤ 0x1E) : admitted datagram tag = true :=
  admitted_iff.2 (.inl h)

section
variable {s : State} {k : FrameKind} {tag : Byte} {x : Window → Nat → Except Stop (Extracted × Nat)}
  (hw : frameWindow s = true)
include hw

/-- A frame whose extractor answers is the one FRM writes. -/
theorem frmClass_reads {y : Extracted} {e : Nat} (hlt : s.fcur.toNat < s.fend.toNat)
    (ha : admitted s.params.datagramEnabled tag = true)
    (hx : x ⟨s.mem, s.fend.toNat⟩ (s.fcur.toNat + 1) = .ok (y, e)) :
    frmClass k tag x s =
      .next (afterFrame s (w64 (frameKindNumber k)) (zext8 tag) y.fields y.frame y.slices e) := by
  rw [frmClass_ok hw hlt ha hx, commitFrame_eq]

/-- A frame whose extractor is TRUNCATED fails there. -/
theorem frmClass_truncated {o : Nat} (hlt : s.fcur.toNat < s.fend.toNat)
    (ha : admitted s.params.datagramEnabled tag = true)
    (hx : x ⟨s.mem, s.fend.toNat⟩ (s.fcur.toNat + 1) = raise .truncated o) :
    frmClass k tag x s = .next (failed s 0x3001 0x80 o) := frmClass_raise hw hlt ha hx

/-- A class whose tag the parameter leaves out fails at the tag. -/
theorem frmClass_notAdmitted (hlt : s.fcur.toNat < s.fend.toNat)
    (ha : admitted s.params.datagramEnabled tag = false) :
    frmClass k tag x s = .next (failed s 0x3003 0x80 s.fcur.toNat) := by
  simp only [frmClass, beginFrame_ok hw]
  rw [if_neg (Nat.ne_of_lt hlt), if_neg (Bool.eq_false_iff.1 ha)]
  exact congrArg _ (abort_eq_failed ..)

/-- A frame of VarInts that are there is read. -/
theorem frmClass_run {y : Extracted} {vs : List U62} {e : Nat} (htag : tag.toNat ≤ 0x1E)
    (hx : ∀ {w c}, w.Holds c vs e → x w c = .ok (y, e))
    (hrun : varIntsAt s.mem (s.fcur.toNat + 1) vs.length = some (vs, e)) (he : e ≤ s.fend.toNat) :
    frmClass k tag x s =
      .next (afterFrame s (w64 (frameKindNumber k)) (zext8 tag) y.fields y.frame y.slices e) := by
  have hlt : s.fcur.toNat < s.fend.toNat := by have := varIntsAt_le hrun; omega
  exact frmClass_reads hw hlt (admitted_of_le htag) (hx ⟨hrun, he⟩)

/-- A frame that begins with `n` VarInts, cut in them, is TRUNCATED at `FEND`. -/
theorem frmClass_cut {n : Nat} (htag : tag.toNat ≤ 0x1E)
    (hx : ∀ {w c}, w.Cut c n → x w c = raise .truncated w.lim) (hlt : s.fcur.toNat < s.fend.toNat)
    (hwritten : writtenFrom s.mem (s.fcur.toNat + 1) s.fend.toNat)
    (hcut : ∀ vs e, varIntsAt s.mem (s.fcur.toNat + 1) n = some (vs, e) → s.fend.toNat < e) :
    frmClass k tag x s = .next (failed s 0x3001 0x80 s.fend.toNat) :=
  frmClass_truncated hw hlt (admitted_of_le htag) (hx (.of_lt hlt hwritten hcut))

end

/-! ## Tags whose low bits are fields (30_encoding.md R89) -/

section
variable (off len fin uni ecn app : Bool)

theorem tagWith_stream_le : (tagWith 0x01 off len fin).toNat ≤ 0x1E := by revert off len fin; decide

theorem tagWith_maxStreams_le : (tagWith 0x02 false true uni).toNat ≤ 0x1E := by revert uni; decide

theorem tagWith_streamsBlocked_le : (tagWith 0x02 true true uni).toNat ≤ 0x1E := by revert uni; decide

theorem tagWith_ack_le : (tagWith 0x00 false true ecn).toNat ≤ 0x1E := by revert ecn; decide

theorem tagWith_connectionClose_le : (tagWith 0x03 true false app).toNat ≤ 0x1E := by revert app; decide

theorem zext8_tagWith_stream : zext8 (tagWith 0x01 off len fin) =
    BitVec.ofNat 64 (8 + (if off then 4 else 0) + (if len then 2 else 0) + (if fin then 1 else 0)) := by
  revert off len fin; decide

theorem zext8_tagWith_maxStreams : zext8 (tagWith 0x02 false true uni) = if uni then 0x13 else 0x12 := by
  revert uni; decide

theorem zext8_tagWith_streamsBlocked : zext8 (tagWith 0x02 true true uni) = if uni then 0x17 else 0x16 := by
  revert uni; decide

end

/-! ## Frames without fields (44_frames.md R211, R212, R230) -/

/-- A frame class without fields. -/
theorem frmClass_none {s : State} {k : FrameKind} {tag : Byte} (hw : frameWindow s = true)
    (hlt : s.fcur.toNat < s.fend.toNat) (htag : tag.toNat ≤ 0x1E) (f : Frame) :
    frmClass k tag (extractNone f) s =
      .next (afterFrame s (w64 (frameKindNumber k)) (zext8 tag) {} f [] (s.fcur.toNat + 1)) :=
  frmClass_reads (y := ⟨f, {}, []⟩) hw hlt (admitted_of_le htag) rfl

/-- Settles O38: an extractor that reads nothing leaves the frame at its tag, and FRM runs the class of that tag. -/
theorem fieldlessFramesAreOneByte : Obligations.FieldlessFramesAreOneByte := by
  intro s hw hlt after
  have hpadding : exec .framePadding s = .next (after 0 0x00 .padding) := frmClass_none hw hlt (by decide) _
  have hping : exec .framePing s = .next (after 1 0x01 .ping) := frmClass_none hw hlt (by decide) _
  have hdone : exec .frameHandshakeDone s = .next (after 19 0x1E .handshakeDone) := frmClass_none hw hlt (by decide) _
  have hkinds : ∀ d, frameKind d 0x00 = some .padding ∧ frameKind d 0x01 = some .ping ∧
      frameKind d 0x1E = some .handshakeDone := by decide
  obtain ⟨kpadding, kping, kdone⟩ := hkinds s.params.datagramEnabled
  exact ⟨hpadding, hping, hdone, fun hb => (execFrm_kind hw hlt hb kpadding).trans hpadding,
    fun hb => (execFrm_kind hw hlt hb kping).trans hping, fun hb => (execFrm_kind hw hlt hb kdone).trans hdone⟩

/-! ## Frames of VarInts alone (44_frames.md R214, R215, R219 to R224, R226) -/

section
variable {w : Window} {c e : Nat} {v x y : U62}

theorem extractMaxData_holds (h : w.Holds c [v] e) :
    extractMaxData w c = .ok (⟨.maxData v, { f0 := BitVec.ofNat 64 v.toNat }, []⟩, e) :=
  h.bind_last (by simp only [zext62_eq])

theorem extractDataBlocked_holds (h : w.Holds c [v] e) :
    extractDataBlocked w c = .ok (⟨.dataBlocked v, { f0 := BitVec.ofNat 64 v.toNat }, []⟩, e) :=
  h.bind_last (by simp only [zext62_eq])

theorem extractRetireConnectionId_holds (h : w.Holds c [v] e) :
    extractRetireConnectionId w c = .ok (⟨.retireConnectionId v, { f0 := BitVec.ofNat 64 v.toNat }, []⟩, e) :=
  h.bind_last (by simp only [zext62_eq])

theorem extractMaxStreams_holds (uni : Bool) (h : w.Holds c [v] e) :
    extractMaxStreams uni w c =
      .ok (⟨.maxStreams uni v, { f0 := if uni then 1 else 0, f1 := BitVec.ofNat 64 v.toNat }, []⟩, e) :=
  h.bind_last (by simp only [zext62_eq, flagWord_eq])

theorem extractStreamsBlocked_holds (uni : Bool) (h : w.Holds c [v] e) :
    extractStreamsBlocked uni w c =
      .ok (⟨.streamsBlocked uni v, { f0 := if uni then 1 else 0, f1 := BitVec.ofNat 64 v.toNat }, []⟩, e) :=
  h.bind_last (by simp only [zext62_eq, flagWord_eq])

theorem extractStopSending_holds (h : w.Holds c [v, x] e) :
    extractStopSending w c = .ok (⟨.stopSending v x,
      { f0 := BitVec.ofNat 64 v.toNat, f1 := BitVec.ofNat 64 x.toNat }, []⟩, e) :=
  h.bind fun _ h => h.bind_last (by simp only [zext62_eq])

theorem extractMaxStreamData_holds (h : w.Holds c [v, x] e) :
    extractMaxStreamData w c = .ok (⟨.maxStreamData v x,
      { f0 := BitVec.ofNat 64 v.toNat, f1 := BitVec.ofNat 64 x.toNat }, []⟩, e) :=
  h.bind fun _ h => h.bind_last (by simp only [zext62_eq])

theorem extractStreamDataBlocked_holds (h : w.Holds c [v, x] e) :
    extractStreamDataBlocked w c = .ok (⟨.streamDataBlocked v x,
      { f0 := BitVec.ofNat 64 v.toNat, f1 := BitVec.ofNat 64 x.toNat }, []⟩, e) :=
  h.bind fun _ h => h.bind_last (by simp only [zext62_eq])

theorem extractResetStream_holds (h : w.Holds c [v, x, y] e) :
    extractResetStream w c = .ok (⟨.resetStream v x y,
      { f0 := BitVec.ofNat 64 v.toNat, f1 := BitVec.ofNat 64 x.toNat, f2 := BitVec.ofNat 64 y.toNat }, []⟩, e) :=
  h.bind fun _ h => h.bind fun _ h => h.bind_last (by simp only [zext62_eq])

end

/-- Settles O39: a reader of VarInts alone answers on a run of them and is cut with it. -/
theorem varIntFramesAreRead : Obligations.VarIntFramesAreRead := by
  intro s hw reads cut r
  refine ⟨fun v _ => frmClass_run hw (by decide) extractMaxData_holds,
    fun v _ => frmClass_run hw (by decide) extractDataBlocked_holds,
    fun v _ => frmClass_run hw (by decide) extractRetireConnectionId_holds,
    fun uni v _ hrun he => ?_, fun uni v _ hrun he => ?_,
    fun v x _ => frmClass_run hw (by decide) extractStopSending_holds,
    fun v x _ => frmClass_run hw (by decide) extractMaxStreamData_holds,
    fun v x _ => frmClass_run hw (by decide) extractStreamDataBlocked_holds,
    fun v x y _ => frmClass_run hw (by decide) extractResetStream_holds,
    frmClass_cut hw (by decide) fun h => h.bind_last, frmClass_cut hw (by decide) fun h => h.bind_last,
    frmClass_cut hw (by decide) fun h => h.bind_last,
    fun uni => frmClass_cut hw (tagWith_maxStreams_le uni) fun h => h.bind_last,
    fun uni => frmClass_cut hw (tagWith_streamsBlocked_le uni) fun h => h.bind_last,
    frmClass_cut hw (by decide) fun h => h.bind fun _ _ h => h.bind_last,
    frmClass_cut hw (by decide) fun h => h.bind fun _ _ h => h.bind_last,
    frmClass_cut hw (by decide) fun h => h.bind fun _ _ h => h.bind_last,
    frmClass_cut hw (by decide) fun h => h.bind fun _ _ h => h.bind fun _ _ h => h.bind_last⟩
  · rw [← zext8_tagWith_maxStreams]
    exact frmClass_run hw (tagWith_maxStreams_le uni) (extractMaxStreams_holds uni) hrun he
  · rw [← zext8_tagWith_streamsBlocked]
    exact frmClass_run hw (tagWith_streamsBlocked_le uni) (extractStreamsBlocked_holds uni) hrun he

/-! ## ACK (44_frames.md R213) -/

/-- Past the count of ranges: `k` pairs from `q`, and the ECN counts a tag asks for, end past the limit wherever they
end. -/
def Window.RangesCut (w : Window) (ecn : Bool) (q k : Nat) : Prop :=
  ∀ flat r e, varIntsAt w.mem q (2 * k) = some (flat, r) →
    (if ecn then ∃ counts, varIntsAt w.mem r 3 = some (counts, e) else e = r) → w.lim < e

section
variable {w : Window} {c q r e : Nat} {largest delay k first x y z : U62} {flat : List U62}
  {ranges : List (U62 × U62)} {ecn : Bool}

theorem readEcn_false (w : Window) (c : Nat) : readEcn false w c = .ok (none, c) := rfl

theorem readEcn_true_holds (h : w.Holds c [x, y, z] e) : readEcn true w c = .ok (some ⟨x, y, z⟩, e) :=
  h.bind fun _ h => h.bind fun _ h => h.bind_last rfl

theorem readEcn_true_cut (h : w.Cut c 3) : readEcn true w c = raise .truncated w.lim :=
  h.bind fun _ _ h => h.bind fun _ _ h => h.bind_last

theorem ackFields_none (largest delay k first : U62) (q n : Nat) :
    ackFields largest delay k first q n none =
      { f0 := BitVec.ofNat 64 largest.toNat, f1 := BitVec.ofNat 64 delay.toNat, f2 := BitVec.ofNat 64 k.toNat
        f3 := BitVec.ofNat 64 first.toNat, f4 := BitVec.ofNat 64 q, f5 := BitVec.ofNat 64 n } := by
  simp only [ackFields, zext62_eq]
  rfl

theorem ackFields_some (largest delay k first x y z : U62) (q n : Nat) :
    ackFields largest delay k first q n (some ⟨x, y, z⟩) =
      { ackFields largest delay k first q n none with
        f6 := 1, f7 := BitVec.ofNat 64 x.toNat, f8 := BitVec.ofNat 64 y.toNat, f9 := BitVec.ofNat 64 z.toNat } := by
  simp only [ackFields, zext62_eq, Option.elim]
  rfl

/-- An ACK's four VarInts and its pairs are there, and the ECN counts are read. -/
theorem extractAck_holds {counts : Option EcnCounts} (h : w.Holds c [largest, delay, k, first] q)
    (hpairs : varIntsAt w.mem q (2 * k.toNat) = some (flat, r))
    (hflat : flat = ranges.flatMap fun p => [p.1, p.2]) (hr : r ≤ w.lim)
    (hecn : readEcn ecn w r = .ok (counts, e)) :
    extractAck ecn w c = .ok (⟨.ack largest delay first ranges counts,
      ackFields largest delay k first q (r - q) counts, [⟨q, r - q⟩]⟩, e) :=
  h.bind fun _ h => h.bind fun _ h => h.bind fun _ h => h.bind_last <| by
    simp only [readPairs_ok hpairs hflat hr, hecn, ok_bind]

/-- Past the count of ranges, the pairs or the ECN counts are cut. -/
theorem readRanges_cut {α : Type} {n : Nat}
    {f : List (U62 × U62) × Nat → Option EcnCounts × Nat → Except Stop α}
    (hq : q ≤ w.lim) (hwritten : writtenFrom w.mem q w.lim) (hcut : w.RangesCut ecn q n) :
    (readPairs w n q >>= fun x => readEcn ecn w x.2 >>= f x) = raise .truncated w.lim := by
  rcases readPairs_cut (k := n) hq hwritten with h | ⟨pairs, flat, r, hread, hrun, hqr, hr⟩
  · rw [h, raise_bind]
  · rw [hread, ok_bind]
    cases ecn with
    | false => exact absurd (hcut flat r r hrun rfl) (Nat.not_lt.2 hr)
    | true =>
      have hcounts : w.Cut r 3 := .of_lt hr (fun a ha => hwritten a (by omega)) fun counts e he =>
        hcut flat r e hrun ⟨counts, he⟩
      rw [readEcn_true_cut hcounts, raise_bind]

theorem extractAck_cut (h : w.FitsOnly c 4 fun vs q =>
      ∀ largest delay k first, vs = [largest, delay, k, first] → w.RangesCut ecn q k.toNat) :
    extractAck ecn w c = raise .truncated w.lim :=
  h.bind fun _ _ h => h.bind fun _ _ h => h.bind fun _ _ h => h.bind fun _ _ h =>
    readRanges_cut h.le h.written (h.zero _ _ _ _ rfl)

end

/-- Settles O40: past its four VarInts, ACK reads its pairs and then the ECN counts its tag asks for. -/
theorem ackIsRead : Obligations.AckIsRead := by
  constructor
  · intro s largest delay k first flat ranges q r hw hrun hpairs hflat fields
    have hq := varIntsAt_le hrun
    have hqr := varIntsAt_le hpairs
    refine ⟨fun hr => ?_, fun x y z e hcounts he => ?_⟩
    · have hx := extractAck_holds (w := ⟨s.mem, s.fend.toNat⟩) ⟨hrun, by simp only; omega⟩ hpairs hflat hr
        (readEcn_false _ _)
      rw [ackFields_none] at hx
      exact frmClass_reads hw (by omega) (admitted_of_le (tagWith_ack_le false)) hx
    · have hr := varIntsAt_le hcounts
      have hx := extractAck_holds (w := ⟨s.mem, s.fend.toNat⟩) ⟨hrun, by simp only; omega⟩ hpairs hflat
        (by simp only; omega) (readEcn_true_holds ⟨hcounts, he⟩)
      rw [ackFields_some, ackFields_none] at hx
      exact frmClass_reads hw (by omega) (admitted_of_le (tagWith_ack_le true)) hx
  · intro s ecn hw hlt hwritten hcut
    refine frmClass_truncated hw hlt (admitted_of_le (tagWith_ack_le ecn)) (extractAck_cut ⟨hlt, hwritten, ?_⟩)
    rintro _ q hrun - largest delay k first rfl flat r e hpairs hecn
    exact hcut largest delay k first flat q r e hrun hpairs hecn

/-! ## CRYPTO and NEW_TOKEN (44_frames.md R216, R217) -/

section
variable {w : Window} {c q : Nat} {off n : U62}

theorem extractCrypto_holds (h : w.Holds c [off, n] q) (hl : q + n.toNat ≤ w.lim) :
    extractCrypto w c = .ok (⟨.crypto off ⟨q, n.toNat⟩,
      { f0 := BitVec.ofNat 64 off.toNat, f1 := BitVec.ofNat 64 n.toNat, f2 := BitVec.ofNat 64 q },
      [⟨q, n.toNat⟩]⟩, q + n.toNat) :=
  h.bind fun _ h => h.bind_last <| by
    simp only [readSlice_eq_ok.2 ⟨hl, rfl, rfl⟩, ok_bind, zext62_eq, w64]

theorem extractCrypto_long (h : w.Holds c [off, n] q) (hl : w.lim < q + n.toNat) :
    extractCrypto w c = raise .truncated q :=
  h.bind fun _ h => h.bind_last <| bind_of_raise (readSlice_cut hl)

theorem extractNewToken_holds (h : w.Holds c [n] q) (hl : q + n.toNat ≤ w.lim) :
    extractNewToken w c = .ok (⟨.newToken ⟨q, n.toNat⟩,
      { f0 := BitVec.ofNat 64 n.toNat, f1 := BitVec.ofNat 64 q }, [⟨q, n.toNat⟩]⟩, q + n.toNat) :=
  h.bind_last <| by simp only [readSlice_eq_ok.2 ⟨hl, rfl, rfl⟩, ok_bind, w64]

theorem extractNewToken_long (h : w.Holds c [n] q) (hl : w.lim < q + n.toNat) :
    extractNewToken w c = raise .truncated q :=
  h.bind_last <| bind_of_raise (readSlice_cut hl)

end

/-- Settles O41: behind the VarInts, the descriptor fits or is cut at its start. -/
theorem cryptoAndNewTokenAreRead : Obligations.CryptoAndNewTokenAreRead := by
  refine ⟨fun s hw hlt hwritten => ⟨?_, ?_⟩, fun s off n q hw => ⟨fun hrun hq => ?_, fun hrun hq => ?_⟩⟩
  · exact frmClass_cut hw (by decide) (fun h => h.bind fun _ _ h => h.bind_last) hlt hwritten
  · exact frmClass_cut hw (by decide) (fun h => h.bind_last) hlt hwritten
  all_goals
    have hlt : s.fcur.toNat < s.fend.toNat := by have := varIntsAt_le hrun; omega
    have ha {tag : Byte} (h : tag.toNat ≤ 0x1E) := admitted_of_le (datagram := s.params.datagramEnabled) h
  · exact ⟨fun hl => frmClass_reads hw hlt (ha (by decide)) (extractCrypto_holds ⟨hrun, hq⟩ hl),
      fun hl => frmClass_truncated hw hlt (ha (by decide)) (extractCrypto_long ⟨hrun, hq⟩ hl)⟩
  · exact ⟨fun hl => frmClass_reads hw hlt (ha (by decide)) (extractNewToken_holds ⟨hrun, hq⟩ hl),
      fun hl => frmClass_truncated hw hlt (ha (by decide)) (extractNewToken_long ⟨hrun, hq⟩ hl)⟩

/-! ## STREAM (44_frames.md R218) -/

section
variable {w : Window} {c q r e : Nat} {off len fin : Bool} {sid n : U62} {o : Option U62} {d : Slice}

/-- A STREAM's ID and offset are there, and its data is read. -/
theorem extractStream_holds (h : w.Holds c [sid] q) (ho : readOptional off w q = .ok (o, r))
    (hd : readData len w r = .ok (d, e)) :
    extractStream off len fin w c = .ok (⟨.stream sid o len fin d,
      { f0 := BitVec.ofNat 64 sid.toNat, f1 := if off then 1 else 0, f2 := BitVec.ofNat 64 (o.getD 0).toNat
        f3 := if len then 1 else 0, f4 := BitVec.ofNat 64 d.len, f5 := BitVec.ofNat 64 d.off
        f6 := if fin then 1 else 0 }, [d]⟩, e) :=
  h.bind_last <| bind_of_ok ho <| bind_of_ok hd <| by simp only [zext62_eq, flagWord_eq, w64]

theorem extractStream_cut (h : w.Cut c (1 + (if off then 1 else 0) + (if len then 1 else 0))) :
    extractStream off len fin w c = raise .truncated w.lim := by
  rw [Nat.add_assoc, Nat.add_comm, Nat.add_comm (if off then 1 else 0)] at h
  exact h.bind fun _ _ h => h.bind_optional fun _ _ h => bind_of_raise h.readData

theorem extractStream_long (h : w.HoldsUpTo c (1 + (if off then 1 else 0) + 1) n e) (hl : w.lim < e + n.toNat) :
    extractStream off true fin w c = raise .truncated e := by
  rw [Nat.add_comm 1, ← Nat.zero_add (if off then 1 else 0)] at h
  exact h.bind fun _ _ h => h.bind_optional fun _ _ h => bind_of_raise (readData_long h.holds hl)

end

/-- Settles O42: behind the stream ID, the offset and the data are what the tag's bits say. -/
theorem streamIsRead : Obligations.StreamIsRead := by
  have ha (d off len fin : Bool) : admitted d (tagWith 0x01 off len fin) = true :=
    admitted_of_le (tagWith_stream_le off len fin)
  constructor
  · intro s off len fin sid q hw hsid after offset r hoff
    have hq := varIntsAt_le hsid
    have hreads {d : Slice} (hr : r ≤ s.fend.toNat)
        (hd : readData len ⟨s.mem, s.fend.toNat⟩ r = .ok (d, d.off + d.len)) :
        exec (.frameStream off len fin) s = .next (after offset d) := by
      obtain ⟨hqr, hoffset⟩ := readOptional_ok (w := ⟨s.mem, s.fend.toNat⟩) hoff hr
      refine (frmClass_reads hw (by omega) (ha _ off len fin)
        (extractStream_holds ⟨hsid, by simp only; omega⟩ hoffset hd)).trans ?_
      rw [zext8_tagWith_stream]
      rfl
    refine ⟨fun hlen hr => hreads hr ?_, fun n d hlen hn hl => hreads ?_ ?_⟩
    · rw [hlen, Nat.add_sub_cancel' hr]
      rfl
    · have := varIntsAt_le hn
      omega
    · rw [hlen]
      exact readData_holds ⟨hn, by simp only; omega⟩ hl
  · intro s off len fin hw hlt k
    refine ⟨frmClass_cut hw (tagWith_stream_le off len fin) extractStream_cut hlt,
      fun vs n d hlen hrun hd hl => ?_⟩
    subst hlen
    exact frmClass_truncated hw hlt (ha _ off true fin) (extractStream_long ⟨vs, hrun, hd⟩ hl)

/-! ## NEW_CONNECTION_ID (44_frames.md R225) -/

section
variable {w : Window} {c q : Nat} {seq rpt : U62} {n : Byte} {o : Nat} {err : Err}

theorem extractNewConnectionId_holds (h : w.Holds c [seq, rpt] q) (hn : w.mem.read q = some n) (h20 : n.toNat ≤ 20)
    (hl : q + 1 + n.toNat + 16 ≤ w.lim) :
    extractNewConnectionId w c =
      .ok (⟨.newConnectionId seq rpt ⟨q + 1, n.toNat⟩ ⟨q + 1 + n.toNat, 16⟩,
        { f0 := BitVec.ofNat 64 seq.toNat, f1 := BitVec.ofNat 64 rpt.toNat, f2 := BitVec.ofNat 64 n.toNat
          f3 := BitVec.ofNat 64 (q + 1), f4 := BitVec.ofNat 64 (q + 1 + n.toNat) },
        [⟨q + 1, n.toNat⟩, ⟨q + 1 + n.toNat, 16⟩]⟩, q + 1 + n.toNat + 16) :=
  h.bind fun _ h => h.bind_last <| bind_of_ok (readCid_eq_ok.2 ⟨n, hn, h20, by omega, rfl, rfl⟩) <|
    bind_of_ok (readSlice_eq_ok.2 ⟨hl, rfl, rfl⟩) <| by simp only [zext62_eq, w64]; rfl

/-- A NEW_CONNECTION_ID whose connection ID fails. -/
theorem extractNewConnectionId_cid_raise (h : w.Holds c [seq, rpt] q) (hcid : readCid w q = raise err o) :
    extractNewConnectionId w c = raise err o :=
  h.bind fun _ h => h.bind_last (bind_of_raise hcid)

theorem extractNewConnectionId_token_cut (h : w.Holds c [seq, rpt] q) (hn : w.mem.read q = some n)
    (h20 : n.toNat ≤ 20) (hl : q + 1 + n.toNat ≤ w.lim) (hcut : w.lim < q + 1 + n.toNat + 16) :
    extractNewConnectionId w c = raise .truncated (q + 1 + n.toNat) :=
  h.bind fun _ h => h.bind_last <| bind_of_ok (readCid_eq_ok.2 ⟨n, hn, h20, hl, rfl, rfl⟩) <|
    bind_of_raise (readSlice_cut hcut)

theorem extractNewConnectionId_cut (h : w.Cut c 2) : extractNewConnectionId w c = raise .truncated w.lim :=
  h.bind fun _ _ h => h.bind_last

end

/-- Settles O43: behind the two VarInts, the connection ID is read as a header's is, and then the token. -/
theorem newConnectionIdIsRead : Obligations.NewConnectionIdIsRead := by
  have ha (d : Bool) : admitted d 0x18 = true := admitted_of_le (by decide)
  refine ⟨fun s seq rpt q hw hrun => ?_, fun s hw => frmClass_cut hw (by decide) extractNewConnectionId_cut⟩
  have hq := varIntsAt_le hrun
  have hholds (hle : q ≤ s.fend.toNat) : (Window.mk s.mem s.fend.toNat).Holds (s.fcur.toNat + 1) [seq, rpt] q :=
    ⟨hrun, hle⟩
  have hlt (hle : q ≤ s.fend.toNat) : s.fcur.toNat < s.fend.toNat := by omega
  refine ⟨fun hend => ?_, fun n hn => ⟨fun h20 hl => ?_, fun h20 hl => ?_, fun h20 hl hcut => ?_,
    fun h20 hl hcut => ?_⟩⟩
  · exact frmClass_truncated hw (hlt hend.le) (ha _)
      (extractNewConnectionId_cid_raise (hholds hend.le) (readCid_missing (by simp only; omega)))
  · exact frmClass_reads hw (by omega) (ha _) (extractNewConnectionId_holds (hholds (by omega)) hn h20 hl)
  · exact frmClass_raise (err := .outOfRange) hw (hlt hl.le) (ha _)
      (extractNewConnectionId_cid_raise (hholds hl.le) (readCid_long hn h20 hl))
  · exact frmClass_truncated hw (hlt hl.le) (ha _)
      (extractNewConnectionId_cid_raise (hholds hl.le) (readCid_cut hn h20 hl hcut))
  · exact frmClass_truncated hw (by omega) (ha _)
      (extractNewConnectionId_token_cut (hholds (by omega)) hn h20 hl hcut)

/-! ## PATH_CHALLENGE and PATH_RESPONSE (44_frames.md R227, R228) -/

theorem readPath_ok {w : Window} {c v : Nat} (hv : valueAt w.mem c 8 = some v) (hl : c + 8 ≤ w.lim) :
    readPath w c = .ok ((⟨c, 8⟩, BitVec.ofNat 64 v), c + 8) :=
  bind_of_ok (readSlice_eq_ok.2 ⟨hl, rfl, rfl⟩) <| bind_of_ok (memRead_eq_ok.2 hv) rfl

theorem readPath_cut {w : Window} {c : Nat} (hl : w.lim < c + 8) : readPath w c = raise .truncated c :=
  bind_of_raise (readSlice_cut hl)

theorem extractPathChallenge_ok {w : Window} {c v : Nat} (hv : valueAt w.mem c 8 = some v) (hl : c + 8 ≤ w.lim) :
    extractPathChallenge w c = .ok (⟨.pathChallenge (BitVec.ofNat 64 v) ⟨c, 8⟩,
      { f0 := BitVec.ofNat 64 v, f1 := BitVec.ofNat 64 c }, [⟨c, 8⟩]⟩, c + 8) :=
  bind_of_ok (readPath_ok hv hl) rfl

theorem extractPathResponse_ok {w : Window} {c v : Nat} (hv : valueAt w.mem c 8 = some v) (hl : c + 8 ≤ w.lim) :
    extractPathResponse w c = .ok (⟨.pathResponse (BitVec.ofNat 64 v) ⟨c, 8⟩,
      { f0 := BitVec.ofNat 64 v, f1 := BitVec.ofNat 64 c }, [⟨c, 8⟩]⟩, c + 8) :=
  bind_of_ok (readPath_ok hv hl) rfl

/-- Settles O44: both read the same eight bytes. -/
theorem pathFramesAreRead : Obligations.PathFramesAreRead := by
  intro s hw hlt c
  have ha {tag : Byte} (h : tag.toNat ≤ 0x1E) := admitted_of_le (datagram := s.params.datagramEnabled) h
  constructor
  · intro v hv hl fields
    exact ⟨frmClass_reads hw hlt (ha (by decide)) (extractPathChallenge_ok hv hl),
      frmClass_reads hw hlt (ha (by decide)) (extractPathResponse_ok hv hl)⟩
  · intro hcut
    have hread := readPath_cut (w := ⟨s.mem, s.fend.toNat⟩) hcut
    exact ⟨frmClass_truncated hw hlt (ha (by decide)) (bind_of_raise hread),
      frmClass_truncated hw hlt (ha (by decide)) (bind_of_raise hread)⟩

/-! ## CONNECTION_CLOSE (44_frames.md R229) -/

section
variable {w : Window} {c e : Nat} {app : Bool} {err n : U62} {ft : Option U62}

/-- A CONNECTION_CLOSE's VarInts are there, and its reason fits. -/
theorem extractConnectionClose_holds (h : w.Holds c (err :: (ft.toList ++ [n])) e) (hft : (!app) = ft.isSome)
    (hl : e + n.toNat ≤ w.lim) :
    extractConnectionClose app w c =
      .ok (⟨.connectionClose app err ft (if n = 0 then none else some ⟨e, n.toNat⟩),
        { f0 := if app then 1 else 0, f1 := BitVec.ofNat 64 err.toNat, f2 := if !app then 1 else 0
          f3 := BitVec.ofNat 64 (ft.getD 0).toNat, f4 := if n = 0 then 0 else 1
          f5 := BitVec.ofNat 64 n.toNat, f6 := if n = 0 then 0 else BitVec.ofNat 64 e },
        if n = 0 then [] else [⟨e, n.toNat⟩]⟩, e + n.toNat) := by
  refine h.bind fun _ h => h.bind_optional hft fun _ h => h.bind_last <|
    bind_of_ok (readSlice_eq_ok.2 ⟨hl, rfl, rfl⟩) ?_
  by_cases hzero : n = 0
  · subst hzero
    simp only [zext62_eq, flagWord_eq, if_true]
    rfl
  · simp only [zext62_eq, flagWord_eq, hzero, if_false]
    rfl

theorem extractConnectionClose_cut (h : w.Cut c (if app then 2 else 3)) :
    extractConnectionClose app w c = raise .truncated w.lim := by
  have hk : (if app then 2 else 3) = 1 + (if !app then 1 else 0) + 1 := by cases app <;> rfl
  rw [hk] at h
  exact h.bind fun _ _ h => h.bind_optional fun _ _ h => h.bind_last

theorem extractConnectionClose_long (h : w.HoldsUpTo c (if app then 2 else 3) n e) (hl : w.lim < e + n.toNat) :
    extractConnectionClose app w c = raise .truncated e := by
  have hk : (if app then 2 else 3) = 0 + (if !app then 1 else 0) + 1 + 1 := by cases app <;> rfl
  rw [hk] at h
  exact h.bind fun _ _ h => h.bind_optional fun _ _ h => h.holds.bind_last <| bind_of_raise (readSlice_cut hl)

end

/-- Settles O45: behind the error code and the frame type, the reason fits or is cut at its start. -/
theorem connectionCloseIsRead : Obligations.ConnectionCloseIsRead := by
  have ha (d app : Bool) : admitted d (tagWith 0x03 true false app) = true :=
    admitted_of_le (tagWith_connectionClose_le app)
  constructor
  · intro s err n q hw hl reason ds fields
    have hle : q ≤ (Window.mk s.mem s.fend.toNat).lim := by simp only; omega
    refine ⟨fun ft hrun => ?_, fun hrun => ?_⟩
    all_goals have hq := varIntsAt_le hrun
    · exact frmClass_reads hw (by omega) (ha _ false)
        (extractConnectionClose_holds (ft := some ft) ⟨hrun, hle⟩ rfl hl)
    · exact frmClass_reads hw (by omega) (ha _ true)
        (extractConnectionClose_holds (ft := none) ⟨hrun, hle⟩ rfl hl)
  · intro s app hw hlt k
    exact ⟨frmClass_cut hw (tagWith_connectionClose_le app) extractConnectionClose_cut hlt, fun vs n q hrun hq hl =>
      frmClass_truncated hw hlt (ha _ app) (extractConnectionClose_long ⟨vs, hrun, hq⟩ hl)⟩

/-! ## DATAGRAM (44_frames.md R231) -/

theorem admitted_datagram (datagram len : Bool) : admitted datagram (tagWith 0x06 false false len) = datagram := by
  revert datagram len; decide

theorem extractDatagram_ok {w : Window} {c e : Nat} {len : Bool} {d : Slice} (hd : readData len w c = .ok (d, e)) :
    extractDatagram len w c = .ok (⟨.datagram len d,
      { f0 := if len then 1 else 0, f1 := BitVec.ofNat 64 d.len, f2 := BitVec.ofNat 64 d.off }, [d]⟩, e) :=
  bind_of_ok hd rfl

/-- Settles O46: the tag is admitted as the parameter says, and the data is read with or without its length. -/
theorem datagramIsRead : Obligations.DatagramIsRead := by
  intro s hw hlt c
  refine ⟨fun hon => ?_, fun hoff len => frmClass_notAdmitted hw hlt ((admitted_datagram _ len).trans hoff)⟩
  have ha (len : Bool) : admitted s.params.datagramEnabled (tagWith 0x06 false false len) = true :=
    (admitted_datagram _ len).trans hon
  refine ⟨?_, fun n q hrun => ⟨fun hl => ?_, fun hq hl => ?_⟩, fun hwritten hcut => ?_⟩
  · exact frmClass_reads hw hlt (ha false) (extractDatagram_ok (len := false) rfl)
  · exact frmClass_reads hw hlt (ha true) (extractDatagram_ok (readData_holds ⟨hrun, by simp only; omega⟩ hl))
  · exact frmClass_truncated hw hlt (ha true) (bind_of_raise (readData_long ⟨hrun, hq⟩ hl))
  · exact frmClass_truncated hw hlt (ha true) (bind_of_raise (Window.Cut.readData (.of_lt hlt hwritten hcut)))

end Sys2Proof.Machine
end

section
/-! PROOFS. Failures (60_exceptions.md R261, R262, R264): what a failed command leaves, and where HDRL, HDRS and PKT
stop in a field that `LIMIT` cuts. -/

namespace Sys2Proof.Machine

/-! ## What a failure leaves (60_exceptions.md R262) -/

/-- An outcome whose code is that of a failure is the abort. -/
theorem Outcome.eq_abort_of_code {s t : State} {op : Byte} (h : Outcome s op t)
    (hcode : t.status.toNat % 16 ∈ [1, 2, 3]) : ∃ e o, t = abort op e o s := by
  cases h with
  | done u _ =>
    rw [statusWord_code] at hcode
    exact absurd hcode (by decide)
  | ended _ =>
    rw [endOfWindow_status, statusWord_code] at hcode
    exact absurd hcode (by decide)
  | aborted e o => exact ⟨e, o, rfl⟩

/-- Settles O47: of a command's outcomes only the abort has a failure's code, and it is the failed state. -/
theorem failedCommandChangesNothingElse : Obligations.FailedCommandChangesNothingElse := by
  intro i s t h hcode
  obtain ⟨e, o, rfl⟩ := (exec_outcome h).eq_abort_of_code hcode
  refine ⟨(codeNumber (errCode e)).toNat, o, errCode_mem e, ?_⟩
  rw [abort_eq_failed, statusWord_eq, clearsOf_opcodeFor]

/-! ## Before a packet's class is known (42_packet.md R160, R161) -/

theorem execPkt_packetFirstAt_raise {s : State} {e : Err} {o : Nat} (h : packetFirstAt s = raise e o) :
    execPkt s = .next (failed s (statusWord (errCode e) opPkt) (clearsOf opPkt) o) := by
  rw [execPkt, h]
  exact congrArg _ (abort_eq_failed _ _ _ _)

theorem packetFirstAt_missing {s : State} (hw : packetWindow s = true) (hcut : s.limit.toNat < s.cur.toNat + 1) :
    packetFirstAt s = raise .truncated s.cur.toNat := by
  simp only [packetFirstAt, beginPacket_ok hw, ok_bind, peekByte_cut (w := ⟨s.mem, s.limit.toNat⟩) hcut, raise_bind]

/-- An empty packet window has no byte at `CUR`. -/
theorem limit_lt_of_empty {s : State} (h : s.cur = s.limit) : s.limit.toNat < s.cur.toNat + 1 := by
  rw [h]
  exact Nat.lt_succ_self _

/-- Settles O27: PKT reads the version to choose a class and HDRL before it checks the fixed bit, so the cut is met
first. -/
theorem cutVersionIsTruncated : Obligations.CutVersionIsTruncated := by
  refine fun s hw => ⟨fun b hb hform hlt hcut => ⟨?_, ?_⟩, fun hempty => ?_⟩
  · exact execPkt_packetFirstAt_raise (packetFirstAt_cut hw hlt hb (formBit_of_ge hform) hcut)
  · exact execHdrl_raise hw hb (formBit_of_ge hform) hlt (longFields_cut hcut)
  · exact execPkt_packetFirstAt_raise (packetFirstAt_missing hw (limit_lt_of_empty hempty))

/-! ## Fields that `LIMIT` cuts (41_header.md R133, R136; 42_packet.md R164) -/

theorem decodeLong_missing {w : Window} {c : Nat} (h : w.lim < c + 1) (enforce : Bool) :
    decodeLong enforce w c = raise .truncated c := by
  rw [decodeLong, readByte_cut h, raise_bind]

theorem decodeShort_missing {ctrl : Word} {w : Window} {c : Nat} (hlen : shortDcidLen ctrl ≤ 20)
    (h : w.lim < c + 1) : decodeShort ctrl w c = raise .truncated c := by
  rw [decodeShort, checkShortDcidLen_ok hlen, ok_bind, readByte_cut h, raise_bind]

/-- A short header whose connection ID is cut. -/
theorem shortFields_cut {s : State} {flags : Byte} (hfixed : fixedBitOkShort s flags = true) {start c : Nat}
    {w : Window} (h : w.lim < c + shortDcidLen s.ctrl) :
    shortFields s.ctrl flags start w c = raise .truncated c := by
  rw [shortFields, fixedBitCheckShort_ok hfixed, ok_bind, readSlice_cut h, raise_bind]

/-- An Initial's tail whose token is cut. -/
theorem initialTail_cutToken {p : Bool} {pnl : BitVec 2} {w : Window} {q k : Nat} {tl : U62}
    (htl : varIntAt w.mem q = some (tl, k)) (hk : q + k ≤ w.lim) (h : w.lim < q + k + tl.toNat) :
    initialTail p pnl w q = raise .truncated (q + k) := by
  have hlen : readVarInt w q = .ok ((tl, k), q + k) := readVarInt_eq_ok.2 ⟨htl, hk, rfl⟩
  rw [initialTail, hlen, ok_bind]
  simp only [readSlice_cut h, raise_bind]

/-- A long header whose second connection ID is cut. -/
theorem longFields_scid_cut {s : State} {flags dl sl : Byte} (hs : longStart s flags)
    (hdl : s.mem.read (s.cur.toNat + 5) = some dl) (hdle : dl.toNat ≤ 20)
    (hsl : s.mem.read (s.cur.toNat + 6 + dl.toNat) = some sl) (hsle : sl.toNat ≤ 20)
    (hl : s.cur.toNat + 7 + dl.toNat ≤ s.limit.toNat)
    (hcut : s.limit.toNat < s.cur.toNat + 7 + dl.toNat + sl.toNat) :
    longFields (enforceFixedBit s.ctrl) flags s.cur.toNat ⟨s.mem, s.limit.toNat⟩ (s.cur.toNat + 1) =
      raise .truncated (s.cur.toNat + 7 + dl.toNat) := by
  have hpast : s.cur.toNat + 7 + dl.toNat = s.cur.toNat + 6 + dl.toNat + 1 := by omega
  rw [hpast] at hl hcut ⊢
  exact longFields_scid_raise hs hdl hdle (by omega) (readCid_cut hsl hsle hl hcut)

/-- Settles O60, by the reader that meets the limit: the first byte's, a connection ID's, or the token's. -/
theorem cutHeaderFieldIsTruncated : Obligations.CutHeaderFieldIsTruncated := by
  intro s truncated c
  refine ⟨fun hw hempty => ?_, fun flags hs => ?_, fun flags hw hb hform hlt hlen hfixed hcut => ?_, ?_⟩
  · have hcut := limit_lt_of_empty hempty
    exact ⟨execHdrl_decodeLong_raise hw (decodeLong_missing hcut _),
      fun hlen => execHdrs_decodeShort_raise hw (decodeShort_missing hlen hcut)⟩
  · refine ⟨fun hlim => ?_, fun dl hdl hdle hl => ⟨fun hcut => ?_, fun hlim => ?_, fun sl hsl hsle hl hcut => ?_⟩⟩
    · exact longStart_raise hs (longFields_dcid_raise hs (readCid_missing (hlim.trans_lt (Nat.lt_succ_self _))))
    · exact longStart_raise hs (longFields_dcid_raise hs (readCid_cut hdl hdle hl hcut))
    · exact longStart_raise hs
        (longFields_scid_raise hs hdl hdle hlim.ge (readCid_missing (hlim.trans_lt (Nat.lt_succ_self _))))
    · exact longStart_raise hs (longFields_scid_cut hs hdl hdle hsl hsle hl hcut)
  · have hfields := shortFields_cut hfixed (start := c) (w := ⟨s.mem, s.limit.toNat⟩) hcut
    have hfirst : c + 1 ≤ s.limit.toNat := hlt
    refine ⟨execHdrs_decodeShort_raise (e := .truncated) hw ?_,
      execPkt_short_raise (e := .truncated) hw hlt hb (formBit_of_lt hform) ?_⟩
    · rw [decodeShort_eq hlen hfirst hb, formBit_of_lt hform, if_neg Bool.false_ne_true, hfields]
    · rw [checkShortDcidLen_ok hlen, ok_bind, hfields]
  · intro fixed reserved pnl version dcid scid tl k hw flags q hhdr _ hfixed htl hk hcut
    exact pktLong_raise hw hhdr hfixed ((Nat.le_add_right _ k).trans hk) (initialTail_cutToken htl hk hcut)

end Sys2Proof.Machine
end

section
/-! PROOFS. A reset and a hold (10_state.md R44, R46; 70_reset_and_hazards.md R290, R297, R300): what the host can do
while a command is held, when one is, and what a reset leaves. -/

namespace Sys2Proof.Machine

/-! ## The step while a command is held -/

/-- While a command is held it is the host's turn. -/
theorem step_held {s : State} {op : Byte} (hp : s.pending = some op) (hh : holds op s = true) :
    step s = hostTurn hostMoveHeld s := by
  simp only [step, hp, hh, if_true]

theorem step_hostMoveHeld {s : State} {op : Byte} {m : HostMove} {rest : List HostMove} (hp : s.pending = some op)
    (hh : holds op s = true) (hm : s.host = m :: rest) : step s = hostMoveHeld m { s with host := rest } := by
  rw [step_held hp hh, hostTurn, hm]

/-- A held command stays held while the host makes no move. -/
theorem step_held_idle {s : State} {op : Byte} (hp : s.pending = some op) (hh : holds op s = true)
    (hm : s.host = []) : step s = .next s := by
  rw [step_held hp hh, hostTurn, hm]

/-- A move other than a pop or a reset is no move of the host during a hold. -/
theorem hostMoveHeld_refused {m : HostMove} (hpop : m ≠ .pop) (hreset : m ≠ .reset) (s : State) :
    hostMoveHeld m s = .refused .hostMoveDuringCommand := by
  cases m with
  | pop => exact absurd rfl hpop
  | reset => exact absurd rfl hreset
  | load _ _ | write _ _ | read _ | deref _ => rfl

/-! ## When a command holds (10_state.md R44) -/

theorem appends_iff {op : Byte} : appends op = true ↔ op = 0x20 ∨ op = 0x30 := by
  simp [appends, opPkt, opFrm]

theorem evqFull_eq_true {s : State} : evqFull s = true ↔ ∃ depth ∈ s.params.evqDepth, depth ≤ s.evq.length := by
  unfold evqFull
  cases s.params.evqDepth <;> simp

theorem holds_eq_true {op : Byte} {s : State} :
    holds op s = true ↔ (op = 0x20 ∨ op = 0x30) ∧ ∃ depth ∈ s.params.evqDepth, depth ≤ s.evq.length := by
  rw [holds, Bool.and_eq_true, appends_iff, evqFull_eq_true]

/-- No command holds while `EVQ` has room. -/
theorem holds_of_room {s : State} (op : Byte) (h : ∀ depth ∈ s.params.evqDepth, s.evq.length < depth) :
    holds op s = false := by
  rw [holds, evqFull_eq_false.2 h, Bool.and_false]

theorem step_pop_held {s : State} {op : Byte} {rest : List HostMove} {e : Event} {q : List Event}
    (hp : s.pending = some op) (hh : holds op s = true) (hm : s.host = .pop :: rest) (hq : s.evq = e :: q) :
    step s = .next { s with host := rest, evq := q, seen := s.seen ++ [.record e] } :=
  (step_hostMoveHeld hp hh hm).trans (hostPop_cons hq)

/-- Settles O4: a command holds exactly if it appends and the queue is full, a pop makes room, and a command given that
does not hold runs. -/
theorem fullQueueHoldsPktAndFrm : Obligations.FullQueueHoldsPktAndFrm := by
  refine ⟨fun s d op hd hfull hp hop => ?_, fun s d op i hd hroom hp hi => ?_,
    fun s op i rest e q hd hp hop hi hm hq => ?_, fun s op h => ?_⟩
  · have hholds : holds op s = true := holds_eq_true.2 ⟨hop, d, hd, hfull⟩
    refine ⟨step_held_idle hp hholds, fun rest e q hm hq => step_pop_held hp hholds hm hq,
      fun m rest hm hpop hreset => ?_⟩
    rw [step_hostMoveHeld hp hholds hm, hostMoveHeld_refused hpop hreset]
  · exact step_command hp (holds_of_room op (by simpa [hd] using hroom)) hi
  · have hholds : holds op s = true := holds_eq_true.2 ⟨hop, _, hd, Nat.le_refl _⟩
    refine ⟨_, step_pop_held hp hholds hm hq, rfl, step_command hp (holds_of_room op ?_) hi⟩
    simp [hd, hq]
  · rcases h with hunbounded | ⟨hpkt, hfrm⟩
    · exact holds_of_room op (by simp [hunbounded])
    · exact holds_of_not_appending hpkt hfrm s

/-! ## Reset (10_state.md R46, 70_reset_and_hazards.md R290) -/

theorem regValue_reset (r : BitVec 6) : regValue r State.reset = if r = 0x01 then 0xF else 0 := by
  revert r; decide

/-- A reset leaves every register at its reset value. -/
theorem regValue_resetBlock (r : BitVec 6) (s : State) : regValue r (resetBlock s) = regValue r State.reset := rfl

/-- A reset is a move of the host between commands and during a hold. -/
theorem step_reset {s : State} {rest : List HostMove} (hm : s.host = .reset :: rest)
    (hp : ∀ op, s.pending = some op → holds op s = true) : step s = .next (resetBlock { s with host := rest }) := by
  cases hpending : s.pending with
  | none => exact step_hostMove hpending hm
  | some op => exact step_hostMoveHeld hpending (hp op hpending) hm

/-- Settles O1: the step is the reset of the block, whose fields are the reset state's or the host's side of the run. -/
theorem resetMoveRestoresTheResetState : Obligations.ResetMoveRestoresTheResetState := by
  intro s rest hm hp
  refine ⟨_, step_reset hm hp, fun r => ?_, fun a => rfl, rfl, rfl, rfl, rfl, rfl, rfl, rfl⟩
  rw [regValue_resetBlock, regValue_reset]

end Sys2Proof.Machine
end

section
/-! PROOFS. Descriptors (70_reset_and_hazards.md R293): every step keeps those reported, only a load marks any stale, and
what a read through one gives. -/

namespace Sys2Proof.Machine

/-! ## The bytes a descriptor names -/

theorem Memory.readAll_congr {m m' : Memory} {a n : Nat}
    (h : ∀ x, a ≤ x → x < a + n → Memory.read m x = Memory.read m' x) :
    Memory.readAll m a n = Memory.readAll m' a n := by
  induction n generalizing a with
  | zero => rfl
  | succ n ih =>
    have hrest : Memory.readAll m (a + 1) n = Memory.readAll m' (a + 1) n :=
      ih fun x hlo hhi => h x (by omega) (by omega)
    simp only [Memory.readAll, h a (Nat.le_refl a) (by omega), hrest]

theorem bytesAt_eq_some {m : Memory} {a n : Nat} {bs : List Byte} :
    bytesAt m a n = some bs ↔ Memory.readAll m a n = .ok bs := by
  unfold bytesAt
  cases Memory.readAll m a n <;> simp

/-- A load leaves the bytes of a descriptor it does not meet. -/
theorem bytesAt_writeAll_outside {m : Memory} {d : Slice} {a : Nat} {new : List Byte}
    (h : ∀ x, d.off ≤ x → x < d.off + d.len → x < a ∨ a + new.length ≤ x) :
    bytesAt (m.writeAll a new) d.off d.len = bytesAt m d.off d.len := by
  have hread : Memory.readAll (m.writeAll a new) d.off d.len = Memory.readAll m d.off d.len :=
    Memory.readAll_congr fun x hlo hhi => Memory.read_writeAll_outside new m (h x hlo hhi)
  rw [bytesAt, bytesAt, hread]

theorem overlaps_eq_false {d : Slice} {a n : Nat} (h : ∀ x, d.off ≤ x → x < d.off + d.len → x < a ∨ a + n ≤ x) :
    overlaps d a n = false := by
  refine Bool.eq_false_iff.2 fun hmeet => ?_
  obtain ⟨x, hlo, hhi, hwritten⟩ := overlaps_iff.1 hmeet
  have := h x hlo hhi
  omega

/-! ## What a step leaves of the descriptors -/

theorem Moved.descs_load {s t : State} {a : Nat} {bytes : List Byte} (h : Moved s (.load a bytes) t) :
    t.descs = markStale a bytes.length s.descs := by
  cases h; rfl

/-- A move of the host but a load leaves every descriptor. -/
theorem Moved.descs_eq {s t : State} {m : HostMove} (h : Moved s m t) (hm : ∀ a bytes, m ≠ .load a bytes) :
    t.descs = s.descs := by
  cases h with
  | load a bytes _ => exact absurd rfl (hm a bytes)
  | write r v => rw [writeReg_eq]
  | read r | pop e rest _ | deref k d bytes | reset => rfl

theorem hostMoveHeld_descs {m : HostMove} {s t : State} (h : hostMoveHeld m s = .next t) : t.descs = s.descs := by
  refine (hostMoveHeld_moved h).descs_eq fun a bytes hload => ?_
  rw [hload] at h
  cases h

/-- The host's turn leaves every descriptor if its move does. -/
theorem hostTurn_descs {move : HostMove → State → Result} {s t : State}
    (hmove : ∀ m rest, s.host = m :: rest → ∀ u, move m { s with host := rest } = .next u → u.descs = s.descs)
    (h : hostTurn move s = .next t) : t.descs = s.descs := by
  unfold hostTurn at h
  split at h
  · cases h; rfl
  · exact hmove _ _ ‹_› t h

/-- The host's move is a load of `IN` between commands. -/
def LoadsInput (s : State) : Prop := s.pending = none ∧ ∃ a bytes rest, s.host = .load a bytes :: rest

/-- A step that is no load of `IN` leaves every descriptor reported so far. -/
theorem step_descs_append {s t : State} (hload : ¬ LoadsInput s) (h : step s = .next t) :
    ∃ l, t.descs = s.descs ++ l := by
  cases hp : s.pending with
  | none =>
    simp only [step, hp] at h
    refine ⟨[], (hostTurn_descs (fun m rest hm u hu => ?_) h).trans (List.append_nil _).symm⟩
    exact (hostMove_moved hu).descs_eq fun a bytes heq => hload ⟨hp, a, bytes, rest, heq ▸ hm⟩
  | some op =>
    cases hholds : holds op s with
    | true =>
      rw [step_held hp hholds] at h
      refine ⟨[], (hostTurn_descs (fun m rest _ u hu => ?_) h).trans (List.append_nil _).symm⟩
      exact (hostMoveHeld_descs hu :)
    | false =>
      cases hi : decodeCommand op with
      | ok i => exact (exec_outcome ((step_command hp hholds hi).symm.trans h)).descs_append
      | error e =>
        rw [step_badCommand hp hholds hi] at h
        cases h
        exact ⟨[], (List.append_nil _).symm⟩

theorem step_keeps_descriptor {s t : State} {k : Nat} {d : Descriptor} (hload : ¬ LoadsInput s)
    (h : step s = .next t) (hd : s.descs[k]? = some d) : t.descs[k]? = some d := by
  obtain ⟨l, hl⟩ := step_descs_append hload h
  obtain ⟨hk, -⟩ := List.getElem?_eq_some_iff.1 hd
  rw [hl, List.getElem?_append_left hk, hd]

/-- A mark is never cleared: a load only sets marks, and any other step keeps the descriptors. -/
theorem step_keeps_stale {s t : State} {k : Nat} {d : Slice} (h : step s = .next t)
    (hd : s.descs[k]? = some ⟨d, true⟩) : t.descs[k]? = some ⟨d, true⟩ := by
  by_cases hload : LoadsInput s
  · obtain ⟨hp, a, bytes, rest, hm⟩ := hload
    rw [step_hostMove hp hm] at h
    rw [(hostMove_moved h).descs_load, markStale_getElem?, hd]
    rfl
  · exact step_keeps_descriptor hload h hd

/-! ## Reads through a descriptor -/

theorem step_load {s : State} {a : Nat} {bytes : List Byte} {rest : List HostMove} (hp : s.pending = none)
    (hm : s.host = .load a bytes :: rest) (hroom : a + bytes.length ≤ s.params.maxInLen) :
    step s = .next { s with
      host := rest, mem := s.mem.writeAll a bytes, descs := markStale a bytes.length s.descs } :=
  (step_hostMove hp hm).trans (hostLoad_room hroom)

theorem step_deref_stale {s : State} {k : Nat} {d : Slice} {rest : List HostMove} (hp : s.pending = none)
    (hm : s.host = .deref k :: rest) (hd : s.descs[k]? = some ⟨d, true⟩) : step s = .fault (.staleDescriptor k) := by
  rw [step_hostMove hp hm]
  simp only [hostMove, hostDeref, hd, if_true]

theorem step_deref {s : State} {k : Nat} {d : Slice} {bytes : List Byte} {rest : List HostMove}
    (hp : s.pending = none) (hm : s.host = .deref k :: rest) (hd : s.descs[k]? = some ⟨d, false⟩)
    (hb : bytesAt s.mem d.off d.len = some bytes) :
    step s = .next { s with host := rest, seen := s.seen ++ [.bytes d bytes] } := by
  rw [step_hostMove hp hm]
  simp only [hostMove, hostDeref, hd, Bool.false_eq_true, if_false, bytesAt_eq_some.1 hb]
  rfl

/-- Settles O8: a load marks the descriptors it meets and leaves the others with their bytes, no step clears a mark, and
a read through a descriptor faults exactly on its mark. -/
theorem staleDescriptorReadFaults : Obligations.StaleDescriptorReadFaults := by
  refine ⟨fun s k x a d bytes rest hp hm hroom hd hlo hhi hwlo hwhi => ?_,
    fun s k d rest => step_deref_stale, fun s t k d => step_keeps_stale, fun s t k d h hload hd => ?_,
    fun s k d bytes rest => step_deref, fun s k a d old new rest hp hm hroom hd hold hout => ?_⟩
  · have hmeet : overlaps d.slice a bytes.length = true := overlaps_iff.2 ⟨x, hlo, hhi, hwlo, hwhi⟩
    refine ⟨_, step_load hp hm hroom, step_deref_stale (d := d.slice) hp rfl ?_⟩
    rw [markStale_getElem?, hd, Option.map_some, hmeet, Bool.or_true]
  · exact step_keeps_descriptor (fun ⟨hp, a, bytes, rest, hm⟩ => hload hp a bytes rest hm) h hd
  · refine ⟨_, step_load hp hm hroom, step_deref hp rfl ?_ ((bytesAt_writeAll_outside hout).trans hold)⟩
    rw [markStale_getElem?, hd, Option.map_some, overlaps_eq_false hout, Bool.or_false]

end Sys2Proof.Machine
end
